-- ==== Sys2Proof/Config.lean ====
section
/-! DEFINITION. The parameters of the block that the spec fixes (00_scope.md section 3). There is no free
value: the spec leaves no register and no response field open (93_implementation_defined.md section 2). -/

namespace Sys2Proof

/-- `W`, the width of each accumulator register and of the `ARG` and `DATA` fields (R10). -/
abbrev Config.W : Nat := 64

/-- The transport unit, 8 bits (R11): the constant of the normalize threshold, of a refill step, of a
drain step and of the flush padding. -/
abbrev Config.byteBits : Nat := 8

/-- `TERR_BITS`, the width of a transport's error value (R14, R80). -/
abbrev Config.terrBits : Nat := 32

/-- The width of the command word, `16 + W` (R14, R73). -/
abbrev Config.cmdBits : Nat := 80

/-- The width of the response word, `40 + W` (R14, R80). -/
abbrev Config.rspBits : Nat := 104

end Sys2Proof
end

