-- ==== Sys2Proof/Word.lean ====
section
/-! DEFINITION. The words of the block's interfaces and registers, and their plainest arithmetic. -/

namespace Sys2Proof

/-- One byte of a transport or of a host buffer (R11). -/
abbrev Byte := BitVec 8

/-- A `W`-bit value: an accumulator register, an `ARG` field, a `DATA` field (R10, R21, R74, R80). -/
abbrev Word := BitVec 64

/-- A transport's own error value, opaque to the block (R41, R42, R84). -/
abbrev TErr := BitVec 32

/-- A command word `CMD[79:0]` (R73). -/
abbrev CmdWord := BitVec 80

/-- A response word `RSP[103:0]` (R80). -/
abbrev RspWord := BitVec 104

end Sys2Proof
end

