-- ==== Sys2Proof/Syntax.lean ====
section
/-! DEFINITION. The command set, one constructor per row of spec/opcode_table.json (30_encoding.md R70).
Operands are natural numbers, as R70 and R88 give them; WellFormed.lean says which of them a word can carry. -/

namespace Sys2Proof

/-- The ten host commands (R70). The host buffers `dest` and `src` are attached to a command and are no part of
its word (R78): they stand in the machine's state. -/
inductive Instr where
  /-- `read_bit()` (R127). -/
  | readBit
  /-- `read_bits(n)` (R123). -/
  | readBits (n : Nat)
  /-- `read_byte()` (R128). -/
  | readByte
  /-- `read_bytes(dest, count)` (R129). -/
  | readBytes (count : Nat)
  /-- `attempt_read(dest, count)` served by the reader (R131). -/
  | srcRead (count : Nat)
  /-- `write_bit(v)` (R146). -/
  | writeBit (v : Nat)
  /-- `write_bits(v, n)`: value first, width second (R89, R144). -/
  | writeBits (v n : Nat)
  /-- `write_byte(v)` (R147). -/
  | writeByte (v : Nat)
  /-- `write_bytes(src)` with `count` the length of `src` (R148). -/
  | writeBytes (count : Nat)
  /-- `flush()` (R150). -/
  | flush
  deriving DecidableEq, Repr

end Sys2Proof
end

