-- ==== Sys2Proof/WellFormed.lean ====
section
/-! DEFINITION. Which commands a command word can carry (30_encoding.md R76, R88): the width field has 8 bits, the
argument field `W` bits. These are bounds of the encoding, not the legality checks of a command's own rule: a
`read_bits(0)` or a `write_bit(2)` is a well-formed command that answers `InvalidArgument` (R87). -/

namespace Sys2Proof

/-- The width operand fits the 8-bit field `N` (R76). -/
def fitsN (n : Nat) : Bool := decide (n < 2 ^ 8)

/-- The value or count fits the `W`-bit field `ARG` (R76). -/
def fitsArg (a : Nat) : Bool := decide (a < 2 ^ Config.W)

/-- The command can be carried by a command word (R88). -/
def Instr.wf : Instr → Bool
  | .readBit => true
  | .readBits n => fitsN n
  | .readByte => true
  | .readBytes count => fitsArg count
  | .srcRead count => fitsArg count
  | .writeBit v => fitsArg v
  | .writeBits v n => fitsArg v && fitsN n
  | .writeByte v => fitsArg v
  | .writeBytes count => fitsArg count
  | .flush => true

end Sys2Proof
end

