-- ==== Sys2Proof/Decode.lean ====
section
/-! DEFINITION. The command word: its fields, the decoder (total over all `2^80` words, R85), the encoder, the opcode
table as masks and patterns, and the assembler's spelling (30_encoding.md sections 2, 4, 5). -/

namespace Sys2Proof

/-! ### Fields of the word (R74) -/

/-- `OP`, `CMD[3:0]`. -/
def CmdWord.op (w : CmdWord) : BitVec 4 := w.extractLsb' 0 4

/-- `RSV`, `CMD[7:4]`. -/
def CmdWord.rsv (w : CmdWord) : BitVec 4 := w.extractLsb' 4 4

/-- `N`, `CMD[15:8]`. -/
def CmdWord.n (w : CmdWord) : BitVec 8 := w.extractLsb' 8 8

/-- `ARG`, `CMD[79:16]`. -/
def CmdWord.arg (w : CmdWord) : BitVec 64 := w.extractLsb' 16 64

/-! ### Operation codes (R75) -/

/-- The command an operation code names, before its operands are known. -/
inductive Op where
  | readBit | readBits | readByte | readBytes | srcRead
  | writeBit | writeBits | writeByte | writeBytes | flush
  deriving DecidableEq, Repr

/-- R75 read from code to command; the codes left over are the reserved ones of R85. -/
def opOfCode (c : BitVec 4) : Option Op :=
  match c.toNat with
  | 0x1 => some .readBit
  | 0x2 => some .readBits
  | 0x3 => some .readByte
  | 0x4 => some .readBytes
  | 0x5 => some .srcRead
  | 0x8 => some .writeBit
  | 0x9 => some .writeBits
  | 0xA => some .writeByte
  | 0xB => some .writeBytes
  | 0xC => some .flush
  | _ => none

/-- R75, column `N`: the commands that use the width field. -/
def Op.usesN : Op → Bool
  | .readBits | .writeBits => true
  | .readBit | .readByte | .readBytes | .srcRead | .writeBit | .writeByte | .writeBytes | .flush => false

/-- R75, column `ARG`: the commands that use the argument field. -/
def Op.usesArg : Op → Bool
  | .readBytes | .srcRead | .writeBit | .writeBits | .writeByte | .writeBytes => true
  | .readBit | .readBits | .readByte | .flush => false

/-- The command with its operands (R75, R76): fields are unsigned, unscaled, unbiased. -/
def Op.assemble (o : Op) (n arg : Nat) : Instr :=
  match o with
  | .readBit => .readBit
  | .readBits => .readBits n
  | .readByte => .readByte
  | .readBytes => .readBytes arg
  | .srcRead => .srcRead arg
  | .writeBit => .writeBit arg
  | .writeBits => .writeBits arg n
  | .writeByte => .writeByte arg
  | .writeBytes => .writeBytes arg
  | .flush => .flush

/-! ### The decoder (R86) -/

/-- Why a word is no command: the test of R86 that fired. -/
inductive Invalid where
  /-- Step 1: `RSV` is not zero. -/
  | reservedField
  /-- Step 2: a reserved operation code (R85). -/
  | reservedCode
  /-- Step 3: `N` is not zero and the command does not use it. -/
  | unusedN
  /-- Step 4: `ARG` is not zero and the command does not use it. -/
  | unusedArg
  deriving DecidableEq, Repr

/-- R86: the four tests in their order, then the command of R75 with the operands of R76. -/
def decode (w : CmdWord) : Except Invalid Instr :=
  if w.rsv ≠ 0#4 then .error .reservedField
  else
    match opOfCode w.op with
    | none => .error .reservedCode
    | some o =>
      if o.usesN = false ∧ w.n ≠ 0#8 then .error .unusedN
      else if o.usesArg = false ∧ w.arg ≠ 0#64 then .error .unusedArg
      else .ok (o.assemble w.n.toNat w.arg.toNat)

/-! ### The encoder (R74, R75) -/

/-- The word with the given fields and `RSV` zero (R74). -/
def packCmd (op : BitVec 4) (n arg : Nat) : CmdWord :=
  BitVec.ofNat 64 arg ++ BitVec.ofNat 8 n ++ 0#4 ++ op

/-- The operation code of a command (R75). -/
def Instr.code : Instr → BitVec 4
  | .readBit => 0x1#4
  | .readBits _ => 0x2#4
  | .readByte => 0x3#4
  | .readBytes _ => 0x4#4
  | .srcRead _ => 0x5#4
  | .writeBit _ => 0x8#4
  | .writeBits _ _ => 0x9#4
  | .writeByte _ => 0xA#4
  | .writeBytes _ => 0xB#4
  | .flush => 0xC#4

/-- What a command puts in the field `N`: its width, or 0 (R75, R79). -/
def Instr.nOperand : Instr → Nat
  | .readBits n => n
  | .writeBits _ n => n
  | .readBit | .readByte | .readBytes _ | .srcRead _ | .writeBit _ | .writeByte _ | .writeBytes _ | .flush => 0

/-- What a command puts in the field `ARG`: its value or count, or 0 (R75, R79). -/
def Instr.argOperand : Instr → Nat
  | .readBytes count => count
  | .srcRead count => count
  | .writeBit v => v
  | .writeBits v _ => v
  | .writeByte v => v
  | .writeBytes count => count
  | .readBit | .readBits _ | .readByte | .flush => 0

/-- The command word of a command (R74, R75). -/
def encode (i : Instr) : CmdWord := packCmd i.code i.nOperand i.argOperand

/-! ### The opcode table as masks and patterns -/

/-- One row of spec/opcode_table.json: a word is that command exactly when `word & mask = pattern`
(30_encoding.md, opening paragraph). -/
structure TableRow where
  mnemonic : String
  pattern  : CmdWord
  mask     : CmdWord
  deriving DecidableEq, Repr

/-- The ten rows. -/
def opcodeTable : List TableRow :=
  [ ⟨"READ_BIT",    0x00000000000000000001#80, 0xFFFFFFFFFFFFFFFFFFFF#80⟩,
    ⟨"READ_BITS",   0x00000000000000000002#80, 0xFFFFFFFFFFFFFFFF00FF#80⟩,
    ⟨"READ_BYTE",   0x00000000000000000003#80, 0xFFFFFFFFFFFFFFFFFFFF#80⟩,
    ⟨"READ_BYTES",  0x00000000000000000004#80, 0x0000000000000000FFFF#80⟩,
    ⟨"SRC_READ",    0x00000000000000000005#80, 0x0000000000000000FFFF#80⟩,
    ⟨"WRITE_BIT",   0x00000000000000000008#80, 0x0000000000000000FFFF#80⟩,
    ⟨"WRITE_BITS",  0x00000000000000000009#80, 0x000000000000000000FF#80⟩,
    ⟨"WRITE_BYTE",  0x0000000000000000000A#80, 0x0000000000000000FFFF#80⟩,
    ⟨"WRITE_BYTES", 0x0000000000000000000B#80, 0x0000000000000000FFFF#80⟩,
    ⟨"FLUSH",       0x0000000000000000000C#80, 0xFFFFFFFFFFFFFFFFFFFF#80⟩ ]

/-- The word is that row's command. -/
def TableRow.holds (r : TableRow) (w : CmdWord) : Bool := w &&& r.mask == r.pattern

/-- A command's row, by its mnemonic in spec/opcode_table.json. -/
def Instr.mnemonic : Instr → String
  | .readBit => "READ_BIT"
  | .readBits _ => "READ_BITS"
  | .readByte => "READ_BYTE"
  | .readBytes _ => "READ_BYTES"
  | .srcRead _ => "SRC_READ"
  | .writeBit _ => "WRITE_BIT"
  | .writeBits _ _ => "WRITE_BITS"
  | .writeByte _ => "WRITE_BYTE"
  | .writeBytes _ => "WRITE_BYTES"
  | .flush => "FLUSH"

/-! ### The assembler's spelling (R89) -/

/-- The textual form of a command, numbers in decimal; `dest` and `src` stand for the attached buffers. -/
def Instr.text : Instr → String
  | .readBit => "read_bit()"
  | .readBits n => "read_bits(" ++ toString n ++ ")"
  | .readByte => "read_byte()"
  | .readBytes count => "read_bytes(dest, " ++ toString count ++ ")"
  | .srcRead count => "attempt_read(dest, " ++ toString count ++ ")"
  | .writeBit v => "write_bit(" ++ toString v ++ ")"
  | .writeBits v n => "write_bits(" ++ toString v ++ ", " ++ toString n ++ ")"
  | .writeByte v => "write_byte(" ++ toString v ++ ")"
  | .writeBytes _ => "write_bytes(src)"
  | .flush => "flush()"

/-! ### The host's numbering of a word -/

/-- The command word whose low `nbits` bits are those of `w`, the bits above them zero. A command is one 80-bit word
(R73), numbered from bit 0 as spec/opcode_table.json numbers it; there are no bytes in memory to order (R57). -/
def tableWord (nbits w : Nat) : CmdWord := BitVec.ofNat 80 (w % 2 ^ nbits)

/-- The command the decoder reads from an instruction whose bits are `w`. -/
def decodeTableWord (nbits w : Nat) : Option Instr :=
  match decode (tableWord nbits w) with
  | .ok i => some i
  | .error _ => none

end Sys2Proof
end

