-- ==== Sys2Proof/Machine/State.lean ====
section
/-! DEFINITION. The machine's state and the types of its interfaces, as plain data. The block's own state is `rd` and
`wr` (10_state.md R20); the rest is the environment the block sees (R37), held beside it so that a step is a function
of the state alone, and the record of what the block did at its interfaces. -/

namespace Sys2Proof.Machine

/-! ### The accumulators -/

/-- One bit accumulator (R20 to R23). `stop` is the spec's `end` (a Lean keyword). Both offsets count bit positions from
bit 0 of `reg` and are naturals, as R23 allows. -/
structure Acc where
  reg   : Word
  start : Nat
  stop  : Nat
  deriving DecidableEq, Repr

/-- The Empty accumulator with a zero register: the value of each unit after reset (R38). -/
def Acc.empty : Acc := { reg := 0#64, start := 0, stop := 0 }

/-! ### The transports (20_memory.md R41, R42) -/

/-- The three answers of `SrcRead()` (R41). -/
inductive SrcAnswer where
  /-- `BYTE(b)`: one byte, and the source has advanced past it. -/
  | byte (b : Byte)
  /-- `END`: no more data. -/
  | ended
  /-- `FAIL(e)`: the transport's own error. -/
  | fail (e : TErr)
  deriving DecidableEq, Repr

/-- The two answers of `SnkWrite(b)` (R42). -/
inductive SnkAnswer where
  /-- `OK`: the byte has been appended to the sink's output. -/
  | ok
  /-- `FAIL(e)`: the transport's own error; nothing has been appended. -/
  | fail (e : TErr)
  deriving DecidableEq, Repr

/-- The byte source, by the answers it will give: first `answers`, in order, then `rest` for ever; with `rest = none` it
then never answers (R59). Every finite behaviour R41 allows is such a list, an `END` followed by more bytes among
them (R60, R126). -/
structure Source where
  answers : List SrcAnswer
  rest    : Option SrcAnswer
  deriving DecidableEq, Repr

/-- The byte sink, by the answers it will give, and the bytes it has accepted, in order (R42, R60). -/
structure Sink where
  answers : List SnkAnswer
  rest    : Option SnkAnswer
  out     : List Byte
  deriving DecidableEq, Repr

/-! ### Host buffers -/

/-- A host buffer (R78): bytes by index, in ONE canonical form: indexes strictly rising, and no byte listed that an
unlisted index reads as anyway. -/
abbrev Memory := List Host.Cell

/-! ### Accesses, responses, inputs -/

/-- One access of the block at one of its four interfaces (R40, R55). -/
inductive Access where
  /-- `SrcRead()` and its answer. -/
  | srcRead (a : SrcAnswer)
  /-- `SnkWrite(b)` and its answer. -/
  | snkWrite (b : Byte) (a : SnkAnswer)
  /-- `dest[i] <- b`. -/
  | destStore (i : Nat) (b : Byte)
  /-- `src[i]`, which read `b`. -/
  | srcLoad (i : Nat) (b : Byte)
  deriving DecidableEq, Repr

/-- A response's status (R160). -/
inductive Status where
  | ok
  | endOfStream
  | transportFailure
  | invalidArgument
  deriving DecidableEq, Repr

/-- What ends an operation in place of success (R15 `raise`, R160 to R163); only `TransportFailure` carries
information. -/
inductive Raise where
  /-- The source has no more bytes when a refill needs one (R161). -/
  | endOfStream
  /-- A transport reported an error (R162). -/
  | transportFailure (e : TErr)
  /-- A width, fit or capacity check failed (R163). -/
  | invalidArgument
  deriving DecidableEq, Repr

/-- A response (R71): its four parts. `bytes` are those written to `dest`; they reach the host through the buffer and
are no part of the response word (R83). -/
structure Response where
  status : Status
  data   : Word
  terr   : TErr
  bytes  : List Byte
  deriving DecidableEq, Repr

/-- A command as the host presents it: its word and the two host buffers attached to it (R78). A command that uses no
buffer leaves its buffers alone. -/
structure Command where
  word : CmdWord
  dest : Memory
  src  : Memory
  deriving DecidableEq, Repr

/-- What the host can do at the block's port. -/
inductive HostInput where
  /-- A command, presented when the block is idle (R50, R197). -/
  | command (c : Command)
  /-- A reset of the idle block (R190, R193). -/
  | reset
  /-- A command presented while another one is executing (R180, U1). -/
  | commandWhileBusy (c : Command)
  /-- A reset asserted between the acceptance of a command and its response (R193, U3). -/
  | resetWhileBusy
  deriving DecidableEq, Repr

/-! ### Why a step may have no next state -/

/-- The machine has no step because a transport does not answer (R59, R179, U2): a hang, which is no error kind. -/
inductive Fault where
  /-- A `SrcRead()` is never answered. Raised by every reader command that needs a byte. Safe: the block waits for ever. -/
  | sourceSilent
  /-- A `SnkWrite(b)` is never answered. Raised by every writer command with a byte to emit. Safe: the block waits for ever. -/
  | sinkSilent
  deriving DecidableEq, Repr

/-- The model gives the situation no meaning. -/
inductive Refusal where
  /-- An instruction that has no meaning yet, by its mnemonic. Raised by an arm of `exec` only. Safe. -/
  | notModelled (mnemonic : String)
  /-- A command presented while another is executing: "unsupported and undefined" (R180, U1). Raised by `step`. Safe. -/
  | commandWhileBusy
  /-- A reset during a command: outside the spec (R193, U3). Raised by `step`. Safe. -/
  | resetWhileBusy
  deriving DecidableEq, Repr

/-! ### The state -/

/-- The whole machine. `rd` and `wr` are the block (R20); the other fields are the environment (R37) and the ports. -/
structure State where
  /-- The reader unit's accumulator (R20, R24). -/
  rd        : Acc
  /-- The writer unit's accumulator (R20, R24). -/
  wr        : Acc
  /-- The byte source bound to the reader unit (R41, R194). -/
  source    : Source
  /-- The byte sink bound to the writer unit (R42, R194). -/
  sink      : Sink
  /-- The destination buffer of the current command (R55, R78). -/
  dest      : Memory
  /-- The source buffer of the current command (R55, R78). -/
  src       : Memory
  /-- Every access made so far, oldest first (R36, R51): the model's own observation, read by no rule. -/
  calls     : List Access
  /-- What the host has presented and the block has not yet accepted, oldest first. -/
  port      : List HostInput
  /-- Every response given so far, oldest first (R71). -/
  responses : List Response
  deriving DecidableEq, Repr

/-- The result of an operation inside a command: it is done with a value, or it raised an error (R15), or it hangs
(R59). The state is the one its steps have reached; a raised error undoes nothing. -/
inductive Run (α : Type) where
  | done (a : α) (s : State)
  | raised (e : Raise) (s : State)
  | hung (f : Fault)
  deriving DecidableEq, Repr

/-- Right after reset (R38, R190): both units Empty with a zero register, no command accepted and none answered.
The environment is the reference environment of R60 with nothing in it: a source without items, which answers `END`, a
sink without failures, which answers `OK`, and unlisted host buffers (DESIGN CHOICE, log entries 1 to 3; unsafe where a
claim rests on them). -/
def State.reset : State :=
  { rd := Acc.empty
    wr := Acc.empty
    source := { answers := [], rest := some .ended }
    sink := { answers := [], rest := some .ok, out := [] }
    dest := []
    src := []
    calls := []
    port := []
    responses := [] }

end Sys2Proof.Machine
end

