-- ==== Sys2Proof/Machine/Accumulator.lean ====
section
/-! DEFINITION. The micro-operations on one accumulator (40_accumulator.md R100 to R110): they read and write its three
registers and nothing else, and cannot fail. -/

namespace Sys2Proof.Machine

/-- `mask(n) = 2^n - 1` as a `W`-bit value (R101). -/
def mask (n : Nat) : Word := BitVec.ofNat 64 (2 ^ n - 1)

/-- `ceil(x/8)` on naturals, computed as R108 says: `(x + 7) >> 3`. -/
def ceilDiv8 (x : Nat) : Nat := (x + 7) / 8

/-- The number of valid bits, `end - start` (R15, R22). -/
def Acc.avail (a : Acc) : Nat := a.stop - a.start

/-- EXTRACT (R102). -/
def Acc.extract (a : Acc) (n : Nat) : Word := (a.reg >>> a.start) &&& mask n

/-- INSERT (R103). -/
def Acc.insert (a : Acc) (v : Word) (n : Nat) : Acc :=
  { a with reg := a.reg ||| ((v &&& mask n) <<< a.stop), stop := a.stop + n }

/-- Consume or emit `k` bits: `start <- start + k` (R123 step 5, R141). -/
def Acc.advance (a : Acc) (k : Nat) : Acc := { a with start := a.start + k }

/-- NORMALIZE (R105): the equality test first, the threshold test only when it fails. -/
def Acc.normalize (a : Acc) : Acc :=
  if a.start = a.stop then { reg := 0#64, start := 0, stop := 0 }
  else if Config.byteBits ≤ a.start then { reg := a.reg >>> a.start, start := 0, stop := a.stop - a.start }
  else a

/-- The pad step of FLUSH (R150 step 2): `end` up to the next byte boundary above `start`. -/
def Acc.pad (a : Acc) : Acc := { a with stop := a.start + Config.byteBits * ceilDiv8 (a.stop - a.start) }

/-- `content(a)` (R110): the pending bits as one number. -/
def Acc.content (a : Acc) : Word := (a.reg >>> a.start) &&& mask a.avail

end Sys2Proof.Machine
end

