-- ==== Sys2Proof/Machine/Flags.lean ====
section
/-! DEFINITION. The block has no flag, no condition code and no sticky error bit (10_state.md R34). What decides a command's
status before any side effect are the argument checks, in the order of 60_exceptions.md R165: width, fit, capacity. -/

namespace Sys2Proof.Machine

/-- Width check (R12, R123 step 1, R142): `0 < n < W`. -/
def widthOk (n : Nat) : Bool := decide (0 < n ∧ n < Config.W)

/-- Fit check (R142): `v < 2^n`. -/
def fitOk (v n : Nat) : Bool := decide (v < 2 ^ n)

/-- `deficit = n - (end - start)`, a signed integer (R108, R121). -/
def deficit (a : Acc) (n : Nat) : Int := (n : Int) - ((a.stop : Int) - (a.start : Int))

/-- The source bytes a complete refill would pull, `ceil(max(0, deficit) / 8)` (R122). -/
def refillBytes (a : Acc) (n : Nat) : Nat := ceilDiv8 (max 0 (deficit a n)).toNat

/-- The reader's capacity check (R122): `end + 8*k <= W`. -/
def readCapacityOk (a : Acc) (n : Nat) : Bool := decide (a.stop + Config.byteBits * refillBytes a n ≤ Config.W)

/-- The writer's capacity check (R143): `end + n <= W`. -/
def writeCapacityOk (a : Acc) (n : Nat) : Bool := decide (a.stop + n ≤ Config.W)

end Sys2Proof.Machine
end

