-- ==== Sys2Proof/Machine/Ops.lean ====
section
/-! DEFINITION. The named operations over the state: field updates, transport calls, host buffers, responses, raising an
error, accepting an input, reset. -/

namespace Sys2Proof.Machine

/-! ### Updates of one field -/

/-- Write the reader's accumulator. -/
def State.setRd (s : State) (a : Acc) : State := { s with rd := a }

/-- Write the writer's accumulator. -/
def State.setWr (s : State) (a : Acc) : State := { s with wr := a }

/-- The source after an answer. -/
def State.setSource (s : State) (q : Source) : State := { s with source := q }

/-- The sink after an answer. -/
def State.setSink (s : State) (k : Sink) : State := { s with sink := k }

/-- The destination buffer after a store. -/
def State.setDest (s : State) (m : Memory) : State := { s with dest := m }

/-- Record an access. -/
def State.log (s : State) (c : Access) : State := { s with calls := s.calls ++ [c] }

/-- Give a response (R71). -/
def State.respond (s : State) (r : Response) : State := { s with responses := s.responses ++ [r] }

/-! ### Operations in sequence -/

/-- Run `f` after `x`; an error raised by `x`, or a hang, ends both (R15: `f()?`). -/
def Run.bind (x : Run α) (f : α → State → Run β) : Run β :=
  match x with
  | .done a s => f a s
  | .raised e s => .raised e s
  | .hung h => .hung h

/-! ### Transport calls (R41, R42, R51) -/

/-- The source's next answer and the source after it; `none`: it never answers. -/
def Source.next (q : Source) : Option (SrcAnswer × Source) :=
  match q.answers with
  | a :: as => some (a, { q with answers := as })
  | [] =>
    match q.rest with
    | some a => some (a, q)
    | none => none

/-- The sink's next answer and the sink after it, before anything is appended; `none`: it never answers. -/
def Sink.next (k : Sink) : Option (SnkAnswer × Sink) :=
  match k.answers with
  | a :: as => some (a, { k with answers := as })
  | [] =>
    match k.rest with
    | some a => some (a, k)
    | none => none

/-- A byte the sink has answered for: `OK` has appended it, `FAIL` has appended nothing (R42). -/
def Sink.took (k : Sink) (b : Byte) : SnkAnswer → Sink
  | .ok => { k with out := k.out ++ [b] }
  | .fail _ => k

/-- `SrcRead()`: one request for exactly one byte (R41). -/
def srcRead (s : State) : Option (SrcAnswer × State) :=
  match s.source.next with
  | none => none
  | some (a, q) => some (a, (s.setSource q).log (.srcRead a))

/-- `SnkWrite(b)`: one request to write the one byte `b` (R42). -/
def snkWrite (b : Byte) (s : State) : Option (SnkAnswer × State) :=
  match s.sink.next with
  | none => none
  | some (a, k) => some (a, (s.setSink (k.took b a)).log (.snkWrite b a))

/-! ### The reference environment (R60) -/

/-- The reference source over a list of bytes and failures: each item once, then `END` for ever. -/
def Source.ofItems (items : List SrcAnswer) : Source := { answers := items, rest := some .ended }

/-- The reference source over a list of bytes. -/
def Source.ofBytes (bs : List Byte) : Source := Source.ofItems (bs.map .byte)

/-- The answer of the reference sink to its call number `c`, given its map of failures. -/
def SnkAnswer.ofMap (failures : List (Nat × TErr)) (c : Nat) : SnkAnswer :=
  match failures.lookup c with
  | some e => .fail e
  | none => .ok

/-- The reference sink with the given failures among its first `n` calls; it accepts every later byte. -/
def Sink.ofFailures (n : Nat) (failures : List (Nat × TErr)) : Sink :=
  { answers := (List.range n).map (SnkAnswer.ofMap failures), rest := some .ok, out := [] }

/-! ### Host buffers (R55, R78) -/

/-- What an index that is not listed reads as (DESIGN CHOICE, log entry 2). -/
def Memory.fill : Byte := 0#8

/-- One byte of a buffer. -/
def Memory.read : Memory → Nat → Byte
  | [], _ => Memory.fill
  | (k, v) :: t, a => if a = k then v else Memory.read t a

/-- The list with `b` at `a`, unless `b` is what an unlisted index reads as. -/
def Memory.cons (a : Nat) (b : Byte) (t : Memory) : Memory := if b = Memory.fill then t else (a, b) :: t

/-- Store one byte, keeping the canonical form. -/
def Memory.write : Memory → Nat → Byte → Memory
  | [], a, b => Memory.cons a b []
  | (k, v) :: t, a, b =>
    if a < k then Memory.cons a b ((k, v) :: t)
    else if a = k then Memory.cons a b t
    else (k, v) :: Memory.write t a b

/-- Every index listed is at least `lo`, the indexes rise strictly, and no listed byte is the one an unlisted index
reads as. -/
def Memory.wfFrom : Nat → Memory → Bool
  | _, [] => true
  | lo, (k, v) :: t => decide (lo ≤ k) && decide (v ≠ Memory.fill) && Memory.wfFrom (k + 1) t

/-- The canonical form. -/
def Memory.wf (m : Memory) : Bool := Memory.wfFrom 0 m

/-- The bytes at indexes `0` to `n - 1`. -/
def Memory.prefixBytes (m : Memory) (n : Nat) : List Byte := (List.range n).map (Memory.read m)

/-- The buffer that holds the given bytes from index `i` on and nothing else listed. -/
def Memory.ofBytesFrom : Nat → List Byte → Memory
  | _, [] => []
  | i, b :: bs => Memory.cons i b (Memory.ofBytesFrom (i + 1) bs)

/-- The buffer that holds the given bytes from index 0 on. -/
def Memory.ofBytes (bs : List Byte) : Memory := Memory.ofBytesFrom 0 bs

/-! ### Raising an error, and answering the command (R71, R82, R160, R169, R170)

An error is no trap: it selects the status of the response and saves nothing; there is no return from it (R170, R171).
These two operations are the one place where the outcome of a command's operation becomes its response. -/

/-- The status an error selects (R160 to R163). -/
def Raise.status : Raise → Status
  | .endOfStream => .endOfStream
  | .transportFailure _ => .transportFailure
  | .invalidArgument => .invalidArgument

/-- `TERR`: the transport's error value, unchanged, or 0 (R84). -/
def Raise.terr : Raise → TErr
  | .transportFailure e => e
  | .endOfStream => 0#32
  | .invalidArgument => 0#32

/-- The `OK` response with the given data (R82). -/
def Response.okay (data : Word) (bytes : List Byte) : Response :=
  { status := .ok, data := data, terr := 0#32, bytes := bytes }

/-- The response to a command that an error ended, with what it reports in `DATA` (R82, R168). -/
def Response.error (e : Raise) (data : Word) (bytes : List Byte) : Response :=
  { status := e.status, data := data, terr := e.terr, bytes := bytes }

/-- The response to a command that moves no host buffer: `DATA` is its result, and 0 after an error (R82). -/
def complete (r : Run Word) : Host.Outcome State Fault Refusal :=
  match r with
  | .done d s => .next (s.respond (Response.okay d []))
  | .raised e s => .next (s.respond (Response.error e 0#64 []))
  | .hung f => .fault f

/-- What a multi-byte command has to report: how many elements it finished, and the error that ended it, if any. -/
abbrev Progress := Nat × Option Raise

/-- The response of a multi-byte command that reports `done` elements and `bytes` stored (R82, R166). `DATA` has 64 bits, so a count of
`2^64` or more, which no word can carry, is reported modulo `2^64`: the spec need not give such a command a meaning (R88), and this
one is the model's own (DESIGN CHOICE, log entry 14). -/
def Response.ofProgress (p : Progress) (bytes : List Byte) : Response :=
  match p.2 with
  | none => Response.okay (BitVec.ofNat 64 p.1) bytes
  | some e => Response.error e (BitVec.ofNat 64 p.1) bytes

/-- The response of a multi-byte reader command: `DATA = done`, and the `done` bytes stored in `dest` (R82, R83). -/
def completeRead (r : Run Progress) : Host.Outcome State Fault Refusal :=
  match r with
  | .done p s => .next (s.respond (Response.ofProgress p (s.dest.prefixBytes p.1)))
  | .raised e s => .next (s.respond (Response.error e 0#64 []))
  | .hung f => .fault f

/-- The response of the multi-byte writer command: `DATA = done` (R82). -/
def completeWrite (r : Run Progress) : Host.Outcome State Fault Refusal :=
  match r with
  | .done p s => .next (s.respond (Response.ofProgress p []))
  | .raised e s => .next (s.respond (Response.error e 0#64 []))
  | .hung f => .fault f

/-! ### The response word (R80, R81) -/

/-- Status codes (R81). -/
def Status.code : Status → BitVec 2
  | .ok => 0#2
  | .endOfStream => 1#2
  | .transportFailure => 2#2
  | .invalidArgument => 3#2

/-- `RSP[103:0]` (R80): `DATA`, `TERR`, `RSV = 0`, `STATUS`. -/
def Response.word (r : Response) : RspWord := r.data ++ r.terr ++ 0#6 ++ r.status.code

/-! ### The command port (R50, R78, R86, R190) -/

/-- Accept a command: it leaves the port and its buffers are attached (R78). -/
def State.accept (s : State) (c : Command) (later : List HostInput) : State :=
  { s with port := later, dest := c.dest, src := c.src }

/-- An invalid word executes nothing: `InvalidArgument`, `DATA = 0`, `TERR = 0` (R86). -/
def State.answerInvalidWord (s : State) : State := s.respond (Response.error .invalidArgument 0#64 [])

/-- Reset of an idle block: both units Empty with zero registers, and nothing else (R190 to R192). A binding of transports lasts until
the next reset (R194), and what is bound after that one the spec leaves open: here the same source and sink stay bound, where they
stand (DESIGN CHOICE, log entry 15). -/
def State.resetBlock (s : State) (later : List HostInput) : State :=
  { s with rd := Acc.empty, wr := Acc.empty, port := later }

/-- The host presents a command word as the very next input, with the buffers that are attached now. -/
def State.present (s : State) (w : CmdWord) : State :=
  { s with port := .command { word := w, dest := s.dest, src := s.src } :: s.port }

end Sys2Proof.Machine
end

