-- ==== Sys2Proof/Machine/Operands.lean ====
section
/-! DEFINITION. The operand forms: a value in the register's width (R76, R77), a byte as a field and a field as a byte,
and the elements of the two host buffers (20_memory.md R55, 30_encoding.md R78). -/

namespace Sys2Proof.Machine

/-- A write command's value as a `W`-bit value (R76). The fit check has passed, so nothing is lost. -/
def valueOperand (v : Nat) : Word := BitVec.ofNat 64 v

/-- A byte as a field value of width 8, zero-extended (R103, R121, R147). -/
def byteOperand (b : Byte) : Word := b.setWidth 64

/-- The low byte of a field value: a field of width 8 as the byte it is (R128, R141). -/
def lowByte (x : Word) : Byte := x.setWidth 8

/-- A boolean result: 1 for true, 0 for false (R77, R82). -/
def boolOperand (b : Bool) : Word := if b then 1#64 else 0#64

/-- `dest[i] <- b` (R55). -/
def storeDest (i : Nat) (b : Byte) (s : State) : State :=
  (s.setDest (s.dest.write i b)).log (.destStore i b)

/-- `src[i]` (R55): the byte, and the state in which the access is recorded. -/
def loadSrc (i : Nat) (s : State) : Byte × State :=
  (s.src.read i, s.log (.srcLoad i (s.src.read i)))

end Sys2Proof.Machine
end

