-- ==== Sys2Proof/Machine/Reader.lean ====
section
/-! DEFINITION. The reader unit: REFILL and the five reader commands (41_reader.md). -/

namespace Sys2Proof.Machine

/-! ### REFILL (R121) -/

/-- The loop of REFILL with the signed `deficit` it carries. The first argument only bounds the number of rounds: a
round lowers `deficit` by 8, so a bound of at least `deficit` is never reached. -/
def refillLoop : Nat → Int → State → Run Unit
  | 0, _, s => .done () s
  | rounds + 1, d, s =>
    if 0 < d then
      match srcRead s with
      | none => .hung .sourceSilent
      | some (.byte b, t) => refillLoop rounds (d - 8) (t.setRd (t.rd.insert (byteOperand b) 8))
      | some (.ended, t) => .raised .endOfStream t
      | some (.fail e, t) => .raised (.transportFailure e) t
    else .done () s

/-- REFILL (R121): pull bytes until the reader holds at least `n` valid bits. -/
def refill (n : Nat) (s : State) : Run Unit := refillLoop (deficit s.rd n).toNat (deficit s.rd n) s

/-! ### The field read that the reader commands share (R72, R123 steps 1 to 6) -/

/-- Take a field of `n` bits out of the reader's accumulator (R123 steps 4 to 6). -/
def takeField (n : Nat) (s : State) : Run Word :=
  .done (s.rd.extract n) (s.setRd (s.rd.advance n).normalize)

/-- `read_bits(n)` up to its result (R123). -/
def readField (n : Nat) (s : State) : Run Word :=
  if widthOk n = false then .raised .invalidArgument s
  else if readCapacityOk s.rd n = false then .raised .invalidArgument s
  else (refill n s).bind fun _ t => takeField n t

/-! ### The byte loop that READ_BYTES and SRC_READ share (R129) -/

/-- `read_byte` and store, `todo` more times, `done` bytes having been stored: each byte is stored before the next is
attempted, and the first error ends the loop (R55, R129, R166). -/
def readBytesLoop : Nat → Nat → State → Run Progress
  | 0, done, s => .done (done, none) s
  | todo + 1, done, s =>
    match readField 8 s with
    | .done x t => readBytesLoop todo (done + 1) (storeDest done (lowByte x) t)
    | .raised e t => .done (done, some e) t
    | .hung f => .hung f

/-- The status mapping of the byte-stream adapter (R131): a clean end is success with a short count. -/
def adapterStatus : Progress → Progress
  | (done, some .endOfStream) => (done, none)
  | p => p

/-! ### The commands -/

/-- `READ_BIT` (R127): `read_bits(1) != 0`. -/
def execReadBit (s : State) : Host.Outcome State Fault Refusal :=
  complete ((readField 1 s).bind fun r t => .done (boolOperand (r != 0#64)) t)

/-- `READ_BITS` (R123). -/
def execReadBits (n : Nat) (s : State) : Host.Outcome State Fault Refusal :=
  complete (readField n s)

/-- `READ_BYTE` (R128): `read_bits(8)`. -/
def execReadByte (s : State) : Host.Outcome State Fault Refusal :=
  complete (readField 8 s)

/-- `READ_BYTES` (R129, R130). -/
def execReadBytes (count : Nat) (s : State) : Host.Outcome State Fault Refusal :=
  completeRead (readBytesLoop count 0 s)

/-- `SRC_READ` (R131): `read_bytes` with the adapter's status mapping. -/
def execSrcRead (count : Nat) (s : State) : Host.Outcome State Fault Refusal :=
  completeRead ((readBytesLoop count 0 s).bind fun p t => .done (adapterStatus p) t)

end Sys2Proof.Machine
end

