-- ==== Sys2Proof/Machine/Writer.lean ====
section
/-! DEFINITION. The writer unit: DRAIN and the five writer commands (42_writer.md). -/

namespace Sys2Proof.Machine

/-! ### DRAIN (R141) -/

/-- The loop of DRAIN. The first argument only bounds the number of rounds: a round lowers `avail` by 8, so a bound
of at least `avail` is never reached. A failing call leaves its byte and everything after it staged (R145). -/
def drainLoop : Nat → State → Run Unit
  | 0, s => .done () s
  | rounds + 1, s =>
    if Config.byteBits ≤ s.wr.avail then
      match snkWrite (lowByte (s.wr.extract 8)) s with
      | none => .hung .sinkSilent
      | some (.ok, t) => drainLoop rounds (t.setWr (t.wr.advance 8).normalize)
      | some (.fail e, t) => .raised (.transportFailure e) t
    else .done () s

/-- DRAIN (R141): emit every complete byte. -/
def drain (s : State) : Run Unit := drainLoop s.wr.avail s

/-! ### The field write that the writer commands share (R72, R144) -/

/-- `write_bits(v, n)` (R144): the checks of R142 and R143, INSERT, DRAIN. `DATA` is 0. -/
def writeField (v n : Nat) (s : State) : Run Word :=
  if widthOk n = false then .raised .invalidArgument s
  else if fitOk v n = false then .raised .invalidArgument s
  else if writeCapacityOk s.wr n = false then .raised .invalidArgument s
  else (drain (s.setWr (s.wr.insert (valueOperand v) n))).bind fun _ t => .done 0#64 t

/-! ### The element loop of WRITE_BYTES (R148) -/

/-- `write_byte(src[done])` and on, `todo` more elements, `done` having been written. The element's capacity check comes
before its byte is read, because an `InvalidArgument` touches no host buffer (R163, R165; DEDUCED, log entry 5). -/
def writeBytesLoop : Nat → Nat → State → Run Progress
  | 0, done, s => .done (done, none) s
  | todo + 1, done, s =>
    if writeCapacityOk s.wr 8 = false then .done (done, some .invalidArgument) s
    else
      match writeField (loadSrc done s).1.toNat 8 (loadSrc done s).2 with
      | .done _ t => writeBytesLoop todo (done + 1) t
      | .raised e t => .done (done, some e) t
      | .hung f => .hung f

/-! ### The commands -/

/-- `WRITE_BIT` (R146): `write_bits(v, 1)`. -/
def execWriteBit (v : Nat) (s : State) : Host.Outcome State Fault Refusal :=
  complete (writeField v 1 s)

/-- `WRITE_BITS` (R144). -/
def execWriteBits (v n : Nat) (s : State) : Host.Outcome State Fault Refusal :=
  complete (writeField v n s)

/-- `WRITE_BYTE` (R147): `write_bits(v, 8)`. -/
def execWriteByte (v : Nat) (s : State) : Host.Outcome State Fault Refusal :=
  complete (writeField v 8 s)

/-- `WRITE_BYTES` (R148, R149). -/
def execWriteBytes (count : Nat) (s : State) : Host.Outcome State Fault Refusal :=
  completeWrite (writeBytesLoop count 0 s)

/-- `FLUSH` (R150): pad to the next byte boundary, then DRAIN. -/
def execFlush (s : State) : Host.Outcome State Fault Refusal :=
  complete ((drain (s.setWr s.wr.pad)).bind fun _ t => .done 0#64 t)

end Sys2Proof.Machine
end

