-- ==== Sys2Proof/Machine/Dispatch.lean ====
section
/-! DEFINITION. One arm per command. -/

namespace Sys2Proof.Machine

/-- The effect of a command on the machine that has accepted it. -/
def exec (i : Instr) (s : State) : Host.Outcome State Fault Refusal :=
  match i with
  | .readBit => Sys2Proof.Machine.execReadBit s
  | .readBits n => Sys2Proof.Machine.execReadBits n s
  | .readByte => Sys2Proof.Machine.execReadByte s
  | .readBytes count => Sys2Proof.Machine.execReadBytes count s
  | .srcRead count => Sys2Proof.Machine.execSrcRead count s
  | .writeBit v => Sys2Proof.Machine.execWriteBit v s
  | .writeBits v n => Sys2Proof.Machine.execWriteBits v n s
  | .writeByte v => Sys2Proof.Machine.execWriteByte v s
  | .writeBytes count => Sys2Proof.Machine.execWriteBytes count s
  | .flush => Sys2Proof.Machine.execFlush s

end Sys2Proof.Machine
end

