-- ==== Sys2Proof/Machine/Step.lean ====
section
/-! DEFINITION. One step: the block takes the oldest input at its port. There is no program counter and nothing is fetched
from a memory (10_state.md R33); the order of commands is the host's. -/

namespace Sys2Proof.Machine

/-- One step (R36, R50). With nothing at the port the block is idle and holds everything (R32, R178). A command runs to its
response; a word that is no command is answered `InvalidArgument` (R86); a reset empties both units (R190). -/
def step (s : State) : Host.Outcome State Fault Refusal :=
  match s.port with
  | [] => .next s
  | .command c :: later =>
    match decode c.word with
    | .ok i => exec i (s.accept c later)
    | .error _ => .next (s.accept c later).answerInvalidWord
  | .reset :: later => .next (s.resetBlock later)
  | .commandWhileBusy _ :: _ => .refused .commandWhileBusy
  | .resetWhileBusy :: _ => .refused .resetWhileBusy

/-- The machine whose next step runs the command with bits `w`: the host presents it next (log entry 4). -/
def State.withFetchWord (s : State) (nbits w : Nat) : State := s.present (tableWord nbits w)

end Sys2Proof.Machine
end

