-- ==== Sys2Proof/Safety.lean ====
section
/-! DEFINITION. What counts as a good state and a safe run: the invariants of 10_state.md, the state classes of R31, the premises
on the environment and the host (70_reset_and_hazards.md), and the bit stream in whose terms results are stated
(20_memory.md R45 to R48). The end of a session is R201. -/

namespace Sys2Proof.Machine

/-! ### Bits and streams (R45, R46) -/

/-- The bits of a byte in stream order: bit 0 first (R45). -/
def byteBits (b : Byte) : List Bool := (List.range 8).map b.getLsbD

/-- The bit stream of a byte sequence (R46): stream bit `8k + j` is bit `j` of byte `k`. -/
def bytesBits (bs : List Byte) : List Bool := bs.flatMap byteBits

/-- The bits of a field of width `n` with value `v`, low-order bit first (R45). -/
def fieldBits (v n : Nat) : List Bool := (List.range n).map v.testBit

/-- The value of a field from its stream bits (R46): the sum of `S[p+i] * 2^i`. -/
def bitsValue : List Bool → Nat
  | [] => 0
  | b :: bs => (if b then 1 else 0) + 2 * bitsValue bs

/-- The pending bits of an accumulator in stream order: `reg[start]` is the next one (R21, R22). -/
def Acc.bits (a : Acc) : List Bool := (List.range a.avail).map fun i => a.reg.getLsbD (a.start + i)

/-! ### Invariants of one accumulator -/

/-- INV-ORDER (R26). -/
abbrev Acc.Ordered (a : Acc) : Prop := a.start ≤ a.stop ∧ a.stop ≤ Config.W

/-- INV-CLEAN (R27): every bit of `reg` at a position at or above `end` is zero. -/
abbrev Acc.Clean (a : Acc) : Prop := a.reg >>> a.stop = 0#64

/-- What every NORMALIZE leaves (R106): Empty, or fewer than eight spent bits and something pending. -/
abbrev Acc.Normal (a : Acc) : Prop := a = Acc.empty ∨ (a.start ≤ 7 ∧ a.start < a.stop)

/-! ### State classes (R31): predicates over the registers, not stored state -/

/-- Empty. -/
abbrev Acc.IsEmpty (a : Acc) : Prop := a.start = 0 ∧ a.stop = 0

/-- Partial, for a request of `n` bits; the writer's class is the one for 8 bits. -/
abbrev Acc.IsPartial (a : Acc) (n : Nat) : Prop := 0 < a.avail ∧ a.avail < n

/-- Ready, for a request of `n` bits; the writer's class is the one for 8 bits. -/
abbrev Acc.IsReady (a : Acc) (n : Nat) : Prop := n ≤ a.avail

/-! ### Invariants between commands -/

/-- The reader between commands (R26, R27, R28 a, b, e). -/
abbrev ReaderInv (a : Acc) : Prop := a.Ordered ∧ a.Clean ∧ a.Normal ∧ a.avail ≤ 62

/-- The writer between commands (R26, R27, R29 a, e). -/
abbrev WriterInv (a : Acc) : Prop := a.Ordered ∧ a.Clean ∧ a.start = 0

/-- The buffers a host input brings are in canonical form. -/
def HostInput.wf : HostInput → Bool
  | .command c => c.dest.wf && c.src.wf
  | .commandWhileBusy c => c.dest.wf && c.src.wf
  | .reset => true
  | .resetWhileBusy => true

/-- The host buffers, those still at the port among them, are in canonical form. -/
abbrev BuffersInv (s : State) : Prop :=
  s.dest.wf = true ∧ s.src.wf = true ∧ ∀ x ∈ s.port, x.wf = true

/-- The machine's invariant: every step keeps it. -/
abbrev Inv (s : State) : Prop := ReaderInv s.rd ∧ WriterInv s.wr ∧ BuffersInv s

/-! ### Premises on the environment and the host -/

/-- Every transport call is answered (R59, R207). -/
abbrev Answering (s : State) : Prop := s.source.rest ≠ none ∧ s.sink.rest ≠ none

/-- The input is one the spec gives a meaning: it was presented to an idle block (R193, R197). -/
def HostInput.proper : HostInput → Bool
  | .command _ => true
  | .reset => true
  | .commandWhileBusy _ => false
  | .resetWhileBusy => false

/-- A safe run starts here: a good state, transports that answer, a host that waits for each response. -/
abbrev SafeStart (s : State) : Prop := Inv s ∧ Answering s ∧ ∀ x ∈ s.port, x.proper = true

/-- The source's next answers are exactly these bytes, and it is then `q'` (R41). -/
def Source.Delivers : Source → List Byte → Source → Prop
  | q, [], q' => q' = q
  | q, b :: bs, q' => ∃ q1, q.next = some (.byte b, q1) ∧ Source.Delivers q1 bs q'

/-- The sink accepts exactly these bytes next, and it is then `k'` (R42). -/
def Sink.Accepts : Sink → List Byte → Sink → Prop
  | k, [], k' => k' = k
  | k, b :: bs, k' => ∃ k1, k.next = some (.ok, k1) ∧ Sink.Accepts (k1.took b .ok) bs k'

/-- The error a source's answer raises in a refill, if it is no byte (R121). -/
def SrcAnswer.raises : SrcAnswer → Option Raise
  | .byte _ => none
  | .ended => some .endOfStream
  | .fail e => some (.transportFailure e)

/-- The source is exhausted and stays so (R126, U12). -/
abbrev Source.Exhausted (q : Source) : Prop := q.answers = [] ∧ q.rest = some .ended

/-- The sink accepts every byte. -/
abbrev Sink.Willing (k : Sink) : Prop := k.answers = [] ∧ k.rest = some .ok

/-! ### Reading the record of accesses -/

/-- The answer of a source call. -/
def Access.srcAnswer : Access → Option SrcAnswer
  | .srcRead a => some a
  | .snkWrite _ _ | .destStore _ _ | .srcLoad _ _ => none

/-- The byte a source call delivered. -/
def Access.pulled : Access → Option Byte
  | .srcRead (.byte b) => some b
  | .srcRead .ended | .srcRead (.fail _) | .snkWrite _ _ | .destStore _ _ | .srcLoad _ _ => none

/-- The byte a sink call appended. -/
def Access.emitted : Access → Option Byte
  | .snkWrite b .ok => some b
  | .snkWrite _ (.fail _) | .srcRead _ | .destStore _ _ | .srcLoad _ _ => none

/-- A store to the destination buffer. -/
def Access.stored : Access → Option (Nat × Byte)
  | .destStore i b => some (i, b)
  | .srcRead _ | .snkWrite _ _ | .srcLoad _ _ => none

/-- A read of the source buffer. -/
def Access.loaded : Access → Option (Nat × Byte)
  | .srcLoad i b => some (i, b)
  | .srcRead _ | .snkWrite _ _ | .destStore _ _ => none

/-- The transport's error value that a call was answered with (R41, R42). -/
def Access.failure : Access → Option TErr
  | .srcRead (.fail e) => some e
  | .snkWrite _ (.fail e) => some e
  | .srcRead (.byte _) | .srcRead .ended | .snkWrite _ .ok | .destStore _ _ | .srcLoad _ _ => none

/-- A transport call. -/
def Access.isTransport : Access → Bool
  | .srcRead _ => true
  | .snkWrite _ _ => true
  | .destStore _ _ => false
  | .srcLoad _ _ => false

/-- The accesses of a byte read that receives one byte for each element (R55, R129): each element is stored before the next
byte is asked for. -/
def readStoreOrder : Nat → List Byte → List Byte → List Access
  | i, b :: bs, x :: xs => .srcRead (.byte b) :: .destStore i x :: readStoreOrder (i + 1) bs xs
  | _, [], _ => []
  | _, _ :: _, [] => []

/-- The accesses of a byte write that emits one byte for each element (R55, R148): each element is read, and its byte
emitted, before the next is read. -/
def loadWriteOrder : Nat → List Byte → List Byte → List Access
  | i, x :: xs, b :: bs => .srcLoad i x :: .snkWrite b .ok :: loadWriteOrder (i + 1) xs bs
  | _, [], _ => []
  | _, _ :: _, [] => []

/-! ### Kinds of commands -/

/-- The commands of the reader unit (R70). -/
def readerCommand : Instr → Bool
  | .readBit | .readBits _ | .readByte | .readBytes _ | .srcRead _ => true
  | .writeBit _ | .writeBits _ _ | .writeByte _ | .writeBytes _ | .flush => false

/-- The commands of the writer unit (R70). -/
def writerCommand : Instr → Bool
  | .writeBit _ | .writeBits _ _ | .writeByte _ | .writeBytes _ | .flush => true
  | .readBit | .readBits _ | .readByte | .readBytes _ | .srcRead _ => false

/-- The width of the one field a single-field read takes (R72). -/
def fieldReadWidth : Instr → Option Nat
  | .readBit => some 1
  | .readBits n => some n
  | .readByte => some 8
  | .readBytes _ | .srcRead _ | .writeBit _ | .writeBits _ _ | .writeByte _ | .writeBytes _ | .flush => none

/-- The value and the width of the one field a single-field write inserts (R72). -/
def fieldWriteOperands : Instr → Option (Nat × Nat)
  | .writeBit v => some (v, 1)
  | .writeBits v n => some (v, n)
  | .writeByte v => some (v, 8)
  | .writeBytes _ | .flush | .readBit | .readBits _ | .readByte | .readBytes _ | .srcRead _ => none

/-- The count of a multi-byte read. -/
def byteReadCount : Instr → Option Nat
  | .readBytes count => some count
  | .srcRead count => some count
  | .readBit | .readBits _ | .readByte | .writeBit _ | .writeBits _ _ | .writeByte _ | .writeBytes _ | .flush => none

/-- The table of R164, with `OK` (R160): the statuses a command can be answered with, an invalid word apart. -/
def commandStatuses : Op → List Status
  | .readBits => [.ok, .endOfStream, .transportFailure, .invalidArgument]
  | .readBit | .readByte | .readBytes => [.ok, .endOfStream, .transportFailure]
  | .srcRead | .flush => [.ok, .transportFailure]
  | .writeBit | .writeBits | .writeByte | .writeBytes => [.ok, .transportFailure, .invalidArgument]

/-! ### Sequences of commands -/

/-- The outcome with its next state, if there is one, changed by `f`. -/
def mapNext (f : State → State) : Host.Outcome State Fault Refusal → Host.Outcome State Fault Refusal
  | .next t => .next (f t)
  | .fault h => .fault h
  | .refused r => .refused r

/-- The commands executed one after another, each to its response (R50). -/
def execAll : List Instr → State → Host.Outcome State Fault Refusal
  | [], s => .next s
  | i :: is, s =>
    match exec i s with
    | .next t => execAll is t
    | .fault f => .fault f
    | .refused r => .refused r

/-- How many bits a command takes out of the reader's stream, by the response it got (R47): its field if it was answered `OK`
(R123, R124); the bytes it stored (R129, R131). A writer command takes none. -/
def takenBits (i : Instr) (r : Response) : Nat :=
  match fieldReadWidth i with
  | some n => if r.status = .ok then n else 0
  | none => 8 * r.bytes.length

/-! ### The end of a session (70_reset_and_hazards.md R201) -/

/-- The bits a command adds to the writer's stream, by the response it got: its field unless it was rejected (R142 to R145); the
elements it took, the one a sink failure left staged among them (R148, R149); a flush's padding, by the bits before it (R150).
A reader command adds none (R24). -/
def addedBits (src : Memory) (before : List Bool) (i : Instr) (r : Response) : List Bool :=
  match i with
  | .writeBit v => if r.status = .invalidArgument then [] else fieldBits v 1
  | .writeBits v n => if r.status = .invalidArgument then [] else fieldBits v n
  | .writeByte v => if r.status = .invalidArgument then [] else fieldBits v 8
  | .writeBytes _ => bytesBits (src.prefixBytes (if r.status = .transportFailure then r.data.toNat + 1 else r.data.toNat))
  | .flush => List.replicate (8 * ceilDiv8 before.length - before.length) false
  | .readBit | .readBits _ | .readByte | .readBytes _ | .srcRead _ => []

/-- The writer's stream (R48) after commands that got the given responses, with the bits before them. -/
def writtenStream (src : Memory) : List Bool → List (Instr × Response) → List Bool
  | before, [] => before
  | before, p :: ps => writtenStream src (before ++ addedBits src before p.1 p.2) ps

/-- A write session is complete (R201): the last writer command issued is a `flush` that was answered `OK`. -/
abbrev SessionComplete (ran : List (Instr × Response)) : Prop :=
  ((ran.filter fun p => writerCommand p.1).getLast?.map fun p => (p.1, p.2.status)) = some (.flush, .ok)

/-- The end-of-run predicate of R201 for a program that writes, run from `s` to `t`: every response had the expected status, and
`wr = (0, 0, 0)` after a final `FLUSH`. -/
abbrev EndOfRun (prog : List Instr) (expected : List Status) (s t : State) : Prop :=
  t.responses.map (·.status) = s.responses.map (·.status) ++ expected ∧
  (prog.filter writerCommand).getLast? = some .flush ∧
  t.wr = Acc.empty

end Sys2Proof.Machine
end

