-- ==== Sys2Proof/Certificates/Slice0/Obligations.lean ====
section
/-! DEFINITION. The statements about the model, for the provers. Each docstring names the rule of spec/ it formalises. -/

section
open Sys2Proof Sys2Proof.Machine

/-! ### Encoding (30_encoding.md) -/

/-- R91: the twelve worked command words decode to their commands and are what those commands encode to. -/
def Obligations.WorkedCommandWords : Prop :=
  (decode 0x00000000000000000001#80 = .ok .readBit ∧ encode .readBit = 0x00000000000000000001#80) ∧
  (decode 0x00000000000000000302#80 = .ok (.readBits 3) ∧ encode (.readBits 3) = 0x00000000000000000302#80) ∧
  (decode 0x00000000000000003F02#80 = .ok (.readBits 63) ∧ encode (.readBits 63) = 0x00000000000000003F02#80) ∧
  (decode 0x00000000000000000003#80 = .ok .readByte ∧ encode .readByte = 0x00000000000000000003#80) ∧
  (decode 0x00000000000000040004#80 = .ok (.readBytes 4) ∧ encode (.readBytes 4) = 0x00000000000000040004#80) ∧
  (decode 0x00000000000000100005#80 = .ok (.srcRead 16) ∧ encode (.srcRead 16) = 0x00000000000000100005#80) ∧
  (decode 0x00000000000000010008#80 = .ok (.writeBit 1) ∧ encode (.writeBit 1) = 0x00000000000000010008#80) ∧
  (decode 0x00000000000000050309#80 = .ok (.writeBits 5 3) ∧ encode (.writeBits 5 3) = 0x00000000000000050309#80) ∧
  (decode 0x0000000000000ABC0C09#80 = .ok (.writeBits 0xABC 12) ∧ encode (.writeBits 0xABC 12) = 0x0000000000000ABC0C09#80) ∧
  (decode 0x00000000000000FF000A#80 = .ok (.writeByte 0xFF) ∧ encode (.writeByte 0xFF) = 0x00000000000000FF000A#80) ∧
  (decode 0x0000000000000003000B#80 = .ok (.writeBytes 3) ∧ encode (.writeBytes 3) = 0x0000000000000003000B#80) ∧
  (decode 0x0000000000000000000C#80 = .ok .flush ∧ encode .flush = 0x0000000000000000000C#80)

/-- R73 to R76, R88: decoding the word of a well-formed command gives the command back, with every operand. -/
def Obligations.DecodeOfEncode : Prop :=
  ∀ i : Instr, i.wf = true → decode (encode i) = .ok i

/-- R74 to R76, R79: a word that decodes is the word of the command it decodes to, and that command is well-formed: every
command has one word. -/
def Obligations.EncodeOfDecode : Prop :=
  ∀ (w : CmdWord) (i : Instr), decode w = .ok i → i.wf = true ∧ encode i = w

/-- 30_encoding.md, opening paragraph, and spec/opcode_table.json: a word is a row's command exactly when it matches that
row's mask and pattern, and a word that matches no row is invalid. -/
def Obligations.OpcodeTableIsTheDecoder : Prop :=
  ∀ w : CmdWord,
    (∀ i, decode w = .ok i → ∀ r ∈ opcodeTable, r.holds w = true ↔ r.mnemonic = i.mnemonic) ∧
    ((∃ e, decode w = .error e) ↔ ∀ r ∈ opcodeTable, r.holds w = false)

/-- R86: the four tests, the first that fires decides; otherwise the command of R75 with the operands of R76; and an invalid
word executes nothing. The fields are written as arithmetic on the word's number. -/
def Obligations.DecodingTestsInOrder : Prop :=
  ∀ (w : CmdWord) (op rsv n arg : Nat),
    op = w.toNat % 16 → rsv = w.toNat / 16 % 16 → n = w.toNat / 256 % 256 → arg = w.toNat / 65536 →
    (rsv ≠ 0 → decode w = .error .reservedField) ∧
    (rsv = 0 → op ∈ [0x0, 0x6, 0x7, 0xD, 0xE, 0xF] → decode w = .error .reservedCode) ∧
    (rsv = 0 → op ∈ [0x1, 0x3, 0x4, 0x5, 0x8, 0xA, 0xB, 0xC] → n ≠ 0 → decode w = .error .unusedN) ∧
    (rsv = 0 → op ∈ [0x1, 0x3, 0xC] → n = 0 → arg ≠ 0 → decode w = .error .unusedArg) ∧
    (rsv = 0 → op = 0x2 → arg ≠ 0 → decode w = .error .unusedArg) ∧
    (rsv = 0 → op = 0x1 → n = 0 → arg = 0 → decode w = .ok .readBit) ∧
    (rsv = 0 → op = 0x2 → arg = 0 → decode w = .ok (.readBits n)) ∧
    (rsv = 0 → op = 0x3 → n = 0 → arg = 0 → decode w = .ok .readByte) ∧
    (rsv = 0 → op = 0x4 → n = 0 → decode w = .ok (.readBytes arg)) ∧
    (rsv = 0 → op = 0x5 → n = 0 → decode w = .ok (.srcRead arg)) ∧
    (rsv = 0 → op = 0x8 → n = 0 → decode w = .ok (.writeBit arg)) ∧
    (rsv = 0 → op = 0x9 → decode w = .ok (.writeBits arg n)) ∧
    (rsv = 0 → op = 0xA → n = 0 → decode w = .ok (.writeByte arg)) ∧
    (rsv = 0 → op = 0xB → n = 0 → decode w = .ok (.writeBytes arg)) ∧
    (rsv = 0 → op = 0xC → n = 0 → arg = 0 → decode w = .ok .flush) ∧
    (∀ (s : State) (c : Command) (later : List HostInput) (e : Invalid),
      s.port = .command c :: later → c.word = w → decode w = .error e →
      step s = .next { s with port := later, dest := c.dest, src := c.src,
                              responses := s.responses ++ [⟨.invalidArgument, 0#64, 0#32, []⟩] })

/-- R81, with the layout of R80: a response word's status code, its zero reserved field, its error value and its data. -/
def Obligations.ResponseWordLayout : Prop :=
  (∀ r : Response,
    (r.status = .ok → r.word.toNat % 4 = 0) ∧
    (r.status = .endOfStream → r.word.toNat % 4 = 1) ∧
    (r.status = .transportFailure → r.word.toNat % 4 = 2) ∧
    (r.status = .invalidArgument → r.word.toNat % 4 = 3) ∧
    r.word.toNat / 4 % 64 = 0 ∧
    r.word.toNat / 256 % 2 ^ 32 = r.terr.toNat ∧
    r.word.toNat / 2 ^ 40 = r.data.toNat) ∧
  ∀ st : Status, st = .ok ∨ st = .endOfStream ∨ st = .transportFailure ∨ st = .invalidArgument

/-- R92: the six worked response words. -/
def Obligations.WorkedResponseWords : Prop :=
  Response.word ⟨.ok, 2#64, 0#32, []⟩ = 0x00000000000000020000000000#104 ∧
  Response.word ⟨.ok, 22#64, 0#32, []⟩ = 0x00000000000000160000000000#104 ∧
  Response.word ⟨.ok, BitVec.ofNat 64 (2 ^ 63 - 1), 0#32, []⟩ = 0x7FFFFFFFFFFFFFFF0000000000#104 ∧
  Response.word ⟨.endOfStream, 0#64, 0#32, []⟩ = 0x00000000000000000000000001#104 ∧
  Response.word ⟨.transportFailure, 0#64, 0xDEAD0001#32, []⟩ = 0x0000000000000000DEAD000102#104 ∧
  Response.word ⟨.invalidArgument, 0#64, 0#32, []⟩ = 0x00000000000000000000000003#104

/-! ### The accumulator (40_accumulator.md) -/

/-- R102: EXTRACT is `(reg >> start) & mask(n)`, `mask(n) = 2^n - 1`; the field it returns is below `2^n`, its bit `i` is the
register's bit `start + i`, it does not depend on the spent bits (it is the value of the next `n` pending bits), and when exactly
`n` bits are pending the mask discards only zeros. -/
def Obligations.ExtractReadsTheWindow : Prop :=
  ∀ (a : Acc) (n : Nat), 1 ≤ n → n ≤ 63 → n ≤ a.avail → a.start ≤ 63 →
    a.extract n = (a.reg >>> a.start) &&& BitVec.ofNat 64 (2 ^ n - 1) ∧
    (a.extract n).toNat < 2 ^ n ∧
    (∀ i, i < n → (a.extract n).getLsbD i = a.reg.getLsbD (a.start + i)) ∧
    (a.extract n).toNat = bitsValue (a.bits.take n) ∧
    (a.avail = n → a.Clean → a.extract n = a.reg >>> a.start)

/-- R104: INSERT preserves INV-ORDER and INV-CLEAN under its precondition, and adds `n` to `avail`. -/
def Obligations.InsertKeepsOrderAndClean : Prop :=
  ∀ (a : Acc) (v : Word) (n : Nat), 1 ≤ n → n ≤ 63 → a.stop + n ≤ 64 → a.Ordered → a.Clean →
    (a.insert v n).Ordered ∧ (a.insert v n).Clean ∧ (a.insert v n).avail = a.avail + n

/-- R105, R106: NORMALIZE zeroes a spent accumulator, shifts out eight spent bits or more, and otherwise does nothing; it keeps
`avail` and every EXTRACT within it, preserves INV-ORDER and INV-CLEAN, is idempotent, leaves the
accumulator Empty or with `start <= 7` and `start < end`, and destroys nothing but the spent bits. -/
def Obligations.NormalizeKeepsContent : Prop :=
  ∀ a : Acc, a.Ordered → a.Clean →
    a.normalize.avail = a.avail ∧
    (∀ k, k ≤ a.avail → a.normalize.extract k = a.extract k) ∧
    a.normalize.Ordered ∧ a.normalize.Clean ∧
    a.normalize.normalize = a.normalize ∧
    ((a.normalize.reg = 0#64 ∧ a.normalize.start = 0 ∧ a.normalize.stop = 0) ∨
      (a.normalize.start ≤ 7 ∧ a.normalize.start < a.normalize.stop)) ∧
    a.normalize.bits = a.bits ∧
    (a.start = a.stop → a.normalize = { reg := 0#64, start := 0, stop := 0 }) ∧
    (a.start < a.stop → 8 ≤ a.start → a.normalize = { reg := a.reg >>> a.start, start := 0, stop := a.stop - a.start }) ∧
    (a.start < a.stop → a.start ≤ 7 → a.normalize = a)

/-- R110: what INSERT, consuming or emitting, and NORMALIZE do to `(content, avail)`. -/
def Obligations.ContentAbstraction : Prop :=
  ∀ a : Acc, a.Ordered → a.Clean →
    (∀ (v : Word) (n : Nat), 1 ≤ n → n ≤ 63 → a.stop + n ≤ 64 →
      (a.insert v n).content = a.content ||| ((v &&& mask n) <<< a.avail) ∧ (a.insert v n).avail = a.avail + n) ∧
    (∀ k, k ≤ a.avail →
      (a.advance k).content = a.content >>> k ∧ (a.advance k).avail = a.avail - k ∧ a.extract k = a.content &&& mask k) ∧
    a.normalize.content = a.content ∧ a.normalize.avail = a.avail

/-! ### Reset and the invariant -/

/-- R38: after reset each unit is in the Empty state with a zero register. -/
def Obligations.ResetRegistersAreZero : Prop :=
  State.reset.rd.reg = 0#64 ∧ State.reset.rd.start = 0 ∧ State.reset.rd.stop = 0 ∧
  State.reset.wr.reg = 0#64 ∧ State.reset.wr.start = 0 ∧ State.reset.wr.stop = 0

/-- R26 to R29: the invariant holds at reset; so do the premises of a safe run, by the environment the model gives reset
(DESIGN CHOICE, log entry 1). -/
def Obligations.ResetIsASafeStart : Prop := SafeStart State.reset

/-- R26 to R29, and the canonical form of the host buffers: every step keeps the invariant, from every state that has it. (The
offsets are natural numbers, and the invariant bounds them by 64: log entry 13.) -/
def Obligations.EveryStepKeepsTheInvariant : Prop :=
  ∀ s t : State, Inv s → step s = .next t → Inv t

/-- R190 to R192: a reset of the idle block puts both units in the Empty state with zero registers and does nothing else: the
environment, the buffers and the record are as they were, and the buffered bits of both units are gone. (That the same transports
stay bound after it is the model's choice: log entry 15.) -/
def Obligations.ResetInputEmptiesBothUnits : Prop :=
  ∀ (s : State) (later : List HostInput), s.port = .reset :: later →
    ∃ t, step s = .next t ∧
      t.rd.reg = 0#64 ∧ t.rd.start = 0 ∧ t.rd.stop = 0 ∧ t.wr.reg = 0#64 ∧ t.wr.start = 0 ∧ t.wr.stop = 0 ∧
      t.source = s.source ∧ t.sink = s.sink ∧ t.dest = s.dest ∧ t.src = s.src ∧ t.calls = s.calls ∧
      t.responses = s.responses ∧ t.port = later

/-! ### The step -/

/-- R50, R71, R78: when the word at the front of the port decodes to a command, the step is that command's effect on the
machine that has accepted it: the input taken off the port and its two buffers attached. -/
def Obligations.StepRunsTheDecodedCommand : Prop :=
  ∀ (s : State) (c : Command) (later : List HostInput) (i : Instr),
    s.port = .command c :: later → decode c.word = .ok i →
    step s = exec i { s with port := later, dest := c.dest, src := c.src }

/-- R32, R178: with nothing at the port the block holds everything. -/
def Obligations.IdleBlockHoldsEverything : Prop :=
  ∀ s : State, s.port = [] → step s = .next s

/-- R180, R193: a command presented, or a reset asserted, while a command executes has no meaning. -/
def Obligations.OverlappingInputsAreRefused : Prop :=
  ∀ (s : State) (later : List HostInput),
    (∀ c, s.port = .commandWhileBusy c :: later → step s = .refused .commandWhileBusy) ∧
    (s.port = .resetWhileBusy :: later → step s = .refused .resetWhileBusy)

/-- R169, R207: from a safe start the machine never stops: any number of steps is answered, and the state is a safe start
again. (The run may go through resets, after which the model keeps the same transports bound: its choice, log entry 15; and a
transport answers eventually one thing for ever: log entry 9.) -/
def Obligations.SafeRunsNeverStop : Prop :=
  ∀ (k : Nat) (s : State), SafeStart s → ∃ t, Host.Core.run Sys2Proof.core k s = .next t ∧ SafeStart t

/-- R59, R179: a command has no next state only because a transport of its unit falls silent, and it is never refused; and it has
none when the source, having delivered too few bytes, or the sink, having accepted too few, does not answer the next call: the
single-field reads and writes, the byte reads, `write_bytes` and `flush`. (The named fault is the model's: log entry 11.) -/
def Obligations.OnlySilentTransportsHang : Prop :=
  (∀ (i : Instr) (s : State), Inv s →
    (∀ f, exec i s = .fault f →
      (readerCommand i = true ∧ f = .sourceSilent ∧ s.source.rest = none) ∨
      (writerCommand i = true ∧ f = .sinkSilent ∧ s.sink.rest = none)) ∧
    ∀ r, exec i s ≠ .refused r) ∧
  (∀ (i : Instr) (n : Nat) (s : State) (bs : List Byte) (q : Source),
    fieldReadWidth i = some n → 0 < n → n < 64 → s.rd.Ordered → s.rd.Clean →
    s.rd.stop + 8 * ceilDiv8 (n - s.rd.avail) ≤ 64 → bs.length < ceilDiv8 (n - s.rd.avail) →
    s.source.Delivers bs q → q.next = none →
    exec i s = .fault .sourceSilent) ∧
  (∀ (i : Instr) (v n : Nat) (s : State) (es : List Byte) (k : Sink),
    fieldWriteOperands i = some (v, n) → 0 < n → n < 64 → v < 2 ^ n → WriterInv s.wr → s.wr.stop + n ≤ 64 →
    es.length < (s.wr.avail + n) / 8 → bytesBits es = (s.wr.bits ++ fieldBits v n).take (8 * es.length) →
    s.sink.Accepts es k → k.next = none →
    exec i s = .fault .sinkSilent) ∧
  (∀ (i : Instr) (count : Nat) (s : State) (bs : List Byte) (q : Source),
    byteReadCount i = some count → ReaderInv s.rd → s.rd.avail + 8 * bs.length < 8 * count →
    s.source.Delivers bs q → q.next = none →
    exec i s = .fault .sourceSilent) ∧
  (∀ (count : Nat) (s : State) (es : List Byte) (k : Sink),
    WriterInv s.wr → s.wr.stop ≤ 56 → 0 < count → es.length < (s.wr.avail + 8 * count) / 8 →
    bytesBits es = (s.wr.bits ++ bytesBits (s.src.prefixBytes count)).take (8 * es.length) →
    s.sink.Accepts es k → k.next = none →
    exec (.writeBytes count) s = .fault .sinkSilent) ∧
  (∀ (s : State) (es : List Byte) (k : Sink),
    WriterInv s.wr → es.length < ceilDiv8 s.wr.avail →
    bytesBits es =
      (s.wr.bits ++ List.replicate (8 * ceilDiv8 s.wr.avail - s.wr.avail) false).take (8 * es.length) →
    s.sink.Accepts es k → k.next = none →
    exec .flush s = .fault .sinkSilent)

/-! ### The reader (41_reader.md) -/

/-- R123, R127, R128, R46, R125: `read_bit`, `read_bits` and `read_byte` complete when the width is legal, the field fits and the
source delivers the bytes it needs, exactly `ceil(max(0, n - avail) / 8)` of them: the response is `OK` with the value of the
next `n` bits of the stream (for `read_bit` the one bit, 0 or 1), those bits are gone, the rest stays, and nothing else of
the machine has changed. The three registers are those of R123 steps 5 and 6 with R105: all zero when nothing is left, shifted
down to bit 0 when `start` would reach 8 or more, otherwise `start` alone moved over the register the refill left. -/
def Obligations.FieldReadReturnsTheNextBits : Prop :=
  ∀ (i : Instr) (n : Nat) (s : State) (bs : List Byte) (q : Source),
    fieldReadWidth i = some n → 0 < n → n < 64 → s.rd.Ordered → s.rd.Clean →
    bs.length = ceilDiv8 (n - s.rd.avail) → s.rd.stop + 8 * bs.length ≤ 64 → s.source.Delivers bs q →
    ∃ a : Acc,
      exec i s = .next { s with
        rd := a
        source := q
        calls := s.calls ++ bs.map fun b => .srcRead (.byte b)
        responses := s.responses ++ [⟨.ok, BitVec.ofNat 64 (bitsValue ((s.rd.bits ++ bytesBits bs).take n)), 0#32, []⟩] } ∧
      a = (if n = s.rd.avail + 8 * bs.length then { reg := 0#64, start := 0, stop := 0 }
        else if 8 ≤ s.rd.start + n then
          { reg := (s.rd.reg ||| (BitVec.ofNat 64 (bitsValue (bytesBits bs)) <<< s.rd.stop)) >>> (s.rd.start + n)
            start := 0
            stop := s.rd.stop + 8 * bs.length - (s.rd.start + n) }
        else
          { reg := s.rd.reg ||| (BitVec.ofNat 64 (bitsValue (bytesBits bs)) <<< s.rd.stop)
            start := s.rd.start + n
            stop := s.rd.stop + 8 * bs.length }) ∧
      a.bits = (s.rd.bits ++ bytesBits bs).drop n ∧ a.Ordered ∧ a.Clean ∧ a.Normal

/-- R124, R134: `read_bit`, `read_bits` and `read_byte` when the source answers `END` or `FAIL(e)` after `j - 1` bytes, fewer than
the field needs: the response is that error with `DATA = 0`, `start` is unchanged, `end` has grown by `8*(j-1)`, the bytes
received are ORed in above the old `end`, and nothing else has happened. The bytes stay buffered: they are the last of the
bits now pending, and a later read of what is pending returns them without a source call. -/
def Obligations.FailedRefillKeepsReceivedBytes : Prop :=
  ∀ (i : Instr) (n : Nat) (s : State) (bs : List Byte) (q q' : Source) (x : SrcAnswer) (e : Raise),
    fieldReadWidth i = some n → 0 < n → n < 64 → s.rd.Ordered → s.rd.Clean →
    s.rd.stop + 8 * ceilDiv8 (n - s.rd.avail) ≤ 64 → bs.length < ceilDiv8 (n - s.rd.avail) →
    s.source.Delivers bs q → q.next = some (x, q') → x.raises = some e →
    ∃ t : State,
      t = { s with
        rd := { reg := s.rd.reg ||| (BitVec.ofNat 64 (bitsValue (bytesBits bs)) <<< s.rd.stop)
                start := s.rd.start
                stop := s.rd.stop + 8 * bs.length }
        source := q'
        calls := s.calls ++ bs.map (fun b => .srcRead (.byte b)) ++ [.srcRead x]
        responses := s.responses ++ [⟨e.status, 0#64, e.terr, []⟩] } ∧
      exec i s = .next t ∧
      t.rd.bits = s.rd.bits ++ bytesBits bs ∧
      ∀ m, 0 < m → m ≤ t.rd.avail → m < 64 → ∃ a : Acc, exec (.readBits m) t = .next { t with
        rd := a
        responses := t.responses ++ [⟨.ok, BitVec.ofNat 64 (bitsValue ((s.rd.bits ++ bytesBits bs).take m)), 0#32, []⟩] }

/-- R129, R131, R52: `read_bytes` and `attempt_read` complete when the source delivers the bytes their elements need: the response
is `OK` with `DATA = count`, the bytes are the next of the stream, they are stored at `dest[0 .. count-1]` and no other
element changes, and nothing else but the reader and the source has changed. The pending bits begin at bit 0 of the register once
a byte has been read; with no element the reader is as it was. (That a count of `2^64` or more, which no word carries and to which
R88 need give no meaning, completes too and is reported modulo `2^64` is the model's choice: log entry 14.) -/
def Obligations.ByteReadsDeliverTheStream : Prop :=
  ∀ (i : Instr) (count : Nat) (s : State) (bs : List Byte) (q : Source),
    byteReadCount i = some count → ReaderInv s.rd → s.dest.wf = true →
    bs.length = ceilDiv8 (8 * count - s.rd.avail) → s.source.Delivers bs q →
    ∃ (a : Acc) (m : Memory) (new : List Access) (xs : List Byte),
      exec i s = .next { s with
        rd := a
        source := q
        dest := m
        calls := s.calls ++ new
        responses := s.responses ++ [⟨.ok, BitVec.ofNat 64 count, 0#32, xs⟩] } ∧
      xs.length = count ∧ s.rd.bits ++ bytesBits bs = bytesBits xs ++ a.bits ∧ ReaderInv a ∧ m.wf = true ∧
      (count = 0 → a = s.rd) ∧ (0 < count → a.start = 0) ∧
      (∀ j, m.read j = if h : j < xs.length then xs[j] else s.dest.read j) ∧
      new.filterMap Access.srcAnswer = bs.map .byte

/-- R129 to R131, R166: `read_bytes` and `attempt_read` when the source answers `END` or `FAIL(e)` before the last element: the bytes
read before the failure stay stored, `DATA` is their number, the elements from there on are untouched, and the reader is as
the failing `read_byte` left it. `read_bytes` answers with that error; `attempt_read` answers `OK` for `END` and
`TransportFailure` for `FAIL(e)`. (That a count of `2^64` or more, which no word carries and to which R88 need give no meaning, runs
too and is reported modulo `2^64` is the model's choice: log entry 14.) -/
def Obligations.ByteReadsStopAtTheSource : Prop :=
  ∀ (count : Nat) (s : State) (bs : List Byte) (q q' : Source) (x : SrcAnswer) (e : Raise),
    ReaderInv s.rd → s.dest.wf = true → s.rd.avail + 8 * bs.length < 8 * count →
    s.source.Delivers bs q → q.next = some (x, q') → x.raises = some e →
    ∃ (t : State) (xs : List Byte),
      xs.length = (s.rd.avail + 8 * bs.length) / 8 ∧ xs.length < count ∧
      s.rd.bits ++ bytesBits bs = bytesBits xs ++ t.rd.bits ∧ ReaderInv t.rd ∧
      (xs = [] → t.rd = s.rd) ∧ (xs ≠ [] → t.rd.start = 0) ∧
      (∀ j, t.dest.read j = if h : j < xs.length then xs[j] else s.dest.read j) ∧
      t.source = q' ∧ t.wr = s.wr ∧ t.sink = s.sink ∧ t.src = s.src ∧ t.port = s.port ∧ t.responses = s.responses ∧
      exec (.readBytes count) s = .next { t with
        responses := t.responses ++ [⟨e.status, BitVec.ofNat 64 xs.length, e.terr, xs⟩] } ∧
      exec (.srcRead count) s = .next { t with
        responses := t.responses ++
          [if x = .ended then ⟨.ok, BitVec.ofNat 64 xs.length, 0#32, xs⟩
           else ⟨e.status, BitVec.ofNat 64 xs.length, e.terr, xs⟩] }

/-- R55, R129, R148: one element at a time. With at most seven bits buffered, a byte read that completes receives one byte for each
element and stores the element before it asks for the next byte; with less than a byte staged, a byte write that completes
reads each element and emits its byte before it reads the next. -/
def Obligations.ElementsMoveOneAtATime : Prop :=
  (∀ (i : Instr) (count : Nat) (s : State) (bs : List Byte) (q : Source),
    byteReadCount i = some count → ReaderInv s.rd → s.rd.avail ≤ 7 → bs.length = count → s.source.Delivers bs q →
    ∃ (t : State) (xs : List Byte), exec i s = .next t ∧ xs.length = count ∧
      t.calls = s.calls ++ readStoreOrder 0 bs xs) ∧
  (∀ (count : Nat) (s : State) (es : List Byte) (k : Sink),
    WriterInv s.wr → s.wr.avail ≤ 7 → es.length = count →
    bytesBits es = (s.wr.bits ++ bytesBits (s.src.prefixBytes count)).take (8 * count) → s.sink.Accepts es k →
    ∃ t : State, exec (.writeBytes count) s = .next t ∧
      t.calls = s.calls ++ loadWriteOrder 0 (s.src.prefixBytes count) es)

/-- R47 for one command: what was pending, followed by what the command pulled, is what it took, followed by what is now pending.
A field read that is answered `OK` took its `n` bits and its data is their value; one that is not took nothing; a byte read
took the bytes it stored, and its data is their number. (For a count of `2^64` or more, which no word carries and to which R88 need
give no meaning, that number modulo `2^64`: the model's choice, log entry 14.) -/
def Obligations.ReaderStreamLaw : Prop :=
  ∀ (i : Instr) (s t : State), readerCommand i = true → ReaderInv s.rd → s.dest.wf = true → exec i s = .next t →
    ∃ (new : List Access) (r : Response) (taken : List Bool),
      t.calls = s.calls ++ new ∧ t.responses = s.responses ++ [r] ∧
      s.rd.bits ++ bytesBits (new.filterMap Access.pulled) = taken ++ t.rd.bits ∧
      (∀ n, fieldReadWidth i = some n →
        (r.status = .ok → taken.length = n ∧ r.data = BitVec.ofNat 64 (bitsValue taken)) ∧ (r.status ≠ .ok → taken = [])) ∧
      (∀ c, byteReadCount i = some c → taken = bytesBits r.bytes ∧ r.data = BitVec.ofNat 64 r.bytes.length)

/-- R120, the reader's frame: a reader operation writes only the reader's registers, calls only the source, and writes only the
host buffer `dest`, and that only in `READ_BYTES` and `SRC_READ`, at the indexes its response reports; it touches neither the
writer unit nor the sink. It reads no more than that: what it does is the same whatever the writer unit, the sink and the source
buffer hold (R24, R133). -/
def Obligations.ReaderFrame : Prop :=
  (∀ (i : Instr) (s : State), readerCommand i = true → ∀ (a : Acc) (k : Sink) (m : Memory),
    exec i { s with wr := a, sink := k, src := m } = mapNext (fun t => { t with wr := a, sink := k, src := m }) (exec i s)) ∧
  ∀ (i : Instr) (s t : State), readerCommand i = true → s.dest.wf = true → exec i s = .next t →
    t.wr = s.wr ∧ t.sink = s.sink ∧ t.src = s.src ∧ t.port = s.port ∧
    ∃ (new : List Access) (r : Response), t.calls = s.calls ++ new ∧ t.responses = s.responses ++ [r] ∧
      (∀ c ∈ new, c.srcAnswer ≠ none ∨ c.stored ≠ none) ∧
      (byteReadCount i = none → t.dest = s.dest ∧ ∀ c ∈ new, c.stored = none) ∧
      (byteReadCount i ≠ none → ∀ j, r.bytes.length ≤ j → t.dest.read j = s.dest.read j)

/-- R28: the reader between commands. For c: a command answered `OK` leaves at most seven bits pending, or it pulled no byte and
left no more than were pending before it; so from a state with at most seven it leaves at most seven, and `end` is at most 14.
(From a backlog that a failed refill left, a read answered `OK` can leave more than seven: R124, which wins by C8 of
90_conflicts.md, and 95_test_vectors.md section 5, last row; log entry 6.) -/
def Obligations.ReaderBetweenCommands : Prop :=
  ∀ (i : Instr) (s t : State), readerCommand i = true → ReaderInv s.rd → exec i s = .next t →
    ∃ (new : List Access) (r : Response), t.calls = s.calls ++ new ∧ t.responses = s.responses ++ [r] ∧
      t.rd.start ≤ 7 ∧
      (t.rd.start = t.rd.stop → t.rd.start = 0 ∧ t.rd.stop = 0 ∧ t.rd.reg = 0#64) ∧
      (r.status = .ok → s.rd.avail ≤ 7 → t.rd.avail ≤ 7 ∧ t.rd.stop ≤ 14) ∧
      (r.status = .ok → t.rd.avail ≤ 7 ∨ (new.filterMap Access.pulled = [] ∧ t.rd.avail ≤ s.rd.avail)) ∧
      (r.status = .invalidArgument → t.rd = s.rd) ∧
      (∀ n, fieldReadWidth i = some n → (r.status = .endOfStream ∨ r.status = .transportFailure) →
        t.rd.avail < n ∧ t.rd.start = s.rd.start ∧ t.rd.stop = s.rd.stop + 8 * (new.filterMap Access.pulled).length) ∧
      t.rd.avail ≤ 62

/-- R126, R135: over a source that is exhausted and stays so, every reader command that needs a byte is answered `EndOfStream`
(`attempt_read`: `OK` with `DATA = 0`) and changes nothing but the record; the source is still exhausted. -/
def Obligations.ExhaustedSourceChangesNothing : Prop :=
  ∀ s : State, ReaderInv s.rd → s.source.Exhausted →
    (∀ (i : Instr) (n : Nat), fieldReadWidth i = some n → 0 < n → n < 64 → s.rd.stop + 8 * ceilDiv8 (n - s.rd.avail) ≤ 64 →
      s.rd.avail < n →
      exec i s = .next { s with
        calls := s.calls ++ [.srcRead .ended], responses := s.responses ++ [⟨.endOfStream, 0#64, 0#32, []⟩] }) ∧
    (∀ count, 0 < count → s.rd.avail ≤ 7 →
      exec (.readBytes count) s = .next { s with
        calls := s.calls ++ [.srcRead .ended], responses := s.responses ++ [⟨.endOfStream, 0#64, 0#32, []⟩] } ∧
      exec (.srcRead count) s = .next { s with
        calls := s.calls ++ [.srcRead .ended], responses := s.responses ++ [⟨.ok, 0#64, 0#32, []⟩] })

/-- R135: reading `n1` bits and then `n2` bits returns the two parts of what one read of `n1 + n2` bits returns from the same
position, and leaves the same bits pending and the same source. -/
def Obligations.SplitReadEqualsWholeRead : Prop :=
  ∀ (n1 n2 : Nat) (s : State) (bs : List Byte) (q : Source),
    0 < n1 → 0 < n2 → n1 + n2 ≤ 50 → ReaderInv s.rd →
    bs.length = ceilDiv8 (n1 + n2 - s.rd.avail) → s.source.Delivers bs q →
    ∃ (s1 s2 t : State) (x1 x2 x : Word),
      exec (.readBits n1) s = .next s1 ∧ exec (.readBits n2) s1 = .next s2 ∧ exec (.readBits (n1 + n2)) s = .next t ∧
      s2.responses = s.responses ++ [⟨.ok, x1, 0#32, []⟩, ⟨.ok, x2, 0#32, []⟩] ∧
      t.responses = s.responses ++ [⟨.ok, x, 0#32, []⟩] ∧
      x1 ||| (x2 <<< n1) = x ∧ s2.rd.bits = t.rd.bits ∧ s2.source = t.source

/-- R30: no reader operation depends on the spent bits: from two accumulators that differ only below `start`, a reader command does
the same in every respect, and what it leaves differs only below `start`. -/
def Obligations.SpentBitsAreNeverObserved : Prop :=
  ∀ (i : Instr) (s : State) (a : Acc), readerCommand i = true → ReaderInv s.rd → ReaderInv a →
    a.start = s.rd.start → a.stop = s.rd.stop → a.bits = s.rd.bits →
    (∀ t, exec i s = .next t → ∃ b : Acc, exec i { s with rd := a } = .next { t with rd := b } ∧
      b.start = t.rd.start ∧ b.stop = t.rd.stop ∧ b.bits = t.rd.bits) ∧
    (∀ f, exec i s = .fault f → exec i { s with rd := a } = .fault f)

/-! ### The writer (42_writer.md) -/

/-- R144, R146, R147, R53, R154: `write_bit`, `write_bits` and `write_byte` complete when the width, the value and the room are
legal and the sink accepts the bytes the field completes, exactly `floor((avail + n) / 8)` of them: those bytes are the first
of what was staged followed by the field's bits, low-order bit first; the rest, at most seven bits, stays staged; the response
is `OK` with `DATA = 0`, and nothing else of the machine has changed. -/
def Obligations.FieldWriteEmitsCompleteBytes : Prop :=
  ∀ (i : Instr) (v n : Nat) (s : State) (es : List Byte) (k : Sink),
    fieldWriteOperands i = some (v, n) → 0 < n → n < 64 → v < 2 ^ n → WriterInv s.wr → s.wr.stop + n ≤ 64 →
    es.length = (s.wr.avail + n) / 8 → bytesBits es = (s.wr.bits ++ fieldBits v n).take (8 * es.length) →
    s.sink.Accepts es k →
    ∃ a : Acc,
      exec i s = .next { s with
        wr := a
        sink := k
        calls := s.calls ++ es.map fun b => .snkWrite b .ok
        responses := s.responses ++ [⟨.ok, 0#64, 0#32, []⟩] } ∧
      a.bits = (s.wr.bits ++ fieldBits v n).drop (8 * es.length) ∧ WriterInv a ∧ a.stop ≤ 7 ∧ k.out = s.sink.out ++ es

/-- R145: `write_bit`, `write_bits` and `write_byte` when the sink refuses a byte: the field is inserted, the bytes accepted before it
are emitted, the refused byte is still the next eight bits with `start = 0`, at least eight bits are staged, and the response
is `TransportFailure` with the sink's error value. -/
def Obligations.SinkFailureKeepsTheBacklog : Prop :=
  ∀ (i : Instr) (v n : Nat) (s : State) (es : List Byte) (b : Byte) (e : TErr) (k k' : Sink),
    fieldWriteOperands i = some (v, n) → 0 < n → n < 64 → v < 2 ^ n → WriterInv s.wr → s.wr.stop + n ≤ 64 →
    es.length < (s.wr.avail + n) / 8 →
    bytesBits (es ++ [b]) = (s.wr.bits ++ fieldBits v n).take (8 * es.length + 8) →
    s.sink.Accepts es k → k.next = some (.fail e, k') →
    ∃ a : Acc,
      exec i s = .next { s with
        wr := a
        sink := k'
        calls := s.calls ++ es.map (fun b => .snkWrite b .ok) ++ [.snkWrite b (.fail e)]
        responses := s.responses ++ [⟨.transportFailure, 0#64, e, []⟩] } ∧
      a.bits = (s.wr.bits ++ fieldBits v n).drop (8 * es.length) ∧ WriterInv a ∧ a.start = 0 ∧ 8 ≤ a.stop ∧
      k'.out = s.sink.out ++ es

/-- R148, R154: `write_bytes` completes when its first element has room (or it has none) and the sink accepts the bytes its
elements complete: the response is `OK` with `DATA = count`, the bytes are the first of what was staged followed by the
elements, and the rest stays staged. (With no element nothing is emitted, a backlog or not: log entry 7. That a count of `2^64` or
more, which no word carries and to which R88 need give no meaning, completes too and is reported modulo `2^64` is the model's
choice: log entry 14.) -/
def Obligations.ByteWritesEmitTheElements : Prop :=
  ∀ (count : Nat) (s : State) (es : List Byte) (k : Sink),
    WriterInv s.wr → (count = 0 ∨ s.wr.stop ≤ 56) →
    es.length = (if count = 0 then 0 else (s.wr.avail + 8 * count) / 8) →
    bytesBits es = (s.wr.bits ++ bytesBits (s.src.prefixBytes count)).take (8 * es.length) → s.sink.Accepts es k →
    ∃ (a : Acc) (new : List Access),
      exec (.writeBytes count) s = .next { s with
        wr := a
        sink := k
        calls := s.calls ++ new
        responses := s.responses ++ [⟨.ok, BitVec.ofNat 64 count, 0#32, []⟩] } ∧
      a.bits = (s.wr.bits ++ bytesBits (s.src.prefixBytes count)).drop (8 * es.length) ∧ WriterInv a ∧
      (0 < count → a.stop ≤ 7) ∧ k.out = s.sink.out ++ es ∧
      new.filterMap Access.loaded = (s.src.prefixBytes count).zipIdx.map fun p => (p.2, p.1)

/-- R148, R149, R166: `write_bytes` when the sink refuses a byte: with `done` the number of elements written before, the elements up
to and including `done` are in the stream, element `done` is staged, no later element has been read, and `DATA = done`. (That a count of `2^64` or more,
which no word carries and to which R88 need give no meaning, runs too and is reported modulo `2^64` is the model's choice: log
entry 14.) -/
def Obligations.ByteWritesStopAtTheSink : Prop :=
  ∀ (count done : Nat) (s : State) (es : List Byte) (b : Byte) (e : TErr) (k k' : Sink),
    WriterInv s.wr → s.wr.stop ≤ 56 → done = es.length - s.wr.avail / 8 → done < count →
    bytesBits (es ++ [b]) = (s.wr.bits ++ bytesBits (s.src.prefixBytes (done + 1))).take (8 * es.length + 8) →
    s.sink.Accepts es k → k.next = some (.fail e, k') →
    ∃ (a : Acc) (new : List Access),
      exec (.writeBytes count) s = .next { s with
        wr := a
        sink := k'
        calls := s.calls ++ new
        responses := s.responses ++ [⟨.transportFailure, BitVec.ofNat 64 done, e, []⟩] } ∧
      a.bits = (s.wr.bits ++ bytesBits (s.src.prefixBytes (done + 1))).drop (8 * es.length) ∧ WriterInv a ∧ 8 ≤ a.stop ∧
      k'.out = s.sink.out ++ es ∧
      new.filterMap Access.loaded = (s.src.prefixBytes (done + 1)).zipIdx.map fun p => (p.2, p.1)

/-- R150, R154: `flush` completes when the sink accepts `ceil(avail / 8)` bytes: they are the staged bits padded with zeros to a byte
boundary, the writer is Empty with a zero register, the response is `OK` with `DATA = 0`; with nothing pending it is a no-op. -/
def Obligations.FlushPadsAndEmpties : Prop :=
  ∀ (s : State) (es : List Byte) (k : Sink),
    WriterInv s.wr → es.length = ceilDiv8 s.wr.avail →
    bytesBits es = s.wr.bits ++ List.replicate (8 * es.length - s.wr.avail) false → s.sink.Accepts es k →
    exec .flush s = .next { s with
      wr := { reg := 0#64, start := 0, stop := 0 }
      sink := k
      calls := s.calls ++ es.map fun b => .snkWrite b .ok
      responses := s.responses ++ [⟨.ok, 0#64, 0#32, []⟩] } ∧
    k.out = s.sink.out ++ es ∧ (s.wr.stop = 0 → es = [] ∧ k = s.sink)

/-- R150: a `flush` that the sink stops has padded the writer to a byte boundary; the unemitted bytes stay staged, and the response
is `TransportFailure`. -/
def Obligations.FailedFlushKeepsPaddedBytes : Prop :=
  ∀ (s : State) (es : List Byte) (b : Byte) (e : TErr) (k k' : Sink),
    WriterInv s.wr → es.length < ceilDiv8 s.wr.avail →
    bytesBits (es ++ [b]) =
      (s.wr.bits ++ List.replicate (8 * ceilDiv8 s.wr.avail - s.wr.avail) false).take (8 * es.length + 8) →
    s.sink.Accepts es k → k.next = some (.fail e, k') →
    ∃ a : Acc,
      exec .flush s = .next { s with
        wr := a
        sink := k'
        calls := s.calls ++ es.map (fun b => .snkWrite b .ok) ++ [.snkWrite b (.fail e)]
        responses := s.responses ++ [⟨.transportFailure, 0#64, e, []⟩] } ∧
      a.bits = (s.wr.bits ++ List.replicate (8 * ceilDiv8 s.wr.avail - s.wr.avail) false).drop (8 * es.length) ∧
      WriterInv a ∧ 8 ∣ a.stop ∧ 8 ≤ a.stop

/-- R48 for one command: what was staged, followed by what the command inserted or padded, is what the sink accepted, followed by what
is now staged; and the sink has exactly those bytes more. -/
def Obligations.WriterStreamLaw : Prop :=
  ∀ (i : Instr) (s t : State), writerCommand i = true → i.wf = true → WriterInv s.wr → exec i s = .next t →
    ∃ (new : List Access) (r : Response) (put : List Bool),
      t.calls = s.calls ++ new ∧ t.responses = s.responses ++ [r] ∧
      s.wr.bits ++ put = bytesBits (new.filterMap Access.emitted) ++ t.wr.bits ∧
      t.sink.out = s.sink.out ++ new.filterMap Access.emitted ∧
      (∀ v n, fieldWriteOperands i = some (v, n) → put = if r.status = .invalidArgument then [] else fieldBits v n) ∧
      (∀ c, i = .writeBytes c →
        put = bytesBits (s.src.prefixBytes (if r.status = .transportFailure then r.data.toNat + 1 else r.data.toNat))) ∧
      (i = .flush → put = List.replicate (8 * ceilDiv8 s.wr.avail - s.wr.avail) false)

/-- R140, the writer's frame: a writer operation writes only the writer's registers, calls only the sink, and reads only the host
buffer `src`, and that only in `WRITE_BYTES`, below its count; it touches neither the reader unit nor the source, and it is
never answered `EndOfStream`. It reads no more than that: what it does is the same whatever the reader unit, the source and the
destination buffer hold (R24, R153). -/
def Obligations.WriterFrame : Prop :=
  (∀ (i : Instr) (s : State), writerCommand i = true → ∀ (a : Acc) (q : Source) (m : Memory),
    exec i { s with rd := a, source := q, dest := m } = mapNext (fun t => { t with rd := a, source := q, dest := m }) (exec i s)) ∧
  ∀ (i : Instr) (s t : State), writerCommand i = true → exec i s = .next t →
    t.rd = s.rd ∧ t.source = s.source ∧ t.dest = s.dest ∧ t.src = s.src ∧ t.port = s.port ∧
    ∃ (new : List Access) (r : Response), t.calls = s.calls ++ new ∧ t.responses = s.responses ++ [r] ∧
      r.status ≠ .endOfStream ∧
      (∀ c ∈ new, c.srcAnswer = none ∧ c.stored = none) ∧
      (∀ c ∈ new, ∀ p, c.loaded = some p → ∃ n, i = .writeBytes n ∧ p.1 < n ∧ p.2 = s.src.read p.1)

/-- R29 a, c, d, e, and b for a command that reaches DRAIN: the writer between commands. (A `write_bytes` of no element is answered
`OK` and drains nothing: R148, R154; log entry 7.) -/
def Obligations.WriterBetweenCommands : Prop :=
  ∀ (i : Instr) (s t : State), writerCommand i = true → WriterInv s.wr → exec i s = .next t →
    ∃ r : Response, t.responses = s.responses ++ [r] ∧
      t.wr.start = 0 ∧
      (r.status = .ok → i ≠ .writeBytes 0 → t.wr.stop ≤ 7) ∧
      (r.status = .ok → i = .flush → t.wr.stop = 0 ∧ t.wr.reg = 0#64) ∧
      (r.status = .invalidArgument → t.wr = s.wr) ∧
      (r.status = .transportFailure → 8 ≤ t.wr.stop ∧ t.wr.stop ≤ 64) ∧
      t.wr.reg.toNat < 2 ^ t.wr.stop

/-! ### Both units -/

/-- R163: the four causes of `InvalidArgument`: each leaves every register unchanged and makes no transport call and no host-buffer
access; the response has `DATA = 0` and `TERR = 0`. Whenever `write_bytes` is answered so, nothing has changed. -/
def Obligations.InvalidArgumentHasNoEffect : Prop :=
  ∀ s t : State, t = { s with responses := s.responses ++ [⟨.invalidArgument, 0#64, 0#32, []⟩] } →
    (∀ n, (n = 0 ∨ 64 ≤ n) → exec (.readBits n) s = .next t) ∧
    (∀ v n, (n = 0 ∨ 64 ≤ n) → exec (.writeBits v n) s = .next t) ∧
    (∀ v n, 2 ^ n ≤ v → exec (.writeBits v n) s = .next t) ∧
    (∀ v, 2 ≤ v → exec (.writeBit v) s = .next t) ∧
    (∀ v, 256 ≤ v → exec (.writeByte v) s = .next t) ∧
    (∀ n, s.rd.start ≤ s.rd.stop → 64 < s.rd.stop + 8 * ceilDiv8 (n - s.rd.avail) → exec (.readBits n) s = .next t) ∧
    (∀ v n, 64 < s.wr.stop + n → exec (.writeBits v n) s = .next t) ∧
    (∀ v, 64 < s.wr.stop + 1 → exec (.writeBit v) s = .next t) ∧
    (∀ v, 64 < s.wr.stop + 8 → exec (.writeByte v) s = .next t) ∧
    (∀ count, 0 < count → 64 < s.wr.stop + 8 → exec (.writeBytes count) s = .next t) ∧
    (∀ (count : Nat) (u : State) (r : Response), WriterInv s.wr → exec (.writeBytes count) s = .next u →
      u.responses = s.responses ++ [r] → r.status = .invalidArgument → u = t) ∧
    (∀ (u : State) (c : Command) (e : Invalid), decode c.word = .error e → u.port = .command c :: s.port →
      s = { u with port := s.port, dest := c.dest, src := c.src } → step u = .next t)

/-- R164: the statuses of the table are exactly those that a command can be answered with, from a state that meets the invariant
(an invalid word apart: it is no command); and why a command can be answered `InvalidArgument`. -/
def Obligations.StatusesOfEachCommand : Prop :=
  (∀ (o : Op) (st : Status), st ∈ commandStatuses o ↔
    ∃ (n arg : Nat) (s t : State) (r : Response), (o.assemble n arg).wf = true ∧ Inv s ∧
      exec (o.assemble n arg) s = .next t ∧ t.responses = s.responses ++ [r] ∧ r.status = st) ∧
  ∀ (i : Instr) (s t : State), Inv s → exec i s = .next t →
    ∃ r : Response, t.responses = s.responses ++ [r] ∧
      (writerCommand i = true → r.status ≠ .endOfStream) ∧
      (∀ c, i = .srcRead c → r.status ≠ .endOfStream) ∧
      (r.status = .invalidArgument →
        (∃ n, i = .readBits n ∧ (n = 0 ∨ 64 ≤ n ∨ 64 < s.rd.stop + 8 * ceilDiv8 (n - s.rd.avail))) ∨
        (∃ v, i = .writeBit v ∧ (2 ≤ v ∨ s.wr.stop = 64)) ∨
        (∃ v n, i = .writeBits v n ∧ (n = 0 ∨ 64 ≤ n ∨ 2 ^ n ≤ v ∨ 64 < s.wr.stop + n)) ∨
        (∃ v, i = .writeByte v ∧ (256 ≤ v ∨ 56 < s.wr.stop)) ∨
        (∃ c, i = .writeBytes c ∧ 0 < c ∧ 56 < s.wr.stop ∧ r.data = 0#64))

/-- R71, R82, R84: a command is answered by exactly one response. `TERR` is the `e` of the `FAIL(e)` answer that ended the command
(the last access it made) when the status is `TransportFailure`, and else 0, and then no `FAIL` ended it. `DATA` is 0 after an
error of a single-field command or `flush`, the count done for the multi-byte commands, 0 after a write, and in the range of its
width after a read (its value is what ReaderStreamLaw says). The bytes are those stored in `dest`, and only byte reads have any. -/
def Obligations.OneResponseOfTheRightShape : Prop :=
  ∀ (i : Instr) (s t : State), i.wf = true → s.dest.wf = true → exec i s = .next t →
    ∃ r : Response, t.responses = s.responses ++ [r] ∧
      (r.status ≠ .transportFailure → r.terr = 0#32) ∧
      (∃ new : List Access, t.calls = s.calls ++ new ∧
        new.getLast?.bind Access.failure = if r.status = .transportFailure then some r.terr else none) ∧
      (byteReadCount i = none → r.bytes = []) ∧
      (r.status ≠ .ok → byteReadCount i = none → (∀ c, i ≠ .writeBytes c) → r.data = 0#64) ∧
      (r.status = .ok →
        (∀ n, i = .readBits n → r.data.toNat < 2 ^ n) ∧
        (i = .readBit → r.data = 0#64 ∨ r.data = 1#64) ∧
        (i = .readByte → r.data.toNat < 256) ∧
        (∀ c, i = .readBytes c → r.data.toNat = c) ∧
        (∀ c, i = .srcRead c → r.data.toNat ≤ c) ∧
        (∀ c, i = .writeBytes c → r.data.toNat = c) ∧
        (i = .flush ∨ fieldWriteOperands i ≠ none → r.data = 0#64)) ∧
      (r.status ≠ .ok →
        (∀ c, byteReadCount i = some c → r.data.toNat < c) ∧ (∀ c, i = .writeBytes c → r.data.toNat < c)) ∧
      (byteReadCount i ≠ none → r.data.toNat = r.bytes.length ∧ r.bytes = t.dest.prefixBytes r.data.toNat)

/-- R13: the widths a capacity check never rejects: reads of at most 50 bits in any reader state between commands, any legal read from
Empty, writes of at most 57 bits with less than a byte staged. -/
def Obligations.NarrowWidthsAlwaysFit : Prop :=
  (∀ (a : Acc) (n : Nat), ReaderInv a → n ≤ 50 → readCapacityOk a n = true) ∧
  (∀ (a : Acc) (n : Nat), a.IsEmpty → n < 64 → readCapacityOk a n = true) ∧
  (∀ n, 51 ≤ n → n < 64 → ∃ a b : Acc, ReaderInv a ∧ ReaderInv b ∧ ¬ a.IsEmpty ∧ ¬ b.IsEmpty ∧
    readCapacityOk a n = true ∧ readCapacityOk b n = false) ∧
  (∀ (a : Acc) (n : Nat), WriterInv a → a.stop ≤ 7 → n ≤ 57 → writeCapacityOk a n = true)

/-- R207: a command makes a bounded number of transport calls: at most eight for a single field and for `flush`, at most `count` for
the byte reads, at most `count` and eight more for `write_bytes`. -/
def Obligations.TransportCallsAreBounded : Prop :=
  ∀ (i : Instr) (s t : State), Inv s → exec i s = .next t →
    ∃ new : List Access, t.calls = s.calls ++ new ∧
      (byteReadCount i = none → (∀ c, i ≠ .writeBytes c) → (new.filter Access.isTransport).length ≤ 8) ∧
      (∀ c, byteReadCount i = some c → (new.filter Access.isTransport).length ≤ c) ∧
      (∀ c, i = .writeBytes c → (new.filter Access.isTransport).length ≤ c + 8)

/-- R156, with R46: the writer and the reader invert each other. For any fields of widths 1 to 50 whose values fit, written on an Empty
writer over a willing sink and flushed: every response is `OK`, the sink receives `ceil(T / 8)` bytes for `T` bits, the writer
is Empty; and an Empty reader whose source is those bytes, read with the same widths in the same order, returns the same
values, is left with at most seven bits, all zero, and answers `EndOfStream` to a read of more than that. For one byte and
`write_byte`, `flush`, `read_byte`, the sink receives exactly that byte. -/
def Obligations.RoundTrip : Prop :=
  (∀ (fs : List (Nat × Nat)) (s : State),
    (∀ f ∈ fs, 1 ≤ f.2 ∧ f.2 ≤ 50 ∧ f.1 < 2 ^ f.2) → s.wr = { reg := 0#64, start := 0, stop := 0 } → s.sink.Willing →
    ∃ (t : State) (bytes : List Byte),
      execAll (fs.map (fun f => .writeBits f.1 f.2) ++ [.flush]) s = .next t ∧
      t.responses = s.responses ++ List.replicate (fs.length + 1) ⟨.ok, 0#64, 0#32, []⟩ ∧
      t.sink.out = s.sink.out ++ bytes ∧ bytes.length = ceilDiv8 (fs.map (·.2)).sum ∧
      t.wr = { reg := 0#64, start := 0, stop := 0 } ∧
      ∀ u : State, u.rd = { reg := 0#64, start := 0, stop := 0 } → u.source = Source.ofBytes bytes →
        ∃ u' : State, execAll (fs.map fun f => .readBits f.2) u = .next u' ∧
          u'.responses = u.responses ++ fs.map (fun f => ⟨.ok, BitVec.ofNat 64 f.1, 0#32, []⟩) ∧
          u'.rd.avail ≤ 7 ∧ (∀ x ∈ u'.rd.bits, x = false) ∧
          ∀ n, u'.rd.avail < n → n ≤ 50 →
            ∃ z, exec (.readBits n) u' = .next z ∧ z.responses = u'.responses ++ [⟨.endOfStream, 0#64, 0#32, []⟩]) ∧
  (∀ (b : Byte) (s : State), s.wr = { reg := 0#64, start := 0, stop := 0 } → s.sink.Willing →
    ∃ t : State, execAll [.writeByte b.toNat, .flush] s = .next t ∧ t.sink.out = s.sink.out ++ [b] ∧
      ∀ u : State, u.rd = { reg := 0#64, start := 0, stop := 0 } → u.source = Source.ofBytes [b] →
        ∃ u' : State, exec .readByte u = .next u' ∧ u'.responses = u.responses ++ [⟨.ok, b.setWidth 64, 0#32, []⟩])

/-- R201: the end of a write session. For any commands run from an Empty writer, each answered by one response: the writer's stream is
what the sink has been given followed by what is staged. The end-of-run predicate (the responses have the expected statuses, and
`wr = (0, 0, 0)` after a final `flush`) holds exactly when the last writer command issued is a `flush` that was answered `OK` and
those were the statuses; the sink then holds the whole stream, `ceil(T / 8)` bytes for the `T` bits before a `flush` that comes
last; and after a last `flush` that was not answered `OK` it does not hold it. -/
def Obligations.WriteSessionEndsWithAFlush : Prop :=
  ∀ (prog : List Instr) (s t : State),
    (∀ i ∈ prog, i.wf = true) → Inv s → s.wr = { reg := 0#64, start := 0, stop := 0 } → execAll prog s = .next t →
    ∃ (rs : List Response) (out : List Byte),
      rs.length = prog.length ∧ t.responses = s.responses ++ rs ∧ t.sink.out = s.sink.out ++ out ∧
      writtenStream s.src [] (prog.zip rs) = bytesBits out ++ t.wr.bits ∧
      (∀ expected, EndOfRun prog expected s t ↔ SessionComplete (prog.zip rs) ∧ expected = rs.map (·.status)) ∧
      (SessionComplete (prog.zip rs) → bytesBits out = writtenStream s.src [] (prog.zip rs)) ∧
      (∀ ws, prog = ws ++ [.flush] → SessionComplete (prog.zip rs) →
        out.length = ceilDiv8 (writtenStream s.src [] (ws.zip rs)).length) ∧
      ((prog.filter writerCommand).getLast? = some .flush → ¬ SessionComplete (prog.zip rs) →
        bytesBits out ≠ writtenStream s.src [] (prog.zip rs))

/-- R28 c, R52 over any commands: from a reader with at most seven bits pending, as after reset, and as long as no reader command is
stopped by the source, at most seven bits are pending and `end` is at most 14 (so after every `OK`); what was pending and what was
pulled is what was taken and what is pending; and from an Empty reader `pulled = ceil(consumed / 8)` bytes. (After a refill that
the source stopped, more can be pending: R124; log entry 6.) -/
def Obligations.SuccessfulReadsHoldBackUnderAByte : Prop :=
  ∀ (prog : List Instr) (s t : State) (rs : List Response),
    Inv s → s.rd.avail ≤ 7 → execAll prog s = .next t → t.responses = s.responses ++ rs →
    (∀ p ∈ prog.zip rs, readerCommand p.1 = true → p.2.status = .ok ∨ p.2.status = .invalidArgument) →
    t.rd.avail ≤ 7 ∧ t.rd.stop ≤ 14 ∧
    ∃ (new : List Access) (taken : Nat),
      t.calls = s.calls ++ new ∧ taken = ((prog.zip rs).map fun p => takenBits p.1 p.2).sum ∧
      s.rd.avail + 8 * (new.filterMap Access.pulled).length = taken + t.rd.avail ∧
      (s.rd = { reg := 0#64, start := 0, stop := 0 } → (new.filterMap Access.pulled).length = ceilDiv8 taken)

end
end

