-- ==== Sys2Proof/Laws/Stream.lean ====
section
/-! SUPPORT. Lists of bits: lengths, values, and how bytes and fields become bits (20_memory.md R45, R46). -/

namespace Sys2Proof.Machine

@[simp] theorem config_W : Config.W = 64 := rfl

@[simp] theorem config_byteBits : Config.byteBits = 8 := rfl

@[simp] theorem length_byteBits (b : Byte) : (byteBits b).length = 8 := by simp [byteBits]

@[simp] theorem length_fieldBits (v n : Nat) : (fieldBits v n).length = n := by simp [fieldBits]

@[simp] theorem bytesBits_nil : bytesBits [] = [] := rfl

theorem bytesBits_cons (b : Byte) (bs : List Byte) : bytesBits (b :: bs) = byteBits b ++ bytesBits bs := by
  simp [bytesBits]

@[simp] theorem bytesBits_append (bs cs : List Byte) : bytesBits (bs ++ cs) = bytesBits bs ++ bytesBits cs := by
  simp [bytesBits]

@[simp] theorem bytesBits_singleton (b : Byte) : bytesBits [b] = byteBits b := by simp [bytesBits]

@[simp] theorem length_bytesBits (bs : List Byte) : (bytesBits bs).length = 8 * bs.length := by
  induction bs with
  | nil => rfl
  | cons b bs ih => rw [bytesBits_cons, List.length_append, ih, length_byteBits, List.length_cons]; omega

/-- A byte is the field of width 8 with its value. -/
theorem byteBits_eq_fieldBits (b : Byte) : byteBits b = fieldBits b.toNat 8 := by
  simp [byteBits, fieldBits, BitVec.getLsbD]

/-- A byte is determined by its bits. -/
theorem byteBits_injective {b c : Byte} (h : byteBits b = byteBits c) : b = c := by
  refine BitVec.eq_of_getLsbD_eq fun i hi => ?_
  have := congrArg (fun l => l[i]?) h
  simpa [byteBits, List.getElem?_map, List.getElem?_range hi] using this

/-- Bytes are determined by their bits. -/
theorem bytesBits_injective : ∀ {bs cs : List Byte}, bytesBits bs = bytesBits cs → bs = cs
  | [], [], _ => rfl
  | [], c :: cs, h => by have := congrArg List.length h; simp at this
  | b :: bs, [], h => by have := congrArg List.length h; simp at this
  | b :: bs, c :: cs, h => by
    rw [bytesBits_cons, bytesBits_cons] at h
    obtain ⟨h1, h2⟩ := List.append_inj h (by simp)
    rw [byteBits_injective h1, bytesBits_injective h2]

@[simp] theorem bitsValue_nil : bitsValue [] = 0 := rfl

theorem bitsValue_cons (b : Bool) (l : List Bool) : bitsValue (b :: l) = (if b then 1 else 0) + 2 * bitsValue l := rfl

theorem bitsValue_lt (l : List Bool) : bitsValue l < 2 ^ l.length := by
  induction l with
  | nil => simp
  | cons b l ih => rw [bitsValue_cons, List.length_cons, pow_succ]; split <;> omega

/-- The first bits are the low-order ones: concatenation is `x | (y << n)` (R135), written as a sum. -/
theorem bitsValue_append (l m : List Bool) : bitsValue (l ++ m) = bitsValue l + 2 ^ l.length * bitsValue m := by
  induction l with
  | nil => simp
  | cons b l ih => rw [List.cons_append, bitsValue_cons, bitsValue_cons, ih, List.length_cons, pow_succ]; ring

/-- Bit `i` of the value is bit `i` of the list. -/
theorem testBit_bitsValue (l : List Bool) (i : Nat) : (bitsValue l).testBit i = l[i]?.getD false := by
  induction l generalizing i with
  | nil => simp
  | cons b l ih =>
    cases i with
    | zero => cases b <;> simp [bitsValue_cons, Nat.testBit_zero, Nat.add_mod]
    | succ i =>
      rw [Nat.testBit_succ, bitsValue_cons, show ((if b then 1 else 0) + 2 * bitsValue l) / 2 = bitsValue l by split <;> omega, ih]
      simp

/-- A value that fits its width is the value of its bits. -/
theorem bitsValue_fieldBits {v n : Nat} (h : v < 2 ^ n) : bitsValue (fieldBits v n) = v := by
  refine Nat.eq_of_testBit_eq fun i => ?_
  rw [testBit_bitsValue, fieldBits]
  rcases Nat.lt_or_ge i n with hi | hi
  · simp [List.getElem?_map, List.getElem?_range hi]
  · rw [Nat.testBit_lt_two_pow (Nat.lt_of_lt_of_le h (Nat.pow_le_pow_right (by decide) hi))]
    simp [List.getElem?_eq_none (show (List.range n).length ≤ i by simpa using hi)]

/-- The bits of a list's value are the list. -/
theorem fieldBits_bitsValue (l : List Bool) : fieldBits (bitsValue l) l.length = l := by
  refine List.ext_getElem (by simp) fun i h1 h2 => ?_
  simp [fieldBits, testBit_bitsValue, List.getElem?_eq_getElem h2]

theorem fieldBits_append (v w m n : Nat) (hv : v < 2 ^ m) : fieldBits (v + 2 ^ m * w) (m + n) = fieldBits v m ++ fieldBits w n := by
  have h := fieldBits_bitsValue (fieldBits v m ++ fieldBits (w % 2 ^ n) n)
  rw [bitsValue_append, bitsValue_fieldBits hv, bitsValue_fieldBits (Nat.mod_lt _ (by positivity)), length_fieldBits,
    List.length_append, length_fieldBits, length_fieldBits] at h
  have e : fieldBits (w % 2 ^ n) n = fieldBits w n := by
    refine List.map_congr_left fun i hi => ?_
    simp [Nat.testBit_mod_two_pow, List.mem_range.1 hi]
  rw [e] at h
  rw [← h]
  refine List.map_congr_left fun i hi => ?_
  have hi' := List.mem_range.1 hi
  rw [Nat.add_comm v, Nat.add_comm v, Nat.testBit_two_pow_mul_add _ hv, Nat.testBit_two_pow_mul_add _ hv]
  split
  · rfl
  · simp [Nat.testBit_mod_two_pow, show i - m < n by omega]

theorem fieldBits_zero_width (v : Nat) : fieldBits v 0 = [] := rfl

/-- A zero field is zero bits. -/
theorem fieldBits_zero (n : Nat) : fieldBits 0 n = List.replicate n false := by
  refine List.ext_getElem (by simp) fun i h1 h2 => ?_
  simp [fieldBits]

end Sys2Proof.Machine
end

