-- ==== Sys2Proof/Laws/Accumulator.lean ====
section
/-! SUPPORT. One accumulator: what each micro-operation does to its pending bits, and that it keeps INV-ORDER and INV-CLEAN
(40_accumulator.md R101 to R110). -/

namespace Sys2Proof.Machine

variable {a : Acc} {v : Word} {n k : Nat}

/-- Bit `i` of a mask (R101). -/
theorem getLsbD_mask (n i : Nat) : (mask n).getLsbD i = (decide (i < 64) && decide (i < n)) := by
  rw [mask, BitVec.getLsbD_ofNat, Nat.testBit_two_pow_sub_one]

/-- INV-CLEAN bit by bit (R27). -/
theorem Acc.clean_iff : a.Clean ↔ ∀ i, a.stop ≤ i → a.reg.getLsbD i = false := by
  constructor
  · intro h i hi
    have := congrArg (fun x => BitVec.getLsbD x (i - a.stop)) h
    simpa [BitVec.getLsbD_ushiftRight, show a.stop + (i - a.stop) = i by omega] using this
  · intro h
    refine BitVec.eq_of_getLsbD_eq fun i hi => ?_
    simp [BitVec.getLsbD_ushiftRight, h]

@[simp] theorem Acc.length_bits : a.bits.length = a.avail := by simp [Acc.bits]

theorem Acc.getElem_bits {i : Nat} (h : i < a.bits.length) : a.bits[i] = a.reg.getLsbD (a.start + i) := by
  simp [Acc.bits]

@[simp] theorem Acc.bits_empty : Acc.empty.bits = [] := rfl

/-- Nothing pending is the empty accumulator, after a NORMALIZE. -/
theorem Acc.eq_empty_of_avail (h : a.Normal) (h0 : a.avail = 0) : a = Acc.empty := by
  rcases h with h | h
  · exact h
  · simp [Acc.avail] at h0; omega

theorem Acc.ordered_empty : Acc.empty.Ordered := by decide

theorem Acc.clean_empty : Acc.empty.Clean := by decide

/-! ### EXTRACT (R102) -/

/-- Bit `i` of the field is the register's bit `start + i`. -/
theorem Acc.getLsbD_extract (a : Acc) (n i : Nat) (hi : i < 64) :
    (a.extract n).getLsbD i = (a.reg.getLsbD (a.start + i) && decide (i < n)) := by
  rw [Acc.extract, BitVec.getLsbD_and, getLsbD_mask, BitVec.getLsbD_ushiftRight]
  simp [hi]

/-- The field is the value of the next `n` bits of the stream. -/
theorem Acc.extract_eq (h : n ≤ a.avail) : a.extract n = BitVec.ofNat 64 (bitsValue (a.bits.take n)) := by
  refine BitVec.eq_of_getLsbD_eq fun i hi => ?_
  rw [Acc.getLsbD_extract a n i hi, BitVec.getLsbD_ofNat, testBit_bitsValue]
  rcases Nat.lt_or_ge i n with hin | hin
  · have hb : i < a.bits.length := by rw [Acc.length_bits]; omega
    simp [hi, hin, List.getElem?_eq_getElem hb, Acc.getElem_bits]
  · simp [show ¬ i < n by omega]

/-! ### INSERT (R103, R104) -/

@[simp] theorem Acc.insert_start : (a.insert v n).start = a.start := rfl

@[simp] theorem Acc.insert_stop : (a.insert v n).stop = a.stop + n := rfl

theorem Acc.getLsbD_insert (i : Nat) : (a.insert v n).reg.getLsbD i =
    (a.reg.getLsbD i || (decide (i < 64) && !decide (i < a.stop) && (v.getLsbD (i - a.stop) && (decide (i - a.stop < 64) && decide (i - a.stop < n))))) := by
  simp [Acc.insert, getLsbD_mask]

theorem Acc.ordered_insert (h : a.Ordered) (hc : a.stop + n ≤ 64) : (a.insert v n).Ordered := by
  simp [Acc.Ordered] at *; omega

theorem Acc.clean_insert (h : a.Clean) : (a.insert v n).Clean := by
  rw [Acc.clean_iff] at *
  intro i hi
  rw [Acc.insert_stop] at hi
  rw [Acc.getLsbD_insert, h i (by omega)]
  simp only [Bool.false_or, Bool.and_eq_false_imp]
  intros
  simp; omega

theorem Acc.avail_insert (h : a.Ordered) : (a.insert v n).avail = a.avail + n := by
  simp [Acc.avail, Acc.Ordered] at *; omega

/-- INSERT appends the field's bits to the pending ones. -/
theorem Acc.bits_insert (ho : a.Ordered) (hcl : a.Clean) (hc : a.stop + n ≤ 64) :
    (a.insert v n).bits = a.bits ++ fieldBits v.toNat n := by
  refine List.ext_getElem (by simp [Acc.avail_insert ho]) fun i h1 h2 => ?_
  rw [Acc.length_bits, Acc.avail_insert ho] at h1
  rw [Acc.getElem_bits, Acc.insert_start, Acc.getLsbD_insert, List.getElem_append]
  have hav : a.stop = a.start + a.avail := by simp [Acc.avail, Acc.Ordered] at *; omega
  simp only [Acc.length_bits]
  split
  · next hi =>
    rw [Acc.getElem_bits, show decide (a.start + i < a.stop) = true by simp; omega]
    simp
  · next hi =>
    rw [(Acc.clean_iff.1 hcl) _ (by omega), show a.start + i - a.stop = i - a.avail by omega]
    simp only [fieldBits, List.getElem_map, List.getElem_range, Bool.false_or]
    rw [show decide (a.start + i < 64) = true by simp; omega, show decide (a.start + i < a.stop) = false by simp; omega,
      show decide (i - a.avail < 64) = true by simp; omega, show decide (i - a.avail < n) = true by simp; omega]
    simp [BitVec.getLsbD]

/-! ### Consume or emit, and NORMALIZE (R105, R106) -/

@[simp] theorem Acc.advance_start : (a.advance k).start = a.start + k := rfl
@[simp] theorem Acc.advance_stop : (a.advance k).stop = a.stop := rfl
@[simp] theorem Acc.advance_reg : (a.advance k).reg = a.reg := rfl

/-- Consuming drops the next bits. -/
theorem Acc.bits_advance : (a.advance k).bits = a.bits.drop k := by
  refine List.ext_getElem (by simp [Acc.avail]; omega) fun i h1 h2 => ?_
  rw [Acc.getElem_bits, List.getElem_drop, Acc.getElem_bits]
  simp [Nat.add_assoc]

theorem Acc.ordered_advance (h : a.Ordered) (hk : k ≤ a.avail) : (a.advance k).Ordered := by
  simp [Acc.Ordered, Acc.avail] at *; omega

theorem Acc.clean_advance (h : a.Clean) : (a.advance k).Clean := h

/-- NORMALIZE changes no pending bit. -/
theorem Acc.bits_normalize : a.normalize.bits = a.bits := by
  unfold Acc.normalize
  split
  · next he => simp [Acc.bits, Acc.avail, he]
  · split
    · refine List.ext_getElem (by simp [Acc.avail]) fun i h1 h2 => ?_
      rw [Acc.getElem_bits, Acc.getElem_bits]
      simp [BitVec.getLsbD_ushiftRight]
    · rfl

theorem Acc.ordered_normalize (h : a.Ordered) : a.normalize.Ordered := by
  unfold Acc.normalize
  split
  · simp [Acc.Ordered]
  · split
    · simp [Acc.Ordered] at *; omega
    · exact h

theorem Acc.clean_normalize (h : a.Clean) : a.normalize.Clean := by
  unfold Acc.normalize
  split
  · simp [Acc.Clean]
  · split
    · rw [Acc.clean_iff] at *
      intro i hi
      simp only [BitVec.getLsbD_ushiftRight]
      exact h _ (by simp at hi; omega)
    · exact h

theorem Acc.normal_normalize (h : a.Ordered) : a.normalize.Normal := by
  unfold Acc.normalize
  split
  · exact .inl rfl
  · split
    · refine .inr ?_
      simp [Acc.Ordered] at *; omega
    · next h8 => exact .inr (by simp [Acc.Ordered, Config.byteBits] at *; omega)

/-- What NORMALIZE leaves is left alone by a second one. -/
theorem Acc.normalize_of_normal (h : a.Normal) : a.normalize = a := by
  rcases h with rfl | h
  · rfl
  · unfold Acc.normalize
    rw [if_neg (by omega), if_neg (by simp [Config.byteBits]; omega)]

/-! ### The pad step of FLUSH (R150) -/

theorem Acc.ordered_pad (h : a.Ordered) (h0 : a.start = 0) : a.pad.Ordered := by
  simp [Acc.Ordered, Acc.pad, ceilDiv8, Config.byteBits] at *; omega

theorem Acc.clean_pad (ho : a.Ordered) (h : a.Clean) : a.pad.Clean := by
  rw [Acc.clean_iff] at *
  intro i hi
  exact h i (by simp [Acc.pad, ceilDiv8, Acc.Ordered, Config.byteBits] at *; omega)

theorem Acc.avail_pad : a.pad.avail = 8 * ceilDiv8 a.avail := by
  simp [Acc.avail, Acc.pad, Config.byteBits]

/-- The padding is zero bits. -/
theorem Acc.bits_pad (h : a.Clean) :
    a.pad.bits = a.bits ++ List.replicate (8 * ceilDiv8 a.avail - a.avail) false := by
  have hle : a.avail ≤ 8 * ceilDiv8 a.avail := by simp [ceilDiv8]; omega
  refine List.ext_getElem (by simp [Acc.avail_pad]; omega) fun i h1 h2 => ?_
  rw [Acc.getElem_bits, List.getElem_append]
  split
  · rw [Acc.getElem_bits]; rfl
  · next hi =>
    rw [List.getElem_replicate]
    exact Acc.clean_iff.1 h _ (by simp [Acc.avail] at *; show a.stop ≤ a.start + i; omega)

end Sys2Proof.Machine
end

