-- ==== Sys2Proof/Laws/Encoding.lean ====
section
/-! SUPPORT. The fields of a packed command word, and a word from its fields (30_encoding.md R74). -/

namespace Sys2Proof

@[simp] theorem packCmd_op (op : BitVec 4) (n arg : Nat) : (packCmd op n arg).op = op := by
  refine BitVec.eq_of_getLsbD_eq fun i hi => ?_
  rw [CmdWord.op, BitVec.getLsbD_extractLsb', packCmd, BitVec.getLsbD_append]
  simp [hi]

@[simp] theorem packCmd_rsv (op : BitVec 4) (n arg : Nat) : (packCmd op n arg).rsv = 0#4 := by
  refine BitVec.eq_of_getLsbD_eq fun i hi => ?_
  rw [CmdWord.rsv, BitVec.getLsbD_extractLsb', packCmd, BitVec.getLsbD_append, BitVec.getLsbD_append]
  simp [hi]

@[simp] theorem packCmd_n (op : BitVec 4) (n arg : Nat) : (packCmd op n arg).n = BitVec.ofNat 8 n := by
  refine BitVec.eq_of_getLsbD_eq fun i hi => ?_
  rw [CmdWord.n, BitVec.getLsbD_extractLsb', packCmd, BitVec.getLsbD_append, BitVec.getLsbD_append, BitVec.getLsbD_append]
  simp [hi, show ¬ 8 + i < 4 by omega, show ¬ 8 + i - 4 < 4 by omega, show 8 + i - 4 - 4 = i by omega]

@[simp] theorem packCmd_arg (op : BitVec 4) (n arg : Nat) : (packCmd op n arg).arg = BitVec.ofNat 64 arg := by
  refine BitVec.eq_of_getLsbD_eq fun i hi => ?_
  rw [CmdWord.arg, BitVec.getLsbD_extractLsb', packCmd, BitVec.getLsbD_append, BitVec.getLsbD_append, BitVec.getLsbD_append]
  simp [hi, show ¬ 16 + i < 4 by omega, show ¬ 16 + i - 4 < 4 by omega, show ¬ 16 + i - 4 - 4 < 8 by omega,
    show 16 + i - 4 - 4 - 8 = i by omega]

/-- A word is its four fields. -/
theorem word_ext {w x : CmdWord} (h1 : w.op = x.op) (h2 : w.rsv = x.rsv) (h3 : w.n = x.n) (h4 : w.arg = x.arg) : w = x := by
  refine BitVec.eq_of_getLsbD_eq fun i hi => ?_
  have e1 := congrArg (fun v => BitVec.getLsbD v i) h1
  have e2 := congrArg (fun v => BitVec.getLsbD v (i - 4)) h2
  have e3 := congrArg (fun v => BitVec.getLsbD v (i - 8)) h3
  have e4 := congrArg (fun v => BitVec.getLsbD v (i - 16)) h4
  simp only [CmdWord.op, CmdWord.rsv, CmdWord.n, CmdWord.arg, BitVec.getLsbD_extractLsb'] at e1 e2 e3 e4
  rcases Nat.lt_or_ge i 4 with h | h
  · simpa [h] using e1
  · rcases Nat.lt_or_ge i 8 with h' | h'
    · simpa [show i - 4 < 4 by omega, show 4 + (i - 4) = i by omega] using e2
    · rcases Nat.lt_or_ge i 16 with h'' | h''
      · simpa [show i - 8 < 8 by omega, show 8 + (i - 8) = i by omega] using e3
      · simpa [show i - 16 < 64 by omega, show 16 + (i - 16) = i by omega] using e4

/-- An operand that fits its field comes back from it (R76). -/
theorem toNat_fieldN {n : Nat} (h : fitsN n = true) : (BitVec.ofNat 8 n).toNat = n := by
  simpa [fitsN] using h

theorem toNat_fieldArg {a : Nat} (h : fitsArg a = true) : (BitVec.ofNat 64 a).toNat = a := by
  simpa [fitsArg, Config.W] using h

end Sys2Proof
end

