-- ==== Sys2Proof/Laws/State.lean ====
section
/-! SUPPORT. One lemma per field per update of the state, so that no later proof unfolds a record update. -/

namespace Sys2Proof.Machine

variable (s : State)

/-! ### `State.setRd` -/

@[simp] theorem State.setRd_rd (a : Acc) : (s.setRd a).rd = a := rfl
@[simp] theorem State.setRd_wr (a : Acc) : (s.setRd a).wr = s.wr := rfl
@[simp] theorem State.setRd_source (a : Acc) : (s.setRd a).source = s.source := rfl
@[simp] theorem State.setRd_sink (a : Acc) : (s.setRd a).sink = s.sink := rfl
@[simp] theorem State.setRd_dest (a : Acc) : (s.setRd a).dest = s.dest := rfl
@[simp] theorem State.setRd_src (a : Acc) : (s.setRd a).src = s.src := rfl
@[simp] theorem State.setRd_calls (a : Acc) : (s.setRd a).calls = s.calls := rfl
@[simp] theorem State.setRd_port (a : Acc) : (s.setRd a).port = s.port := rfl
@[simp] theorem State.setRd_responses (a : Acc) : (s.setRd a).responses = s.responses := rfl

/-! ### `State.setWr` -/

@[simp] theorem State.setWr_rd (a : Acc) : (s.setWr a).rd = s.rd := rfl
@[simp] theorem State.setWr_wr (a : Acc) : (s.setWr a).wr = a := rfl
@[simp] theorem State.setWr_source (a : Acc) : (s.setWr a).source = s.source := rfl
@[simp] theorem State.setWr_sink (a : Acc) : (s.setWr a).sink = s.sink := rfl
@[simp] theorem State.setWr_dest (a : Acc) : (s.setWr a).dest = s.dest := rfl
@[simp] theorem State.setWr_src (a : Acc) : (s.setWr a).src = s.src := rfl
@[simp] theorem State.setWr_calls (a : Acc) : (s.setWr a).calls = s.calls := rfl
@[simp] theorem State.setWr_port (a : Acc) : (s.setWr a).port = s.port := rfl
@[simp] theorem State.setWr_responses (a : Acc) : (s.setWr a).responses = s.responses := rfl

/-! ### `State.setSource` -/

@[simp] theorem State.setSource_rd (q : Source) : (s.setSource q).rd = s.rd := rfl
@[simp] theorem State.setSource_wr (q : Source) : (s.setSource q).wr = s.wr := rfl
@[simp] theorem State.setSource_source (q : Source) : (s.setSource q).source = q := rfl
@[simp] theorem State.setSource_sink (q : Source) : (s.setSource q).sink = s.sink := rfl
@[simp] theorem State.setSource_dest (q : Source) : (s.setSource q).dest = s.dest := rfl
@[simp] theorem State.setSource_src (q : Source) : (s.setSource q).src = s.src := rfl
@[simp] theorem State.setSource_calls (q : Source) : (s.setSource q).calls = s.calls := rfl
@[simp] theorem State.setSource_port (q : Source) : (s.setSource q).port = s.port := rfl
@[simp] theorem State.setSource_responses (q : Source) : (s.setSource q).responses = s.responses := rfl

/-! ### `State.setSink` -/

@[simp] theorem State.setSink_rd (k : Sink) : (s.setSink k).rd = s.rd := rfl
@[simp] theorem State.setSink_wr (k : Sink) : (s.setSink k).wr = s.wr := rfl
@[simp] theorem State.setSink_source (k : Sink) : (s.setSink k).source = s.source := rfl
@[simp] theorem State.setSink_sink (k : Sink) : (s.setSink k).sink = k := rfl
@[simp] theorem State.setSink_dest (k : Sink) : (s.setSink k).dest = s.dest := rfl
@[simp] theorem State.setSink_src (k : Sink) : (s.setSink k).src = s.src := rfl
@[simp] theorem State.setSink_calls (k : Sink) : (s.setSink k).calls = s.calls := rfl
@[simp] theorem State.setSink_port (k : Sink) : (s.setSink k).port = s.port := rfl
@[simp] theorem State.setSink_responses (k : Sink) : (s.setSink k).responses = s.responses := rfl

/-! ### `State.setDest` -/

@[simp] theorem State.setDest_rd (m : Memory) : (s.setDest m).rd = s.rd := rfl
@[simp] theorem State.setDest_wr (m : Memory) : (s.setDest m).wr = s.wr := rfl
@[simp] theorem State.setDest_source (m : Memory) : (s.setDest m).source = s.source := rfl
@[simp] theorem State.setDest_sink (m : Memory) : (s.setDest m).sink = s.sink := rfl
@[simp] theorem State.setDest_dest (m : Memory) : (s.setDest m).dest = m := rfl
@[simp] theorem State.setDest_src (m : Memory) : (s.setDest m).src = s.src := rfl
@[simp] theorem State.setDest_calls (m : Memory) : (s.setDest m).calls = s.calls := rfl
@[simp] theorem State.setDest_port (m : Memory) : (s.setDest m).port = s.port := rfl
@[simp] theorem State.setDest_responses (m : Memory) : (s.setDest m).responses = s.responses := rfl

/-! ### `State.log` -/

@[simp] theorem State.log_rd (c : Access) : (s.log c).rd = s.rd := rfl
@[simp] theorem State.log_wr (c : Access) : (s.log c).wr = s.wr := rfl
@[simp] theorem State.log_source (c : Access) : (s.log c).source = s.source := rfl
@[simp] theorem State.log_sink (c : Access) : (s.log c).sink = s.sink := rfl
@[simp] theorem State.log_dest (c : Access) : (s.log c).dest = s.dest := rfl
@[simp] theorem State.log_src (c : Access) : (s.log c).src = s.src := rfl
@[simp] theorem State.log_calls (c : Access) : (s.log c).calls = s.calls ++ [c] := rfl
@[simp] theorem State.log_port (c : Access) : (s.log c).port = s.port := rfl
@[simp] theorem State.log_responses (c : Access) : (s.log c).responses = s.responses := rfl

/-! ### `State.respond` -/

@[simp] theorem State.respond_rd (r : Response) : (s.respond r).rd = s.rd := rfl
@[simp] theorem State.respond_wr (r : Response) : (s.respond r).wr = s.wr := rfl
@[simp] theorem State.respond_source (r : Response) : (s.respond r).source = s.source := rfl
@[simp] theorem State.respond_sink (r : Response) : (s.respond r).sink = s.sink := rfl
@[simp] theorem State.respond_dest (r : Response) : (s.respond r).dest = s.dest := rfl
@[simp] theorem State.respond_src (r : Response) : (s.respond r).src = s.src := rfl
@[simp] theorem State.respond_calls (r : Response) : (s.respond r).calls = s.calls := rfl
@[simp] theorem State.respond_port (r : Response) : (s.respond r).port = s.port := rfl
@[simp] theorem State.respond_responses (r : Response) : (s.respond r).responses = s.responses ++ [r] := rfl

/-! ### `State.accept` -/

@[simp] theorem State.accept_rd (c : Command) (l : List HostInput) : (s.accept c l).rd = s.rd := rfl
@[simp] theorem State.accept_wr (c : Command) (l : List HostInput) : (s.accept c l).wr = s.wr := rfl
@[simp] theorem State.accept_source (c : Command) (l : List HostInput) : (s.accept c l).source = s.source := rfl
@[simp] theorem State.accept_sink (c : Command) (l : List HostInput) : (s.accept c l).sink = s.sink := rfl
@[simp] theorem State.accept_dest (c : Command) (l : List HostInput) : (s.accept c l).dest = c.dest := rfl
@[simp] theorem State.accept_src (c : Command) (l : List HostInput) : (s.accept c l).src = c.src := rfl
@[simp] theorem State.accept_calls (c : Command) (l : List HostInput) : (s.accept c l).calls = s.calls := rfl
@[simp] theorem State.accept_port (c : Command) (l : List HostInput) : (s.accept c l).port = l := rfl
@[simp] theorem State.accept_responses (c : Command) (l : List HostInput) : (s.accept c l).responses = s.responses := rfl

/-! ### `State.resetBlock` -/

@[simp] theorem State.resetBlock_rd (l : List HostInput) : (s.resetBlock l).rd = Acc.empty := rfl
@[simp] theorem State.resetBlock_wr (l : List HostInput) : (s.resetBlock l).wr = Acc.empty := rfl
@[simp] theorem State.resetBlock_source (l : List HostInput) : (s.resetBlock l).source = s.source := rfl
@[simp] theorem State.resetBlock_sink (l : List HostInput) : (s.resetBlock l).sink = s.sink := rfl
@[simp] theorem State.resetBlock_dest (l : List HostInput) : (s.resetBlock l).dest = s.dest := rfl
@[simp] theorem State.resetBlock_src (l : List HostInput) : (s.resetBlock l).src = s.src := rfl
@[simp] theorem State.resetBlock_calls (l : List HostInput) : (s.resetBlock l).calls = s.calls := rfl
@[simp] theorem State.resetBlock_port (l : List HostInput) : (s.resetBlock l).port = l := rfl
@[simp] theorem State.resetBlock_responses (l : List HostInput) : (s.resetBlock l).responses = s.responses := rfl

end Sys2Proof.Machine
end

