-- ==== Sys2Proof/Laws/Environment.lean ====
section
/-! SUPPORT. The transports: each call once, and what a run of calls can meet (20_memory.md R41, R42). -/

namespace Sys2Proof.Machine

/-- A source call has one of three results: it hangs, or it answers and is recorded. -/
theorem srcRead_eq (s : State) :
    srcRead s = s.source.next.map fun p => (p.1, { s with source := p.2, calls := s.calls ++ [.srcRead p.1] }) := by
  unfold srcRead
  cases s.source.next <;> rfl

/-- A sink call has one of three results: it hangs, or it answers, appends on `OK`, and is recorded. -/
theorem snkWrite_eq (b : Byte) (s : State) :
    snkWrite b s = s.sink.next.map fun p => (p.1, { s with sink := p.2.took b p.1, calls := s.calls ++ [.snkWrite b p.1] }) := by
  unfold snkWrite
  cases s.sink.next <;> rfl

/-- An answer does not change whether the source answers for ever. -/
theorem Source.next_rest {q q' : Source} {a : SrcAnswer} (h : q.next = some (a, q')) : q'.rest = q.rest := by
  unfold Source.next at h
  split at h
  · cases h; rfl
  · split at h <;> cases h; rfl

theorem Sink.next_rest {k k' : Sink} {a : SnkAnswer} (h : k.next = some (a, k')) : k'.rest = k.rest := by
  unfold Sink.next at h
  split at h
  · cases h; rfl
  · split at h <;> cases h; rfl

/-- Asking the sink changes nothing it has accepted; only `took` appends. -/
theorem Sink.next_out {k k' : Sink} {a : SnkAnswer} (h : k.next = some (a, k')) : k'.out = k.out := by
  unfold Sink.next at h
  split at h
  · cases h; rfl
  · split at h <;> cases h; rfl

@[simp] theorem Sink.took_rest (k : Sink) (b : Byte) (a : SnkAnswer) : (k.took b a).rest = k.rest := by cases a <;> rfl

@[simp] theorem Sink.took_ok_out (k : Sink) (b : Byte) : (k.took b .ok).out = k.out ++ [b] := rfl

@[simp] theorem Sink.took_fail (k : Sink) (b : Byte) (e : TErr) : k.took b (.fail e) = k := rfl

/-- A source that answers for ever answers. -/
theorem Source.next_isSome {q : Source} (h : q.rest ≠ none) : q.next ≠ none := by
  unfold Source.next
  split
  · simp
  · split
    · simp
    · next hr => exact absurd hr h

theorem Sink.next_isSome {k : Sink} (h : k.rest ≠ none) : k.next ≠ none := by
  unfold Sink.next
  split
  · simp
  · split
    · simp
    · next hr => exact absurd hr h

/-! ### Deliveries -/

@[simp] theorem Source.delivers_nil {q q' : Source} : q.Delivers [] q' ↔ q' = q := Iff.rfl

theorem Source.delivers_cons {q q' : Source} {b : Byte} {bs : List Byte} :
    q.Delivers (b :: bs) q' ↔ ∃ q1, q.next = some (.byte b, q1) ∧ q1.Delivers bs q' := Iff.rfl

theorem Source.delivers_append {q q' : Source} {bs cs : List Byte} :
    q.Delivers (bs ++ cs) q' ↔ ∃ q1, q.Delivers bs q1 ∧ q1.Delivers cs q' := by
  induction bs generalizing q with
  | nil => simp
  | cons b bs ih =>
    simp only [List.cons_append, Source.delivers_cons, ih]
    constructor
    · rintro ⟨q1, h, q2, h1, h2⟩; exact ⟨q2, ⟨q1, h, h1⟩, h2⟩
    · rintro ⟨q2, ⟨q1, h, h1⟩, h2⟩; exact ⟨q1, h, q2, h1, h2⟩

/-- Two deliveries from one source: the shorter is a front part of the longer. -/
theorem Source.delivers_split {q q1 q2 : Source} {bs cs : List Byte} (h1 : q.Delivers bs q1) (h2 : q.Delivers cs q2)
    (h : bs.length ≤ cs.length) : ∃ ds, cs = bs ++ ds ∧ q1.Delivers ds q2 := by
  induction bs generalizing q cs with
  | nil => exact ⟨cs, rfl, by rw [Source.delivers_nil] at h1; exact h1 ▸ h2⟩
  | cons b bs ih =>
    cases cs with
    | nil => simp at h
    | cons c cs =>
      obtain ⟨p1, e1, h1⟩ := h1
      obtain ⟨p2, e2, h2⟩ := h2
      rw [e1] at e2
      cases e2
      obtain ⟨ds, rfl, h3⟩ := ih h1 h2 (by simpa using h)
      exact ⟨ds, rfl, h3⟩

/-- Two deliveries of one length are the same. -/
theorem Source.delivers_unique {q q1 q2 : Source} {bs cs : List Byte} (h1 : q.Delivers bs q1) (h2 : q.Delivers cs q2)
    (h : bs.length = cs.length) : bs = cs ∧ q1 = q2 := by
  obtain ⟨ds, rfl, h3⟩ := Source.delivers_split h1 h2 h.le
  have : ds = [] := by simpa using h
  subst this
  exact ⟨by simp, by simpa using h3.symm⟩

/-- A source that stops before the end of a delivery does not deliver it. -/
theorem Source.delivers_stop {q q1 q2 : Source} {bs cs : List Byte} (h1 : q.Delivers bs q1) (h2 : q.Delivers cs q2)
    (h : bs.length < cs.length) : ∃ b q3, q1.next = some (.byte b, q3) := by
  obtain ⟨ds, rfl, h3⟩ := Source.delivers_split h1 h2 h.le
  cases ds with
  | nil => simp at h
  | cons d ds => obtain ⟨q3, e, -⟩ := h3; exact ⟨d, q3, e⟩

theorem Source.delivers_rest {q q' : Source} {bs : List Byte} (h : q.Delivers bs q') : q'.rest = q.rest := by
  induction bs generalizing q with
  | nil => rw [Source.delivers_nil] at h; rw [h]
  | cons b bs ih => obtain ⟨q1, e, h⟩ := h; rw [ih h, Source.next_rest e]

/-- The reference source over a list of bytes delivers it (R60). -/
theorem Source.delivers_ofBytes (bs cs : List Byte) : (Source.ofBytes (bs ++ cs)).Delivers bs (Source.ofBytes cs) := by
  induction bs with
  | nil => rfl
  | cons b bs ih => exact ⟨Source.ofBytes (bs ++ cs), rfl, ih⟩

/-! ### Acceptances -/

@[simp] theorem Sink.accepts_nil {k k' : Sink} : k.Accepts [] k' ↔ k' = k := Iff.rfl

theorem Sink.accepts_cons {k k' : Sink} {b : Byte} {bs : List Byte} :
    k.Accepts (b :: bs) k' ↔ ∃ k1, k.next = some (.ok, k1) ∧ (k1.took b .ok).Accepts bs k' := Iff.rfl

theorem Sink.accepts_append {k k' : Sink} {bs cs : List Byte} :
    k.Accepts (bs ++ cs) k' ↔ ∃ k1, k.Accepts bs k1 ∧ k1.Accepts cs k' := by
  induction bs generalizing k with
  | nil => simp
  | cons b bs ih =>
    simp only [List.cons_append, Sink.accepts_cons, ih]
    constructor
    · rintro ⟨q1, h, q2, h1, h2⟩; exact ⟨q2, ⟨q1, h, h1⟩, h2⟩
    · rintro ⟨q2, ⟨q1, h, h1⟩, h2⟩; exact ⟨q1, h, q2, h1, h2⟩

/-- What the sink has accepted is appended, in order. -/
theorem Sink.accepts_out {k k' : Sink} {bs : List Byte} (h : k.Accepts bs k') : k'.out = k.out ++ bs := by
  induction bs generalizing k with
  | nil => rw [Sink.accepts_nil] at h; simp [h]
  | cons b bs ih => obtain ⟨k1, e, h⟩ := h; rw [ih h, Sink.took_ok_out, Sink.next_out e]; simp

theorem Sink.accepts_rest {k k' : Sink} {bs : List Byte} (h : k.Accepts bs k') : k'.rest = k.rest := by
  induction bs generalizing k with
  | nil => rw [Sink.accepts_nil] at h; rw [h]
  | cons b bs ih => obtain ⟨k1, e, h⟩ := h; rw [ih h, Sink.took_rest, Sink.next_rest e]

/-- Two acceptances that offer the same bytes agree; the shorter is a front part of the longer. -/
theorem Sink.accepts_split {k k1 k2 : Sink} {bs ds : List Byte} (h1 : k.Accepts bs k1) (h2 : k.Accepts (bs ++ ds) k2) :
    k1.Accepts ds k2 := by
  obtain ⟨k3, h3, h4⟩ := Sink.accepts_append.1 h2
  have : k3 = k1 := by
    clear h2 h4
    induction bs generalizing k with
    | nil => simp_all
    | cons b bs ih =>
      obtain ⟨p1, e1, h1⟩ := h1
      obtain ⟨p2, e2, h3⟩ := h3
      rw [e1] at e2
      cases e2
      exact ih h1 h3
  exact this ▸ h4

/-- A willing sink accepts every byte. -/
theorem Sink.willing_accepts {k : Sink} (h : k.Willing) (bs : List Byte) : k.Accepts bs { k with out := k.out ++ bs } := by
  induction bs generalizing k with
  | nil => simp
  | cons b bs ih =>
    refine ⟨k, ?_, ?_⟩
    · simp [Sink.next, h.1, h.2]
    · simpa [Sink.took] using ih (k := k.took b .ok) h

end Sys2Proof.Machine
end

