-- ==== Sys2Proof/Laws/Memory.lean ====
section
/-! SUPPORT. Host buffers: a store keeps the canonical form, and reads back at its own index alone. -/

namespace Sys2Proof.Machine

@[simp] theorem Memory.read_nil (a : Nat) : Memory.read [] a = Memory.fill := rfl

theorem Memory.read_cons (k : Nat) (v : Byte) (t : Memory) (a : Nat) :
    Memory.read ((k, v) :: t) a = if a = k then v else Memory.read t a := rfl

/-- A canonical list can start anywhere below its first index. -/
theorem Memory.wfFrom_mono {lo lo' : Nat} (h : lo ≤ lo') : ∀ {m : Memory}, Memory.wfFrom lo' m = true → Memory.wfFrom lo m = true
  | [], _ => rfl
  | (k, v) :: t, hm => by
    simp only [Memory.wfFrom, Bool.and_eq_true, decide_eq_true_eq] at hm ⊢
    exact ⟨⟨h.trans hm.1.1, hm.1.2⟩, hm.2⟩

/-- Below its first index a canonical list reads as unlisted. -/
theorem Memory.read_below {lo a : Nat} (h : a < lo) : ∀ {m : Memory}, Memory.wfFrom lo m = true → Memory.read m a = Memory.fill
  | [], _ => rfl
  | (k, v) :: t, hm => by
    simp only [Memory.wfFrom, Bool.and_eq_true, decide_eq_true_eq] at hm
    rw [Memory.read_cons, if_neg (by omega)]
    exact Memory.read_below (by omega) hm.2

/-- Adding at the front keeps the form when everything listed lies above. -/
theorem Memory.wfFrom_consEntry {lo a : Nat} (b : Byte) {t : Memory} (h : lo ≤ a) (ht : Memory.wfFrom (a + 1) t = true) :
    Memory.wfFrom lo (Memory.cons a b t) = true := by
  unfold Memory.cons
  split
  · exact Memory.wfFrom_mono (by omega) ht
  · simp_all [Memory.wfFrom]

/-- What the front entry reads as. -/
theorem Memory.read_consEntry {a : Nat} (b : Byte) {t : Memory} (ht : Memory.wfFrom (a + 1) t = true) (c : Nat) :
    Memory.read (Memory.cons a b t) c = if c = a then b else Memory.read t c := by
  unfold Memory.cons
  split
  · next hb =>
    split
    · next hc => rw [hc, Memory.read_below (Nat.lt_succ_self a) ht, hb]
    · rfl
  · rw [Memory.read_cons]

theorem Memory.wfFrom_write {lo a : Nat} (b : Byte) (h : lo ≤ a) :
    ∀ {m : Memory}, Memory.wfFrom lo m = true → Memory.wfFrom lo (Memory.write m a b) = true
  | [], _ => by simpa [Memory.write] using Memory.wfFrom_consEntry b h (t := []) rfl
  | (k, v) :: t, hm => by
    have hm' := hm
    simp only [Memory.wfFrom, Bool.and_eq_true, decide_eq_true_eq] at hm
    unfold Memory.write
    split
    · refine Memory.wfFrom_consEntry b h ?_
      simp only [Memory.wfFrom, Bool.and_eq_true, decide_eq_true_eq]
      exact ⟨⟨by omega, hm.1.2⟩, hm.2⟩
    · split
      · next hk => exact Memory.wfFrom_consEntry b h (hk ▸ hm.2)
      · simp only [Memory.wfFrom, Bool.and_eq_true, decide_eq_true_eq]
        exact ⟨hm.1, Memory.wfFrom_write b (by omega) hm.2⟩

/-- A store keeps the canonical form. -/
theorem Memory.wf_write {m : Memory} (a : Nat) (b : Byte) (h : m.wf = true) : (Memory.write m a b).wf = true :=
  Memory.wfFrom_write b (Nat.zero_le a) h

theorem Memory.read_writeFrom {lo a : Nat} (b : Byte) (h : lo ≤ a) :
    ∀ {m : Memory}, Memory.wfFrom lo m = true → ∀ c, Memory.read (Memory.write m a b) c = if c = a then b else Memory.read m c
  | [], _, c => by simpa [Memory.write] using Memory.read_consEntry b (t := []) rfl c
  | (k, v) :: t, hm, c => by
    have hm' := hm
    simp only [Memory.wfFrom, Bool.and_eq_true, decide_eq_true_eq] at hm
    unfold Memory.write
    split
    · refine Memory.read_consEntry b ?_ c
      simp only [Memory.wfFrom, Bool.and_eq_true, decide_eq_true_eq]
      exact ⟨⟨by omega, hm.1.2⟩, hm.2⟩
    · split
      · next hk =>
        rw [Memory.read_consEntry b (hk ▸ hm.2), Memory.read_cons]
        split
        · rfl
        · rw [if_neg (by omega)]
      · rw [Memory.read_cons, Memory.read_cons, Memory.read_writeFrom b (by omega) hm.2]
        split
        · rw [if_neg (by omega)]
        · rfl

/-- Read after write: the stored byte at its own index, every other index as before. -/
theorem Memory.read_write {m : Memory} (h : m.wf = true) (a : Nat) (b : Byte) (c : Nat) :
    Memory.read (Memory.write m a b) c = if c = a then b else Memory.read m c :=
  Memory.read_writeFrom b (Nat.zero_le a) h c

/-- The buffer built from a list of bytes is canonical. -/
theorem Memory.wfFrom_ofBytesFrom : ∀ (bs : List Byte) (i : Nat), Memory.wfFrom i (Memory.ofBytesFrom i bs) = true
  | [], _ => rfl
  | b :: bs, i => Memory.wfFrom_consEntry b (Nat.le_refl i) (Memory.wfFrom_ofBytesFrom bs (i + 1))

theorem Memory.wf_ofBytes (bs : List Byte) : (Memory.ofBytes bs).wf = true := Memory.wfFrom_ofBytesFrom bs 0

/-- The first `n + 1` bytes are the first `n` and the byte at `n`. -/
theorem Memory.prefixBytes_succ (m : Memory) (n : Nat) : m.prefixBytes (n + 1) = m.prefixBytes n ++ [m.read n] := by
  simp [Memory.prefixBytes, List.range_succ]

@[simp] theorem Memory.prefixBytes_zero (m : Memory) : m.prefixBytes 0 = [] := rfl

@[simp] theorem Memory.length_prefixBytes (m : Memory) (n : Nat) : (m.prefixBytes n).length = n := by
  simp [Memory.prefixBytes]

/-- A store at `n` leaves the first `n` bytes alone. -/
theorem Memory.prefixBytes_write {m : Memory} (h : m.wf = true) (n : Nat) (b : Byte) :
    (Memory.write m n b).prefixBytes n = m.prefixBytes n := by
  refine List.map_congr_left fun i hi => ?_
  rw [Memory.read_write h, if_neg (by have := List.mem_range.1 hi; omega)]

/-! ### The operand forms over the buffers -/

/-- `dest[i] <- b` changes the buffer and the record of accesses, and nothing else. -/
theorem storeDest_eq (i : Nat) (b : Byte) (s : State) :
    storeDest i b s = { s with dest := s.dest.write i b, calls := s.calls ++ [.destStore i b] } := rfl

/-- `src[i]` changes the record of accesses, and nothing else. -/
theorem loadSrc_eq (i : Nat) (s : State) :
    loadSrc i s = (s.src.read i, { s with calls := s.calls ++ [.srcLoad i (s.src.read i)] }) := rfl

end Sys2Proof.Machine
end

