-- ==== Sys2Proof/Laws/PerInstr.lean ====
section
/-! SUPPORT. The family CommandFields: what a well-formed command puts in each field of its word (30_encoding.md R74 to R76, R79),
one lemma per constructor. -/

namespace Sys2Proof.Laws.CommandFields

/-- The four fields of a well-formed command's word: its code, zero, its width or zero, its value or count or zero. -/
def Statement (i : Instr) : Prop :=
  i.wf = true → (encode i).op = i.code ∧ (encode i).rsv = 0#4 ∧ (encode i).n.toNat = i.nOperand ∧ (encode i).arg.toNat = i.argOperand

theorem readBit : Statement .readBit := fun _ => by simp [encode, Instr.nOperand, Instr.argOperand]

theorem readBits (n : Nat) : Statement (.readBits n) := fun h => by
  simp [encode, toNat_fieldN h, Instr.nOperand, Instr.argOperand, -BitVec.toNat_ofNat]

theorem readByte : Statement .readByte := fun _ => by simp [encode, Instr.nOperand, Instr.argOperand]

theorem readBytes (count : Nat) : Statement (.readBytes count) := fun h => by
  simp [encode, toNat_fieldArg h, Instr.nOperand, Instr.argOperand, -BitVec.toNat_ofNat]

theorem srcRead (count : Nat) : Statement (.srcRead count) := fun h => by
  simp [encode, toNat_fieldArg h, Instr.nOperand, Instr.argOperand, -BitVec.toNat_ofNat]

theorem writeBit (v : Nat) : Statement (.writeBit v) := fun h => by
  simp [encode, toNat_fieldArg h, Instr.nOperand, Instr.argOperand, -BitVec.toNat_ofNat]

theorem writeBits (v n : Nat) : Statement (.writeBits v n) := fun h => by
  simp only [Instr.wf, Bool.and_eq_true] at h
  simp [encode, toNat_fieldArg h.1, toNat_fieldN h.2, Instr.nOperand, Instr.argOperand, -BitVec.toNat_ofNat]

theorem writeByte (v : Nat) : Statement (.writeByte v) := fun h => by
  simp [encode, toNat_fieldArg h, Instr.nOperand, Instr.argOperand, -BitVec.toNat_ofNat]

theorem writeBytes (count : Nat) : Statement (.writeBytes count) := fun h => by
  simp [encode, toNat_fieldArg h, Instr.nOperand, Instr.argOperand, -BitVec.toNat_ofNat]

theorem flush : Statement .flush := fun _ => by simp [encode, Instr.nOperand, Instr.argOperand]

end Sys2Proof.Laws.CommandFields
end

