-- ==== Sys2Proof/Laws/Reader.lean ====
section
/-! SUPPORT. The reader unit: everything REFILL, a field read and the byte loop can do (41_reader.md R121 to R135). -/

namespace Sys2Proof.Machine

/-! ### Bytes put in by a refill -/

/-- The accumulator after a refill has inserted the given bytes (R121). -/
def Acc.insertBytes (a : Acc) (bs : List Byte) : Acc := bs.foldl (fun c b => c.insert (byteOperand b) 8) a

theorem Acc.insertBytes_cons (a : Acc) (b : Byte) (bs : List Byte) :
    a.insertBytes (b :: bs) = (a.insert (byteOperand b) 8).insertBytes bs := rfl

@[simp] theorem Acc.insertBytes_start (a : Acc) (bs : List Byte) : (a.insertBytes bs).start = a.start := by
  induction bs generalizing a with
  | nil => rfl
  | cons b bs ih => rw [Acc.insertBytes_cons, ih, Acc.insert_start]

@[simp] theorem Acc.insertBytes_stop (a : Acc) (bs : List Byte) : (a.insertBytes bs).stop = a.stop + 8 * bs.length := by
  induction bs generalizing a with
  | nil => rfl
  | cons b bs ih => rw [Acc.insertBytes_cons, ih, Acc.insert_stop, List.length_cons]; omega

theorem toNat_byteOperand (b : Byte) : (byteOperand b).toNat = b.toNat := by
  have := b.isLt
  simp [byteOperand]; omega

/-- The inserted bytes are pending above what was pending before (R121, R124). -/
theorem Acc.insertBytes_spec {a : Acc} {bs : List Byte} (ho : a.Ordered) (hc : a.Clean) (h : a.stop + 8 * bs.length ≤ 64) :
    (a.insertBytes bs).Ordered ∧ (a.insertBytes bs).Clean ∧ (a.insertBytes bs).bits = a.bits ++ bytesBits bs := by
  induction bs generalizing a with
  | nil => exact ⟨ho, hc, by simp [Acc.insertBytes]⟩
  | cons b bs ih =>
    rw [List.length_cons] at h
    obtain ⟨h1, h2, h3⟩ := ih (a := a.insert (byteOperand b) 8) (Acc.ordered_insert ho (by omega)) (Acc.clean_insert hc)
      (by rw [Acc.insert_stop]; omega)
    refine ⟨h1, h2, ?_⟩
    rw [Acc.insertBytes_cons, h3, Acc.bits_insert ho hc (by omega), toNat_byteOperand, ← byteBits_eq_fieldBits, bytesBits_cons,
      List.append_assoc]

/-- A refill's bytes in the register itself: ORed in above the old `end` (R103, R124). -/
theorem Acc.insertBytes_reg (a : Acc) (bs : List Byte) (h : a.stop + 8 * bs.length ≤ 64) :
    (a.insertBytes bs).reg = a.reg ||| (BitVec.ofNat 64 (bitsValue (bytesBits bs)) <<< a.stop) := by
  induction bs generalizing a with
  | nil => simp [Acc.insertBytes]
  | cons b bs ih =>
    rw [List.length_cons] at h
    rw [Acc.insertBytes_cons, ih _ (by rw [Acc.insert_stop]; omega)]
    refine BitVec.eq_of_getLsbD_eq fun i hi => ?_
    rw [BitVec.getLsbD_or, BitVec.getLsbD_or, Acc.getLsbD_insert, Acc.insert_stop, BitVec.getLsbD_shiftLeft, BitVec.getLsbD_shiftLeft,
      BitVec.getLsbD_ofNat, BitVec.getLsbD_ofNat, testBit_bitsValue, testBit_bitsValue, bytesBits_cons]
    rw [List.getElem?_append, length_byteBits]
    by_cases h1 : i < a.stop
    · simp [h1, show i < a.stop + 8 by omega]
    · by_cases h2 : i - a.stop < 8
      · have : i < a.stop + 8 := by omega
        simp [h1, h2, hi, this, byteOperand, byteBits, show i - a.stop < 64 by omega]
      · have : ¬ i < a.stop + 8 := by omega
        simp [h1, h2, hi, this, show i - (a.stop + 8) = i - a.stop - 8 by omega, show i - a.stop < 64 by omega, show i - a.stop - 8 < 64 by omega]

/-- All of the accumulator after a refill (R124). -/
theorem Acc.insertBytes_eq (a : Acc) (bs : List Byte) (h : a.stop + 8 * bs.length ≤ 64) :
    a.insertBytes bs =
      { reg := a.reg ||| (BitVec.ofNat 64 (bitsValue (bytesBits bs)) <<< a.stop)
        start := a.start
        stop := a.stop + 8 * bs.length } := by
  rw [← Acc.insertBytes_reg a bs h, ← Acc.insertBytes_stop a bs]
  conv => rhs; rw [← Acc.insertBytes_start a bs]

/-! ### REFILL (R121) -/

/-- The bound on the rounds is never what ends the loop: any bound of at least `deficit` gives the same result. -/
theorem refillLoop_rounds {r r' : Nat} {d : Int} (s : State) (h : d.toNat ≤ r) (h' : d.toNat ≤ r') :
    refillLoop r d s = refillLoop r' d s := by
  induction r generalizing r' d s with
  | zero =>
    cases r' with
    | zero => rfl
    | succ r' => unfold refillLoop; rw [if_neg (by omega)]
  | succ r ih =>
    cases r' with
    | zero => unfold refillLoop; rw [if_neg (by omega)]
    | succ r' =>
      unfold refillLoop
      split
      · cases srcRead s with
        | none => rfl
        | some p =>
          obtain ⟨a, t⟩ := p
          cases a with
          | byte b => exact ih _ (by omega) (by omega)
          | ended => rfl
          | fail e => rfl
      · rfl

/-- The state after a refill has received the given bytes and the source is `q`. -/
def State.pulled (s : State) (bs : List Byte) (q : Source) : State :=
  { s with rd := s.rd.insertBytes bs, source := q, calls := s.calls ++ bs.map fun b => .srcRead (.byte b) }

/-- The state after one more source call, whose answer was no byte. -/
def State.stopped (s : State) (a : SrcAnswer) (q : Source) : State :=
  { s with source := q, calls := s.calls ++ [.srcRead a] }

/-- Everything the loop of REFILL can do: it receives some bytes, and either they are enough, or the source then answers
no byte, or never answers. -/
theorem refillLoop_cases (r : Nat) (d : Int) (s : State) (hr : d.toNat ≤ r) :
    ∃ bs q, s.source.Delivers bs q ∧
      ((bs.length = ceilDiv8 d.toNat ∧ refillLoop r d s = .done () (s.pulled bs q)) ∨
        (bs.length < ceilDiv8 d.toNat ∧
          ((∃ a e q2, q.next = some (a, q2) ∧ a.raises = some e ∧ refillLoop r d s = .raised e ((s.pulled bs q).stopped a q2)) ∨
            (q.next = none ∧ refillLoop r d s = .hung .sourceSilent)))) := by
  induction r generalizing d s with
  | zero =>
    refine ⟨[], s.source, rfl, .inl ⟨?_, ?_⟩⟩
    · simp [ceilDiv8]; omega
    · simp [refillLoop, State.pulled, Acc.insertBytes]
  | succ r ih =>
    rcases Int.lt_or_le 0 d with hd | hd
    · rcases hn : s.source.next with _ | ⟨a, q1⟩
      · refine ⟨[], s.source, rfl, .inr ⟨by simp [ceilDiv8]; omega, .inr ⟨hn, ?_⟩⟩⟩
        unfold refillLoop
        rw [if_pos hd, srcRead_eq, hn]
        rfl
      · have hs : srcRead s = some (a, { s with source := q1, calls := s.calls ++ [.srcRead a] }) := by rw [srcRead_eq, hn]; rfl
        cases a with
        | byte b =>
          obtain ⟨bs, q, h1, h2⟩ := ih (d - 8)
            ({ s with rd := s.rd.insert (byteOperand b) 8, source := q1, calls := s.calls ++ [.srcRead (.byte b)] } : State) (by omega)
          have hloop : refillLoop (r + 1) d s = refillLoop r (d - 8)
              { s with rd := s.rd.insert (byteOperand b) 8, source := q1, calls := s.calls ++ [.srcRead (.byte b)] } := by
            conv => lhs; unfold refillLoop
            rw [if_pos hd, hs]
            rfl
          have hp : ∀ q, State.pulled { s with rd := s.rd.insert (byteOperand b) 8, source := q1, calls := s.calls ++ [.srcRead (.byte b)] } bs q
              = s.pulled (b :: bs) q := by
            intro q
            simp [State.pulled, Acc.insertBytes_cons]
          have hlen : ceilDiv8 d.toNat = ceilDiv8 (d - 8).toNat + 1 := by simp only [ceilDiv8]; omega
          refine ⟨b :: bs, q, ⟨q1, hn, h1⟩, ?_⟩
          rw [hloop, hlen, List.length_cons]
          simp only [hp] at h2
          rcases h2 with ⟨hl, h2⟩ | ⟨hl, h2⟩
          · exact .inl ⟨by omega, h2⟩
          · exact .inr ⟨by omega, h2⟩
        | ended =>
          refine ⟨[], s.source, rfl, .inr ⟨by simp [ceilDiv8]; omega, .inl ⟨_, _, q1, hn, rfl, ?_⟩⟩⟩
          unfold refillLoop
          rw [if_pos hd, hs]
          simp [State.pulled, State.stopped, Acc.insertBytes]
        | fail e =>
          refine ⟨[], s.source, rfl, .inr ⟨by simp [ceilDiv8]; omega, .inl ⟨_, _, q1, hn, rfl, ?_⟩⟩⟩
          unfold refillLoop
          rw [if_pos hd, hs]
          simp [State.pulled, State.stopped, Acc.insertBytes]
    · refine ⟨[], s.source, rfl, .inl ⟨?_, ?_⟩⟩
      · simp [ceilDiv8]; omega
      · unfold refillLoop
        rw [if_neg (by omega)]
        simp [State.pulled, Acc.insertBytes]

/-- The bytes a refill needs, without the signed detour. -/
theorem refillBytes_eq {a : Acc} (h : a.start ≤ a.stop) (n : Nat) : refillBytes a n = ceilDiv8 (n - a.avail) := by
  simp only [refillBytes, deficit, Acc.avail]
  congr 1
  omega

/-- Everything REFILL can do (R121, R124). -/
theorem refill_cases (n : Nat) (s : State) :
    ∃ bs q, s.source.Delivers bs q ∧
      ((bs.length = refillBytes s.rd n ∧ refill n s = .done () (s.pulled bs q)) ∨
        (bs.length < refillBytes s.rd n ∧
          ((∃ a e q2, q.next = some (a, q2) ∧ a.raises = some e ∧ refill n s = .raised e ((s.pulled bs q).stopped a q2)) ∨
            (q.next = none ∧ refill n s = .hung .sourceSilent)))) := by
  have h := refillLoop_cases (deficit s.rd n).toNat (deficit s.rd n) s le_rfl
  rwa [show ceilDiv8 (deficit s.rd n).toNat = refillBytes s.rd n by simp only [refillBytes]; congr 1; omega] at h

/-! ### A field read (R123) -/

/-- The accumulator after a field of `n` bits has been read from it. -/
def Acc.consumed (a : Acc) (bs : List Byte) (n : Nat) : Acc := ((a.insertBytes bs).advance n).normalize

/-- What reading a field leaves in the accumulator, and the field itself. -/
theorem Acc.consumed_spec {a : Acc} {bs : List Byte} {n : Nat} (ho : a.Ordered) (hc : a.Clean) (h : a.stop + 8 * bs.length ≤ 64)
    (hn : n ≤ a.avail + 8 * bs.length) :
    (a.consumed bs n).Ordered ∧ (a.consumed bs n).Clean ∧ (a.consumed bs n).Normal ∧
      (a.consumed bs n).bits = (a.bits ++ bytesBits bs).drop n ∧
      (a.insertBytes bs).extract n = BitVec.ofNat 64 (bitsValue ((a.bits ++ bytesBits bs).take n)) := by
  obtain ⟨h1, h2, h3⟩ := Acc.insertBytes_spec ho hc h
  have hav : n ≤ (a.insertBytes bs).avail := by
    rw [← Acc.length_bits, h3, List.length_append, Acc.length_bits, length_bytesBits]; exact hn
  have h4 := Acc.ordered_advance h1 hav
  exact ⟨Acc.ordered_normalize h4, Acc.clean_normalize (Acc.clean_advance h2), Acc.normal_normalize h4,
    by rw [Acc.consumed, Acc.bits_normalize, Acc.bits_advance, h3], by rw [Acc.extract_eq hav, h3]⟩

/-- The registers after a field has been read (R123 steps 5 and 6, R105): all zero when nothing is left; shifted down to bit 0
when a whole byte or more is spent; otherwise only `start` has moved. -/
theorem Acc.consumed_eq {a : Acc} {bs : List Byte} {n : Nat} (ho : a.Ordered) (h : a.stop + 8 * bs.length ≤ 64) :
    a.consumed bs n =
      if n = a.avail + 8 * bs.length then { reg := 0#64, start := 0, stop := 0 }
      else if 8 ≤ a.start + n then
        { reg := (a.reg ||| (BitVec.ofNat 64 (bitsValue (bytesBits bs)) <<< a.stop)) >>> (a.start + n)
          start := 0
          stop := a.stop + 8 * bs.length - (a.start + n) }
      else
        { reg := a.reg ||| (BitVec.ofNat 64 (bitsValue (bytesBits bs)) <<< a.stop)
          start := a.start + n
          stop := a.stop + 8 * bs.length } := by
  rw [Acc.consumed, Acc.insertBytes_eq a bs h]
  refine if_congr ?_ rfl rfl
  have := ho.1
  simp only [Acc.advance, Acc.avail]; omega

/-- Reading a whole byte or more leaves `start = 0` (R105). -/
theorem Acc.consumed_start (a : Acc) (bs : List Byte) {n : Nat} (h : 8 ≤ n) : (a.consumed bs n).start = 0 := by
  simp only [Acc.consumed, Acc.normalize, Acc.advance_start, Acc.insertBytes_start, config_byteBits]
  rw [if_pos (show 8 ≤ a.start + n by omega)]
  split <;> rfl

/-- Everything a field read can do (R123, R124): it is rejected with nothing changed; or it receives the bytes it needs and
takes the field; or the source stops it and the bytes received stay; or it hangs. -/
theorem readField_cases (n : Nat) (s : State) (ho : s.rd.Ordered) (hc : s.rd.Clean) :
    (¬ (0 < n ∧ n < 64 ∧ s.rd.stop + 8 * refillBytes s.rd n ≤ 64) ∧ readField n s = .raised .invalidArgument s) ∨
    ((0 < n ∧ n < 64 ∧ s.rd.stop + 8 * refillBytes s.rd n ≤ 64) ∧
      ∃ bs q, s.source.Delivers bs q ∧
      ((bs.length = refillBytes s.rd n ∧
          readField n s = .done (BitVec.ofNat 64 (bitsValue ((s.rd.bits ++ bytesBits bs).take n)))
            { s.pulled bs q with rd := s.rd.consumed bs n }) ∨
        (bs.length < refillBytes s.rd n ∧
          ((∃ a e q2, q.next = some (a, q2) ∧ a.raises = some e ∧ readField n s = .raised e ((s.pulled bs q).stopped a q2)) ∨
            (q.next = none ∧ readField n s = .hung .sourceSilent))))) := by
  by_cases hw : 0 < n ∧ n < 64
  · by_cases hk : s.rd.stop + 8 * refillBytes s.rd n ≤ 64
    · refine .inr ⟨⟨hw.1, hw.2, hk⟩, ?_⟩
      have hr : readField n s = (refill n s).bind fun _ t => takeField n t := by
        simp [readField, widthOk, readCapacityOk, hw, hk]
      obtain ⟨bs, q, hd, h⟩ := refill_cases n s
      refine ⟨bs, q, hd, ?_⟩
      rcases h with ⟨hl, h⟩ | ⟨hl, ⟨a, e, q2, h1, h2, h⟩ | ⟨h1, h⟩⟩
      · refine .inl ⟨hl, ?_⟩
        rw [hr, h]
        have hn : n ≤ s.rd.avail + 8 * bs.length := by
          rw [hl, refillBytes_eq ho.1]; simp only [ceilDiv8]; omega
        obtain ⟨-, -, -, -, hx⟩ := Acc.consumed_spec ho hc (hl ▸ hk) hn
        simp only [Run.bind, takeField, State.pulled, hx]
        rfl
      · exact .inr ⟨hl, .inl ⟨a, e, q2, h1, h2, by rw [hr, h]; rfl⟩⟩
      · exact .inr ⟨hl, .inr ⟨h1, by rw [hr, h]; rfl⟩⟩
    · exact .inl ⟨by omega, by simp [readField, widthOk, readCapacityOk, hw, hk]⟩
  · exact .inl ⟨by omega, by simp [readField, widthOk, hw]⟩

/-- The three single-field reads are one operation (R72): the bit `read_bit` returns is its own truth value. -/
theorem exec_fieldRead {i : Instr} {n : Nat} (hi : fieldReadWidth i = some n) (s : State) (ho : s.rd.Ordered) (hc : s.rd.Clean) :
    exec i s = complete (readField n s) := by
  cases i <;> simp only [fieldReadWidth, Option.some.injEq, reduceCtorEq] at hi
  · subst hi
    show complete ((readField 1 s).bind fun r t => .done (boolOperand (r != 0#64)) t) = _
    rcases readField_cases 1 s ho hc with ⟨-, h⟩ | ⟨-, bs, q, -, ⟨-, h⟩ | ⟨-, ⟨a, e, q2, -, -, h⟩ | ⟨-, h⟩⟩⟩
    · rw [h]; rfl
    · rw [h]
      have hv := bitsValue_lt ((s.rd.bits ++ bytesBits bs).take 1)
      have hl : ((s.rd.bits ++ bytesBits bs).take 1).length ≤ 1 := List.length_take_le _ _
      have hv1 : bitsValue ((s.rd.bits ++ bytesBits bs).take 1) < 2 :=
        Nat.lt_of_lt_of_le hv (Nat.pow_le_pow_right (by decide) hl)
      rcases (by omega : bitsValue ((s.rd.bits ++ bytesBits bs).take 1) = 0 ∨ bitsValue ((s.rd.bits ++ bytesBits bs).take 1) = 1)
        with e | e <;> rw [e] <;> rfl
    · rw [h]; rfl
    · rw [h]; rfl
  · subst hi; rfl
  · subst hi; rfl

/-- A read of at most 50 bits is never rejected by the capacity check (R13, R122). -/
theorem readCapacity_narrow {a : Acc} (ho : a.Ordered) (hn : a.Normal) {n : Nat} (h : n ≤ 50) :
    a.stop + 8 * refillBytes a n ≤ 64 := by
  rw [refillBytes_eq ho.1]
  rcases hn with rfl | hn
  · simp [Acc.empty, Acc.avail, ceilDiv8]; omega
  · simp [Acc.Ordered] at ho
    simp only [Acc.avail, ceilDiv8]; omega

/-! ### The byte loop (R129) -/

/-- The buffer after bytes have been stored from index `i` on. -/
def Memory.storeAll : Memory → Nat → List Byte → Memory
  | m, _, [] => m
  | m, i, x :: xs => Memory.storeAll (Memory.write m i x) (i + 1) xs

theorem Memory.wf_storeAll {m : Memory} (h : m.wf = true) (i : Nat) (xs : List Byte) : (Memory.storeAll m i xs).wf = true := by
  induction xs generalizing m i with
  | nil => exact h
  | cons x xs ih => exact ih (Memory.wf_write i x h) (i + 1)

/-- The stored bytes read back at their indexes, and every other index reads as before. -/
theorem Memory.read_storeAll {m : Memory} (h : m.wf = true) (i : Nat) (xs : List Byte) (j : Nat) :
    (Memory.storeAll m i xs).read j = if i ≤ j then (xs[j - i]?).getD (m.read j) else m.read j := by
  induction xs generalizing m i with
  | nil => simp [Memory.storeAll]
  | cons x xs ih =>
    rw [Memory.storeAll, ih (Memory.wf_write i x h), Memory.read_write h]
    rcases Nat.lt_trichotomy j i with hj | rfl | hj
    · simp [show ¬ i + 1 ≤ j by omega, show ¬ i ≤ j by omega, show j ≠ i by omega]
    · simp
    · obtain ⟨k, rfl⟩ := Nat.exists_eq_add_of_lt hj
      simp [show i + 1 ≤ i + k + 1 by omega, show i ≤ i + k + 1 by omega, show i + k + 1 - i = k + 1 by omega,
        show i + k + 1 - (i + 1) = k by omega, show i + k + 1 ≠ i by omega]

/-- The first bytes of the buffer after they have been stored. -/
theorem Memory.prefixBytes_storeAll {m : Memory} (h : m.wf = true) (xs : List Byte) :
    (Memory.storeAll m 0 xs).prefixBytes xs.length = xs := by
  refine List.ext_getElem (by simp) fun i h1 h2 => ?_
  simp only [Memory.prefixBytes, List.getElem_map, List.getElem_range, Memory.read_storeAll h]
  simp [List.getElem?_eq_getElem h2]

/-- The stores of the given bytes from index `i` on. -/
def storesFrom : Nat → List Byte → List (Nat × Byte)
  | _, [] => []
  | i, x :: xs => (i, x) :: storesFrom (i + 1) xs

/-- A byte that is the value of its eight bits. -/
theorem byteBits_lowByte {l : List Bool} (h : l.length = 8) : byteBits (lowByte (BitVec.ofNat 64 (bitsValue l))) = l := by
  rw [byteBits_eq_fieldBits]
  have hv := bitsValue_lt l
  rw [h] at hv
  have : (lowByte (BitVec.ofNat 64 (bitsValue l))).toNat = bitsValue l := by
    simp [lowByte]; omega
  rw [this]
  conv => rhs; rw [← fieldBits_bitsValue l, h]

/-- The accesses of a byte loop: which bytes were received and stored, and that nothing else was done. -/
structure ReadTrace (new : List Access) (bs : List Byte) (i : Nat) (xs : List Byte) : Prop where
  answers : new.filterMap Access.srcAnswer = bs.map .byte
  stores  : new.filterMap Access.stored = storesFrom i xs
  only    : ∀ c ∈ new, c.emitted = none ∧ c.loaded = none ∧ ∀ b a, c ≠ .snkWrite b a

/-- Everything the byte loop can do (R129): it stores some bytes, the stream's next ones; and either they are all, or the
source stops it, or it hangs. It is never rejected. -/
theorem readBytesLoop_cases (todo done : Nat) (s : State) (ho : s.rd.Ordered) (hc : s.rd.Clean) (hn : s.rd.Normal) :
    ∃ bs q xs rd' new, s.source.Delivers bs q ∧ rd'.Ordered ∧ rd'.Clean ∧ rd'.Normal ∧
      (xs = [] → rd' = s.rd) ∧ (xs ≠ [] → rd'.start = 0) ∧
      s.rd.bits ++ bytesBits bs = bytesBits xs ++ rd'.bits ∧ (bs = [] ∨ rd'.avail ≤ 7) ∧ ReadTrace new bs done xs ∧
      ((xs.length = todo ∧ readBytesLoop todo done s = .done (done + xs.length, none)
          { s with rd := rd', source := q, dest := s.dest.storeAll done xs, calls := s.calls ++ new }) ∨
        (xs.length < todo ∧ rd'.avail ≤ 7 ∧
          ((∃ a e q2, q.next = some (a, q2) ∧ a.raises = some e ∧ readBytesLoop todo done s = .done (done + xs.length, some e)
              { s with rd := rd', source := q2, dest := s.dest.storeAll done xs, calls := s.calls ++ new ++ [.srcRead a] }) ∨
            (q.next = none ∧ readBytesLoop todo done s = .hung .sourceSilent)))) := by
  induction todo generalizing done s with
  | zero =>
    refine ⟨[], s.source, [], s.rd, [], rfl, ho, hc, hn, fun _ => rfl, fun h => absurd rfl h, by simp, .inl rfl, ⟨rfl, rfl, by simp⟩, .inl ⟨rfl, ?_⟩⟩
    simp [readBytesLoop, Memory.storeAll]
  | succ todo ih =>
    rcases readField_cases 8 s ho hc with ⟨h, -⟩ | ⟨⟨-, -, hk⟩, bs, q, hd, h⟩
    · exact absurd ⟨by decide, by decide, readCapacity_narrow ho hn (by decide)⟩ h
    · have hrb := refillBytes_eq ho.1 8
      rcases h with ⟨hl, h⟩ | ⟨hl, h⟩
      · obtain ⟨h1, h2, h3, h4, -⟩ := Acc.consumed_spec (n := 8) ho hc (hl ▸ hk) (by rw [hl, hrb]; simp only [ceilDiv8]; omega)
        have hlen : 8 ≤ (s.rd.bits ++ bytesBits bs).length := by
          rw [List.length_append, Acc.length_bits, length_bytesBits, hl, hrb]; simp only [ceilDiv8]; omega
        obtain ⟨x, hx⟩ : ∃ x, x = lowByte (BitVec.ofNat 64 (bitsValue ((s.rd.bits ++ bytesBits bs).take 8))) := ⟨_, rfl⟩
        have hxb : byteBits x = (s.rd.bits ++ bytesBits bs).take 8 := by
          rw [hx]; exact byteBits_lowByte (by rw [List.length_take]; omega)
        obtain ⟨bs2, q2, xs, rd', new, g1, g2, g3, g4, gn, gs, g5, g6, g7, g8⟩ := ih (done + 1)
          (storeDest done x { s.pulled bs q with rd := s.rd.consumed bs 8 }) h1 h2 h3
        have hloop : readBytesLoop (todo + 1) done s =
            readBytesLoop todo (done + 1) (storeDest done x { s.pulled bs q with rd := s.rd.consumed bs 8 }) := by
          conv => lhs; unfold readBytesLoop
          rw [h, hx]
        have hshort : bs = [] ∨ (s.rd.consumed bs 8).avail ≤ 7 := by
          rw [← Acc.length_bits, h4, List.length_drop, List.length_append, Acc.length_bits, length_bytesBits, hl, hrb]
          rcases Nat.eq_zero_or_pos bs.length with h0 | h0
          · exact .inl (List.length_eq_zero_iff.1 h0)
          · refine .inr ?_
            rw [hl, hrb] at h0
            simp only [ceilDiv8] at *; omega
        refine ⟨bs ++ bs2, q2, x :: xs, rd', bs.map (fun b => .srcRead (.byte b)) ++ [.destStore done x] ++ new,
          Source.delivers_append.2 ⟨q, hd, g1⟩, g2, g3, g4, by simp, ?_, ?_, ?_, ⟨?_, ?_, ?_⟩, ?_⟩
        · intro _
          by_cases hx0 : xs = []
          · rw [gn hx0]; exact Acc.consumed_start s.rd bs le_rfl
          · exact gs hx0
        · rw [bytesBits_append, ← List.append_assoc, ← List.take_append_drop 8 (s.rd.bits ++ bytesBits bs), ← hxb,
            List.append_assoc, ← h4, bytesBits_cons, List.append_assoc, ← g5]
          rfl
        · rcases g6 with rfl | g6
          · rcases hshort with rfl | hshort
            · exact .inl rfl
            · refine .inr ?_
              have := congrArg List.length g5
              simp [storeDest_eq] at this
              omega
          · exact .inr g6
        · rw [List.filterMap_append, List.filterMap_append, g7.answers, List.map_append]
          simp [Access.srcAnswer, List.filterMap_map, Function.comp_def]
        · rw [List.filterMap_append, List.filterMap_append, g7.stores]
          simp [Access.stored, List.filterMap_map, Function.comp_def, storesFrom]
        · intro c hcm
          simp only [List.mem_append, List.mem_map, List.mem_singleton] at hcm
          rcases hcm with (⟨b, -, rfl⟩ | rfl) | hcm
          · simp [Access.emitted, Access.loaded]
          · simp [Access.emitted, Access.loaded]
          · exact g7.only c hcm
        · rw [hloop, List.length_cons, show done + (xs.length + 1) = done + 1 + xs.length by omega]
          rcases g8 with ⟨k1, k2⟩ | ⟨k1, k2, ⟨a, e, q3, k3, k4, k5⟩ | ⟨k3, k4⟩⟩
          · refine .inl ⟨by omega, ?_⟩
            rw [k2]
            simp [storeDest_eq, State.pulled, Memory.storeAll]
          · refine .inr ⟨by omega, k2, .inl ⟨a, e, q3, k3, k4, ?_⟩⟩
            rw [k5]
            simp [storeDest_eq, State.pulled, Memory.storeAll]
          · exact .inr ⟨by omega, k2, .inr ⟨k3, k4⟩⟩
      · have hav : s.rd.avail ≤ 7 := by rw [hrb] at hl; simp only [ceilDiv8] at hl; omega
        have h0 : bs = [] := by
          rw [hrb] at hl
          refine List.length_eq_zero_iff.1 ?_
          simp only [ceilDiv8] at hl; omega
        subst h0
        have hq : q = s.source := hd
        subst hq
        refine ⟨[], s.source, [], s.rd, [], rfl, ho, hc, hn, fun _ => rfl, fun h => absurd rfl h, by simp, .inl rfl, ⟨rfl, rfl, by simp⟩, .inr ⟨by simp, hav, ?_⟩⟩
        rcases h with ⟨a, e, q2, h1, h2, h⟩ | ⟨h1, h⟩
        · refine .inl ⟨a, e, q2, h1, h2, ?_⟩
          unfold readBytesLoop
          rw [h]
          simp [State.pulled, State.stopped, Memory.storeAll, Acc.insertBytes]
        · refine .inr ⟨h1, ?_⟩
          unfold readBytesLoop
          rw [h]

/-- How many bytes a completed loop receives: what its elements need beyond what was pending. -/
theorem readBytes_pulled {a a' : Acc} {bs xs : List Byte} (h : a.bits ++ bytesBits bs = bytesBits xs ++ a'.bits)
    (hs : bs = [] ∨ a'.avail ≤ 7) : bs.length = ceilDiv8 (8 * xs.length - a.avail) := by
  have h := congrArg List.length h
  simp only [List.length_append, Acc.length_bits, length_bytesBits] at h
  simp only [ceilDiv8]
  rcases hs with rfl | hs
  · simp at *; omega
  · omega

/-! ### Forward: what a read does with a given source -/

/-- A field read that gets the bytes it needs takes the field (R123). -/
theorem readField_ok {n : Nat} {s : State} {bs : List Byte} {q : Source} (h0 : 0 < n) (h1 : n < 64) (ho : s.rd.Ordered) (hc : s.rd.Clean)
    (hl : bs.length = ceilDiv8 (n - s.rd.avail)) (hk : s.rd.stop + 8 * bs.length ≤ 64) (hd : s.source.Delivers bs q) :
    readField n s = .done (BitVec.ofNat 64 (bitsValue ((s.rd.bits ++ bytesBits bs).take n)))
            { s.pulled bs q with rd := s.rd.consumed bs n } := by
  have hrb := refillBytes_eq ho.1 n
  rcases readField_cases n s ho hc with ⟨h, -⟩ | ⟨-, cs, q1, g1, ⟨g2, g3⟩ | ⟨g2, g3⟩⟩
  · rw [hrb, ← hl] at h; exact absurd ⟨h0, h1, hk⟩ h
  · obtain ⟨rfl, rfl⟩ := Source.delivers_unique g1 hd (by omega)
    exact g3
  · obtain ⟨b, q3, e⟩ := Source.delivers_stop g1 hd (by omega)
    rcases g3 with ⟨a, e1, q2, e2, e3, -⟩ | ⟨e2, -⟩
    · rw [e] at e2; cases e2; simp [SrcAnswer.raises] at e3
    · rw [e] at e2; cases e2

/-- A field read whose source gives no byte too early is ended by what the source answered (R124). -/
theorem readField_stop {n : Nat} {s : State} {bs : List Byte} {q q' : Source} {x : SrcAnswer} {e : Raise} (h0 : 0 < n) (h1 : n < 64) (ho : s.rd.Ordered) (hc : s.rd.Clean)
    (hk : s.rd.stop + 8 * ceilDiv8 (n - s.rd.avail) ≤ 64) (hl : bs.length < ceilDiv8 (n - s.rd.avail)) (hd : s.source.Delivers bs q)
    (hn : q.next = some (x, q')) (hx : x.raises = some e) :
    readField n s = .raised e ((s.pulled bs q).stopped x q') := by
  have hrb := refillBytes_eq ho.1 n
  have hnb : ∀ b q3, q.next ≠ some (.byte b, q3) := by
    intro b q3 h; rw [hn] at h; cases h; simp [SrcAnswer.raises] at hx
  rcases readField_cases n s ho hc with ⟨h, -⟩ | ⟨-, cs, q1, g1, ⟨g2, g3⟩ | ⟨g2, g3⟩⟩
  · rw [hrb] at h; exact absurd ⟨h0, h1, hk⟩ h
  · obtain ⟨b, q3, h⟩ := Source.delivers_stop hd g1 (by omega)
    exact absurd h (hnb b q3)
  · rcases Nat.lt_trichotomy bs.length cs.length with h | h | h
    · obtain ⟨b, q3, h⟩ := Source.delivers_stop hd g1 h
      exact absurd h (hnb b q3)
    · obtain ⟨rfl, rfl⟩ := Source.delivers_unique g1 hd h.symm
      rcases g3 with ⟨a, e1, q2, e2, e3, g3⟩ | ⟨e2, -⟩
      · rw [hn] at e2; cases e2; rw [hx] at e3; cases e3; exact g3
      · rw [hn] at e2; cases e2
    · obtain ⟨b, q3, h⟩ := Source.delivers_stop g1 hd h
      rcases g3 with ⟨a, e1, q2, e2, e3, -⟩ | ⟨e2, -⟩
      · rw [h] at e2; cases e2; simp [SrcAnswer.raises] at e3
      · rw [h] at e2; cases e2

/-- A field read whose source falls silent too early hangs (R59). -/
theorem readField_hang {n : Nat} {s : State} {bs : List Byte} {q : Source} (h0 : 0 < n) (h1 : n < 64) (ho : s.rd.Ordered) (hc : s.rd.Clean)
    (hk : s.rd.stop + 8 * ceilDiv8 (n - s.rd.avail) ≤ 64) (hl : bs.length < ceilDiv8 (n - s.rd.avail)) (hd : s.source.Delivers bs q)
    (hn : q.next = none) : readField n s = .hung .sourceSilent := by
    have hrb := refillBytes_eq ho.1 n
    rcases readField_cases n s ho hc with ⟨h, -⟩ | ⟨-, cs, q1, g1, ⟨g2, g3⟩ | ⟨g2, g3⟩⟩
    · rw [hrb] at h; exact absurd ⟨h0, h1, hk⟩ h
    · obtain ⟨b, q3, e⟩ := Source.delivers_stop hd g1 (by omega)
      rw [e] at hn; cases hn
    · rcases Nat.lt_trichotomy bs.length cs.length with h | h | h
      · obtain ⟨b, q3, h⟩ := Source.delivers_stop hd g1 h
        rw [h] at hn; cases hn
      · obtain ⟨rfl, rfl⟩ := Source.delivers_unique g1 hd h.symm
        rcases g3 with ⟨a, e1, q2, e2, e3, g3⟩ | ⟨e2, g3⟩
        · rw [hn] at e2; cases e2
        · rw [g3]
      · obtain ⟨b, q3, h⟩ := Source.delivers_stop g1 hd h
        rcases g3 with ⟨a, e1, q2, e2, e3, -⟩ | ⟨e2, -⟩
        · rw [h] at e2; cases e2; simp [SrcAnswer.raises] at e3
        · rw [h] at e2; cases e2

/-- A byte loop that gets the bytes its elements need stores them all (R129). -/
theorem readBytesLoop_ok {count : Nat} {s : State} {bs : List Byte} {q : Source} (h : ReaderInv s.rd) 
    (hl : bs.length = ceilDiv8 (8 * count - s.rd.avail)) (hd : s.source.Delivers bs q) :
    ∃ xs rd' new, rd'.Ordered ∧ rd'.Clean ∧ rd'.Normal ∧ (xs = [] → rd' = s.rd) ∧ (xs ≠ [] → rd'.start = 0) ∧ s.rd.bits ++ bytesBits bs = bytesBits xs ++ rd'.bits ∧ (bs = [] ∨ rd'.avail ≤ 7) ∧
      ReadTrace new bs 0 xs ∧ xs.length = count ∧ readBytesLoop count 0 s = .done (count, none)
          { s with rd := rd', source := q, dest := s.dest.storeAll 0 xs, calls := s.calls ++ new } := by
  obtain ⟨cs, q1, xs, rd', new, g1, g2, g3, g4, gn, gs, g5, g6, g7, g8⟩ := readBytesLoop_cases count 0 s h.1 h.2.1 h.2.2.1
  rcases g8 with ⟨k1, k2⟩ | ⟨k1, k2, k3⟩
  · have := readBytes_pulled g5 g6
    rw [k1] at this
    obtain ⟨rfl, rfl⟩ := Source.delivers_unique g1 hd (by omega)
    exact ⟨xs, rd', new, g2, g3, g4, gn, gs, g5, g6, g7, k1, by rw [k2, k1]; simp⟩
  · have hlen := congrArg List.length g5
    simp only [List.length_append, Acc.length_bits, length_bytesBits] at hlen
    have : cs.length < bs.length := by rw [hl]; simp only [ceilDiv8]; omega
    obtain ⟨b, q3, e⟩ := Source.delivers_stop g1 hd this
    rcases k3 with ⟨a, e1, q2, e2, e3, -⟩ | ⟨e2, -⟩
    · rw [e] at e2; cases e2; simp [SrcAnswer.raises] at e3
    · rw [e] at e2; cases e2

/-- A byte loop whose source delivers fewer bytes than its elements need stops at what the source says next (R129), or hangs
(R59). -/
theorem readBytesLoop_stop {count : Nat} {s : State} {bs : List Byte} {q : Source} (h : ReaderInv s.rd)
    (hlt : s.rd.avail + 8 * bs.length < 8 * count) (hd : s.source.Delivers bs q) (hnb : ∀ b q', q.next ≠ some (.byte b, q')) :
    ∃ xs rd' new, rd'.Ordered ∧ rd'.Clean ∧ rd'.Normal ∧ (xs = [] → rd' = s.rd) ∧ (xs ≠ [] → rd'.start = 0) ∧
      s.rd.bits ++ bytesBits bs = bytesBits xs ++ rd'.bits ∧ (bs = [] ∨ rd'.avail ≤ 7) ∧ ReadTrace new bs 0 xs ∧
      xs.length < count ∧ rd'.avail ≤ 7 ∧
      ((∃ a e q', q.next = some (a, q') ∧ a.raises = some e ∧ readBytesLoop count 0 s = .done (xs.length, some e)
          { s with rd := rd', source := q', dest := s.dest.storeAll 0 xs, calls := s.calls ++ new ++ [.srcRead a] }) ∨
        (q.next = none ∧ readBytesLoop count 0 s = .hung .sourceSilent)) := by
  obtain ⟨cs, q1, xs, rd', new, g1, g2, g3, g4, gn, gs, g5, g6, g7, g8⟩ := readBytesLoop_cases count 0 s h.1 h.2.1 h.2.2.1
  rcases g8 with ⟨k1, -⟩ | ⟨k1, k2, k3⟩
  · have hcs := readBytes_pulled g5 g6
    have : bs.length < cs.length := by rw [hcs, k1]; simp only [ceilDiv8]; omega
    obtain ⟨b, q3, h⟩ := Source.delivers_stop hd g1 this
    exact absurd h (hnb b q3)
  · have heq : bs = cs ∧ q = q1 := by
      rcases Nat.lt_trichotomy bs.length cs.length with h | h | h
      · obtain ⟨b, q3, h⟩ := Source.delivers_stop hd g1 h
        exact absurd h (hnb b q3)
      · exact Source.delivers_unique hd g1 h
      · obtain ⟨b, q3, h⟩ := Source.delivers_stop g1 hd h
        rcases k3 with ⟨a, e1, q2, e2, e3, -⟩ | ⟨e2, -⟩
        · rw [h] at e2; cases e2; simp [SrcAnswer.raises] at e3
        · rw [h] at e2; cases e2
    obtain ⟨rfl, rfl⟩ := heq
    simp only [Nat.zero_add] at k3
    exact ⟨xs, rd', new, g2, g3, g4, gn, gs, g5, g6, g7, k1, k2, k3⟩

/-- What a byte loop leaves satisfies the reader's invariant. -/
theorem readerInv_after_loop {a a' : Acc} {bs xs : List Byte} (h : ReaderInv a) (h1 : a'.Ordered) (h2 : a'.Clean) (h3 : a'.Normal) 
  (h4 : a.bits ++ bytesBits bs = bytesBits xs ++ a'.bits) (h5 : bs = [] ∨ a'.avail ≤ 7) : ReaderInv a' := by
  refine ⟨h1, h2, h3, ?_⟩
  have hlen := congrArg List.length h4
  simp only [List.length_append, Acc.length_bits, length_bytesBits] at hlen
  have := h.2.2.2
  rcases h5 with rfl | h5
  · simp at hlen; omega
  · omega

/-- The destination buffer after a byte read, as its obligations spell it. -/
theorem Memory.read_storeAll_zero {m : Memory} (h : m.wf = true) (xs : List Byte) (j : Nat) : (Memory.storeAll m 0 xs).read j = if h : j < xs.length then xs[j] else m.read j := by
  rw [Memory.read_storeAll h]
  simp only [Nat.zero_le, if_true, Nat.sub_zero]
  split
  · next h' => rw [List.getElem?_eq_getElem h']; rfl
  · next h' => rw [List.getElem?_eq_none (by omega)]; rfl

/-- The bytes delivered by a run of successful source calls. -/
theorem pulled_received (bs : List Byte) : (bs.map fun b => Access.srcRead (.byte b)).filterMap Access.pulled = bs := by
  induction bs with
  | nil => rfl
  | cons b bs ih => rw [List.map_cons, List.filterMap_cons_some (f := Access.pulled) (b := b) rfl, ih]

/-- An answer that ends a refill delivers no byte. -/
theorem pulled_stop {a : SrcAnswer} {e : Raise} (h : a.raises = some e) : Access.pulled (.srcRead a) = none := by
  cases a <;> simp_all [SrcAnswer.raises, Access.pulled]

/-- The bytes delivered, from the answers given. -/
theorem pulled_of_answers {new : List Access} {bs : List Byte} (h : new.filterMap Access.srcAnswer = bs.map .byte) : new.filterMap Access.pulled = bs := by
  have : ∀ new : List Access, new.filterMap Access.pulled = (new.filterMap Access.srcAnswer).filterMap (fun a => match a with | .byte b => some b | _ => none) := by
    intro new
    rw [List.filterMap_filterMap]
    congr 1
    funext c
    cases c with
    | srcRead a => cases a <;> rfl
    | snkWrite => rfl
    | destStore => rfl
    | srcLoad => rfl
  rw [this, h, List.filterMap_map]
  exact List.filterMap_some

end Sys2Proof.Machine
end

