-- ==== Sys2Proof/Laws/Writer.lean ====
section
/-! SUPPORT. The writer unit: everything DRAIN, a field write, the element loop and FLUSH can do (42_writer.md R141 to R156). -/

namespace Sys2Proof.Machine

/-! ### DRAIN (R141) -/

/-- The accumulator after its lowest byte has been emitted. -/
def Acc.emitted (a : Acc) : Acc := (a.advance 8).normalize

/-- The byte DRAIN offers is the next eight bits (R141), and emitting it keeps the writer's invariant (R29 a). -/
theorem Acc.emitted_spec {a : Acc} (h : WriterInv a) (h8 : 8 ≤ a.avail) :
    WriterInv a.emitted ∧ byteBits (lowByte (a.extract 8)) = a.bits.take 8 ∧ a.emitted.bits = a.bits.drop 8 := by
  obtain ⟨ho, hc, h0⟩ := h
  have h1 := Acc.ordered_advance ho h8
  refine ⟨⟨Acc.ordered_normalize h1, Acc.clean_normalize (Acc.clean_advance hc), ?_⟩, ?_, ?_⟩
  · unfold Acc.emitted Acc.normalize
    split
    · rfl
    · split
      · rfl
      · next h => simp [h0] at h
  · refine List.ext_getElem (by simp; omega) fun i h1 h2 => ?_
    have hi : i < 8 := by simpa using h1
    rw [List.getElem_take, Acc.getElem_bits]
    simp only [byteBits, List.getElem_map, List.getElem_range, lowByte, BitVec.getLsbD_setWidth,
      Acc.getLsbD_extract a 8 i (by omega)]
    simp [hi]
  · rw [Acc.emitted, Acc.bits_normalize, Acc.bits_advance]

/-- The state after the sink has accepted the given bytes and is `k`. -/
def State.drained (s : State) (w : Acc) (es : List Byte) (k : Sink) : State :=
  { s with wr := w, sink := k, calls := s.calls ++ es.map fun b => .snkWrite b .ok }

/-- The state after one more sink call, which failed. -/
def State.refusedByte (s : State) (b : Byte) (e : TErr) (k : Sink) : State :=
  { s with sink := k, calls := s.calls ++ [.snkWrite b (.fail e)] }

/-- Everything the loop of DRAIN can do: it emits the next bytes; and either less than a byte is left, or the sink then
refuses the next byte, or never answers. -/
theorem drainLoop_cases (r : Nat) (s : State) (hr : s.wr.avail ≤ r) (hw : WriterInv s.wr) :
    ∃ es k w, s.sink.Accepts es k ∧ WriterInv w ∧ s.wr.bits = bytesBits es ++ w.bits ∧
      ((w.avail < 8 ∧ drainLoop r s = .done () (s.drained w es k)) ∨
        (8 ≤ w.avail ∧
          ((∃ b e k2, byteBits b = w.bits.take 8 ∧ k.next = some (.fail e, k2) ∧
              drainLoop r s = .raised (.transportFailure e) ((s.drained w es k).refusedByte b e k2)) ∨
            (k.next = none ∧ drainLoop r s = .hung .sinkSilent)))) := by
  induction r generalizing s with
  | zero =>
    refine ⟨[], s.sink, s.wr, rfl, hw, by simp, .inl ⟨by omega, ?_⟩⟩
    simp [drainLoop, State.drained]
  | succ r ih =>
    rcases Nat.lt_or_ge s.wr.avail 8 with h8 | h8
    · refine ⟨[], s.sink, s.wr, rfl, hw, by simp, .inl ⟨h8, ?_⟩⟩
      unfold drainLoop
      rw [if_neg (by simp; omega)]
      simp [State.drained]
    · obtain ⟨hw', hb, hbits⟩ := Acc.emitted_spec hw h8
      obtain ⟨b, hbdef⟩ : ∃ b, b = lowByte (s.wr.extract 8) := ⟨_, rfl⟩
      rw [← hbdef] at hb
      have hunf : drainLoop (r + 1) s = match snkWrite b s with
          | none => .hung .sinkSilent
          | some (.ok, t) => drainLoop r (t.setWr (t.wr.advance 8).normalize)
          | some (.fail e, t) => .raised (.transportFailure e) t := by
        conv => lhs; unfold drainLoop
        rw [if_pos (by simpa using h8), hbdef] <;> rfl
      rcases hn : s.sink.next with _ | ⟨a, k1⟩
      · refine ⟨[], s.sink, s.wr, rfl, hw, by simp, .inr ⟨h8, .inr ⟨hn, ?_⟩⟩⟩
        rw [hunf, snkWrite_eq, hn]
        rfl
      · have hs : snkWrite b s = some (a, { s with sink := k1.took b a, calls := s.calls ++ [.snkWrite b a] }) := by
          rw [snkWrite_eq, hn]; rfl
        cases a with
        | ok =>
          have hav : s.wr.emitted.avail = s.wr.avail - 8 := by
            rw [← Acc.length_bits, hbits, List.length_drop, Acc.length_bits]
          obtain ⟨es, k, w, g1, g2, g3, g4⟩ := ih
            ({ s with wr := s.wr.emitted, sink := k1.took b .ok, calls := s.calls ++ [.snkWrite b .ok] } : State)
            (by show s.wr.emitted.avail ≤ r; omega) hw'
          have hloop : drainLoop (r + 1) s =
              drainLoop r { s with wr := s.wr.emitted, sink := k1.took b .ok, calls := s.calls ++ [.snkWrite b .ok] } := by
            rw [hunf, hs]
            rfl
          have hd : ∀ w k, State.drained { s with wr := s.wr.emitted, sink := k1.took b .ok, calls := s.calls ++ [.snkWrite b .ok] }
              w es k = s.drained w (b :: es) k := by
            intro w k
            simp [State.drained]
          simp only [hd] at g4
          refine ⟨b :: es, k, w, ⟨k1, hn, g1⟩, g2, ?_, ?_⟩
          · rw [bytesBits_cons, List.append_assoc, ← g3, hb]
            show _ = _ ++ s.wr.emitted.bits
            rw [hbits, List.take_append_drop]
          · rw [hloop]
            exact g4
        | fail e =>
          refine ⟨[], s.sink, s.wr, rfl, hw, by simp, .inr ⟨h8, .inl ⟨b, e, k1, hb, hn, ?_⟩⟩⟩
          rw [hunf, hs]
          simp [State.drained, State.refusedByte]

/-- Everything DRAIN can do (R141, R145). -/
theorem drain_cases (s : State) (hw : WriterInv s.wr) :
    ∃ es k w, s.sink.Accepts es k ∧ WriterInv w ∧ s.wr.bits = bytesBits es ++ w.bits ∧
      ((w.avail < 8 ∧ drain s = .done () (s.drained w es k)) ∨
        (8 ≤ w.avail ∧
          ((∃ b e k2, byteBits b = w.bits.take 8 ∧ k.next = some (.fail e, k2) ∧
              drain s = .raised (.transportFailure e) ((s.drained w es k).refusedByte b e k2)) ∨
            (k.next = none ∧ drain s = .hung .sinkSilent)))) :=
  drainLoop_cases s.wr.avail s le_rfl hw

/-- The bound on the rounds is never what ends the loop: any bound of at least `avail` gives the same result. -/
theorem drainLoop_rounds {r r' : Nat} (s : State) (h : s.wr.avail ≤ r) (h' : s.wr.avail ≤ r') :
    drainLoop r s = drainLoop r' s := by
  have hav : ∀ a : Acc, 8 ≤ a.avail → (a.advance 8).normalize.avail = a.avail - 8 := by
    intro a _
    rw [← Acc.length_bits, Acc.bits_normalize, Acc.bits_advance, List.length_drop, Acc.length_bits]
  induction r generalizing r' s with
  | zero =>
    cases r' with
    | zero => rfl
    | succ r' => unfold drainLoop; rw [if_neg (by simp; omega)]
  | succ r ih =>
    cases r' with
    | zero => unfold drainLoop; rw [if_neg (by simp; omega)]
    | succ r' =>
      unfold drainLoop
      split
      · next h8 =>
        rw [snkWrite_eq]
        rcases s.sink.next with _ | ⟨a, k⟩
        · rfl
        · cases a with
          | ok =>
            refine ih _ ?_ ?_ <;>
            · show (s.wr.advance 8).normalize.avail ≤ _
              rw [hav _ (by simpa using h8)]; omega
          | fail e => rfl
      · rfl

/-! ### A field write (R144) -/

/-- INSERT keeps the writer's invariant and stages the field above what is staged (R103, R104). -/
theorem Acc.insert_spec {a : Acc} {v n : Nat} (h : WriterInv a) (hn : n < 64) (hv : v < 2 ^ n) (hc : a.stop + n ≤ 64) :
    WriterInv (a.insert (valueOperand v) n) ∧ (a.insert (valueOperand v) n).bits = a.bits ++ fieldBits v n := by
  obtain ⟨h1, h2, h3⟩ := h
  refine ⟨⟨Acc.ordered_insert h1 hc, Acc.clean_insert h2, h3⟩, ?_⟩
  rw [Acc.bits_insert h1 h2 hc]
  have : (valueOperand v).toNat = v := by
    simp only [valueOperand, BitVec.toNat_ofNat]
    exact Nat.mod_eq_of_lt (hv.trans (Nat.pow_lt_pow_right (by decide) hn))
  rw [this]

/-- Everything a field write can do (R144, R145): it is rejected with nothing changed; or it stages the field and emits the
complete bytes; or the sink stops it and the rest stays staged; or it hangs. -/
theorem writeField_cases (v n : Nat) (s : State) (hw : WriterInv s.wr) :
    (¬ (0 < n ∧ n < 64 ∧ v < 2 ^ n ∧ s.wr.stop + n ≤ 64) ∧ writeField v n s = .raised .invalidArgument s) ∨
    ((0 < n ∧ n < 64 ∧ v < 2 ^ n ∧ s.wr.stop + n ≤ 64) ∧
      ∃ es k w, s.sink.Accepts es k ∧ WriterInv w ∧ s.wr.bits ++ fieldBits v n = bytesBits es ++ w.bits ∧
        ((w.avail < 8 ∧ writeField v n s = .done 0#64 (s.drained w es k)) ∨
          (8 ≤ w.avail ∧
            ((∃ b e k2, byteBits b = w.bits.take 8 ∧ k.next = some (.fail e, k2) ∧
                writeField v n s = .raised (.transportFailure e) ((s.drained w es k).refusedByte b e k2)) ∨
              (k.next = none ∧ writeField v n s = .hung .sinkSilent))))) := by
  by_cases hn : 0 < n ∧ n < 64
  · by_cases hv : v < 2 ^ n
    · by_cases hc : s.wr.stop + n ≤ 64
      · refine .inr ⟨⟨hn.1, hn.2, hv, hc⟩, ?_⟩
        have hr : writeField v n s = (drain (s.setWr (s.wr.insert (valueOperand v) n))).bind fun _ t => .done 0#64 t := by
          simp [writeField, widthOk, fitOk, writeCapacityOk, hn, hv, hc]
        obtain ⟨h1, h2⟩ := Acc.insert_spec hw hn.2 hv hc
        obtain ⟨es, k, w, g1, g2, g3, g4⟩ := drain_cases (s.setWr (s.wr.insert (valueOperand v) n)) h1
        rw [State.setWr_wr, h2] at g3
        have hd : ∀ w es k, (s.setWr (s.wr.insert (valueOperand v) n)).drained w es k = s.drained w es k := fun _ _ _ => rfl
        simp only [hd] at g4
        refine ⟨es, k, w, g1, g2, g3, ?_⟩
        rcases g4 with ⟨k1, k2⟩ | ⟨k1, ⟨b, e, k3, k4, k5, k6⟩ | ⟨k2, k3⟩⟩
        · exact .inl ⟨k1, by rw [hr, k2]; rfl⟩
        · exact .inr ⟨k1, .inl ⟨b, e, k3, k4, k5, by rw [hr, k6]; rfl⟩⟩
        · exact .inr ⟨k1, .inr ⟨k2, by rw [hr, k3]; rfl⟩⟩
      · exact .inl ⟨by tauto, by simp [writeField, widthOk, fitOk, writeCapacityOk, hn, hv, hc]⟩
    · exact .inl ⟨by tauto, by simp [writeField, widthOk, fitOk, hn, hv]⟩
  · exact .inl ⟨by tauto, by simp [writeField, widthOk, hn]⟩

/-- The three single-field writes are one operation (R72). -/
theorem exec_fieldWrite {i : Instr} {v n : Nat} (hi : fieldWriteOperands i = some (v, n)) (s : State) :
    exec i s = complete (writeField v n s) := by
  cases i <;> simp only [fieldWriteOperands, Option.some.injEq, reduceCtorEq, Prod.mk.injEq] at hi <;>
    obtain ⟨rfl, rfl⟩ := hi <;> rfl

/-! ### The element loop (R148) -/

/-- The elements of a host buffer from index `i` on. -/
def Memory.slice (m : Memory) : Nat → Nat → List Byte
  | _, 0 => []
  | i, n + 1 => m.read i :: Memory.slice m (i + 1) n

@[simp] theorem Memory.length_slice (m : Memory) (i n : Nat) : (m.slice i n).length = n := by
  induction n generalizing i with
  | zero => rfl
  | succ n ih => simp [Memory.slice, ih]

theorem Memory.slice_zero_eq (m : Memory) (n : Nat) : m.slice 0 n = m.prefixBytes n := by
  have : ∀ n i, m.slice i n = (List.range n).map fun j => m.read (i + j) := by
    intro n
    induction n with
    | zero => intro i; rfl
    | succ n ih =>
      intro i
      rw [Memory.slice, ih, List.range_succ_eq_map]
      simp [Nat.add_comm, Nat.add_left_comm]
  simpa [Memory.prefixBytes] using this n 0

/-- The elements of a buffer, cut in two. -/
theorem Memory.slice_add (s : Memory) : ∀ m d i, s.slice i (m + d) = s.slice i m ++ s.slice (i + m) d := by
  intro m d
  induction m with
  | zero => intro i; simp [Memory.slice]
  | succ m ih => intro i; rw [Nat.succ_add, Memory.slice, ih, Memory.slice]; simp [Nat.add_assoc, Nat.add_comm 1]

/-- The accesses of an element loop: which bytes were accepted and which elements read, and that nothing else was done
beyond sink calls. -/
structure WriteTrace (new : List Access) (es : List Byte) (i : Nat) (xs : List Byte) : Prop where
  emitted : new.filterMap Access.emitted = es
  loads   : new.filterMap Access.loaded = xs.zipIdx.map fun p => (i + p.2, p.1)
  calls   : new.filter Access.isTransport = es.map fun b => .snkWrite b .ok
  only    : ∀ c ∈ new, c.srcAnswer = none ∧ c.stored = none

theorem emitted_accepted (es : List Byte) : (es.map fun b => Access.snkWrite b .ok).filterMap Access.emitted = es := by
  induction es with
  | nil => rfl
  | cons b es ih => rw [List.map_cons, List.filterMap_cons_some (f := Access.emitted) (b := b) rfl, ih]

theorem transport_accepted (es : List Byte) :
    (es.map fun b => Access.snkWrite b .ok).filter Access.isTransport = es.map fun b => .snkWrite b .ok :=
  List.filter_eq_self.2 fun c hc => by
    obtain ⟨b, -, rfl⟩ := List.mem_map.1 hc
    rfl

/-- The loads of a slice, one after the first. -/
theorem zipIdx_loads (x : Byte) (xs : List Byte) (i : Nat) :
    ((x :: xs).zipIdx.map fun p => (i + p.2, p.1)) = (i, x) :: xs.zipIdx.map fun p => (i + 1 + p.2, p.1) := by
  rw [List.zipIdx_cons, List.map_cons]
  simp only [Nat.add_zero, Nat.zero_add, List.cons.injEq, true_and]
  rw [List.zipIdx_succ]
  simp [Nat.add_assoc, Nat.add_comm 1]

/-- Everything the element loop can do (R148): it is rejected at its first element with nothing changed; or every element is
written; or the sink stops it at an element that is then staged; or it hangs. -/
theorem writeBytesLoop_cases (todo done : Nat) (s : State) (hw : WriterInv s.wr) :
    (0 < todo ∧ 56 < s.wr.stop ∧ writeBytesLoop todo done s = .done (done, some .invalidArgument) s) ∨
    ((todo = 0 ∨ s.wr.stop ≤ 56) ∧
      ∃ es k w m new, s.sink.Accepts es k ∧ WriterInv w ∧
        s.wr.bits ++ bytesBits (s.src.slice done m) = bytesBits es ++ w.bits ∧
        (((m = todo ∧ (todo = 0 ∨ w.avail < 8)) ∧ WriteTrace new es done (s.src.slice done m) ∧
            writeBytesLoop todo done s = .done (done + m, none) { s with wr := w, sink := k, calls := s.calls ++ new }) ∨
          (0 < m ∧ m ≤ todo ∧ 8 ≤ w.avail ∧ m - 1 = es.length - s.wr.avail / 8 ∧
            ((∃ b e k2, byteBits b = w.bits.take 8 ∧ k.next = some (.fail e, k2) ∧ WriteTrace new es done (s.src.slice done m) ∧
                writeBytesLoop todo done s = .done (done + (m - 1), some (.transportFailure e))
                  { s with wr := w, sink := k2, calls := s.calls ++ new ++ [.snkWrite b (.fail e)] }) ∨
              (k.next = none ∧ writeBytesLoop todo done s = .hung .sinkSilent))))) := by
  induction todo generalizing done s with
  | zero =>
    refine .inr ⟨.inl rfl, [], s.sink, s.wr, 0, [], rfl, hw, by simp [Memory.slice], .inl ⟨⟨rfl, .inl rfl⟩, ⟨rfl, rfl, rfl, by simp⟩, ?_⟩⟩
    simp [writeBytesLoop]
  | succ todo ih =>
    by_cases hcap : s.wr.stop + 8 ≤ 64
    · refine .inr ⟨.inr (by omega), ?_⟩
      obtain ⟨x, hx⟩ : ∃ x, x = s.src.read done := ⟨_, rfl⟩
      have hunf : writeBytesLoop (todo + 1) done s =
          match writeField x.toNat 8 { s with calls := s.calls ++ [.srcLoad done x] } with
          | .done _ t => writeBytesLoop todo (done + 1) t
          | .raised e t => .done (done, some e) t
          | .hung f => .hung f := by
        conv => lhs; unfold writeBytesLoop
        rw [if_neg (by simp [writeCapacityOk]; omega), loadSrc_eq, hx] <;> rfl
      rcases writeField_cases x.toNat 8 { s with calls := s.calls ++ [.srcLoad done x] } hw with ⟨h, -⟩ | ⟨-, es, k, w, g1, g2, g3, g4⟩
      · exact absurd ⟨by decide, by decide, by simpa using x.isLt, hcap⟩ h
      · simp only at g1 g3
        rw [← byteBits_eq_fieldBits] at g3
        have hlen := congrArg List.length g3
        simp only [List.length_append, Acc.length_bits, length_byteBits, length_bytesBits] at hlen
        rcases g4 with ⟨k1, k2⟩ | ⟨k1, ⟨b, e, k3, k4, k5, k6⟩ | ⟨k2, k3⟩⟩
        · rw [k2] at hunf
          have hstop : w.stop ≤ 7 := by have := g2.2.2; simp [Acc.avail] at k1; omega
          rcases ih (done + 1) (State.drained { s with calls := s.calls ++ [.srcLoad done x] } w es k) g2 with
            ⟨h1, h2, -⟩ | ⟨-, es2, kk, w2, m, new, f1, f2, f3, f4⟩
          · exact absurd h2 (by show ¬ 56 < w.stop; omega)
          · refine ⟨es ++ es2, kk, w2, m + 1, .srcLoad done x :: (es.map fun b => .snkWrite b .ok) ++ new,
              Sink.accepts_append.2 ⟨k, g1, f1⟩, f2, ?_, ?_⟩
            · show s.wr.bits ++ bytesBits (s.src.read done :: s.src.slice (done + 1) m) = _
              rw [bytesBits_cons, ← hx, ← List.append_assoc, g3, List.append_assoc, bytesBits_append, List.append_assoc, ← f3]
              rfl
            · have htr : ∀ ys, WriteTrace new es2 (done + 1) ys →
                  WriteTrace (.srcLoad done x :: (es.map fun b => .snkWrite b .ok) ++ new) (es ++ es2) done (x :: ys) := by
                intro ys ht
                refine ⟨?_, ?_, ?_, ?_⟩
                · rw [List.filterMap_append, ht.emitted]
                  exact congrArg (· ++ es2) (emitted_accepted es)
                · rw [List.filterMap_append, ht.loads, zipIdx_loads]
                  simp [Access.loaded]
                · rw [List.filter_append, ht.calls, List.map_append, List.filter_cons_of_neg (by simp [Access.isTransport]), transport_accepted]
                · intro c hc
                  simp only [List.cons_append, List.mem_cons, List.mem_append, List.mem_map] at hc
                  rcases hc with rfl | ⟨b, -, rfl⟩ | hc
                  · simp [Access.srcAnswer, Access.stored]
                  · simp [Access.srcAnswer, Access.stored]
                  · exact ht.only c hc
              have hsl : s.src.slice done (m + 1) = x :: s.src.slice (done + 1) m := by rw [hx]; rfl
              rw [hunf, hsl]
              rcases f4 with ⟨⟨e1, e2⟩, e3, e4⟩ | ⟨e1, e2, e3, e4, ⟨b, e, k3, e5, e6, e7, e8⟩ | ⟨e5, e6⟩⟩
              · refine .inl ⟨⟨by omega, .inr ?_⟩, htr _ e3, ?_⟩
                · rcases e2 with e2 | e2
                  · have hm : m = 0 := by omega
                    subst hm
                    have := congrArg List.length f3
                    simp [Memory.slice, State.drained] at this
                    omega
                  · exact e2
                · simp only [e4]
                  simp [State.drained, Nat.add_assoc, Nat.add_comm 1]
              · refine .inr ⟨by omega, by omega, e3, ?_, .inl ⟨b, e, k3, e5, e6, htr _ e7, ?_⟩⟩
                · have hwav : (State.drained { s with calls := s.calls ++ [.srcLoad done x] } w es k).wr.avail = w.avail := rfl
                  rw [hwav] at e4
                  rw [List.length_append]
                  omega
                · simp only [e8]
                  rw [show done + 1 + (m - 1) = done + (m + 1 - 1) by omega]
                  simp [State.drained]
              · refine .inr ⟨by omega, by omega, e3, ?_, .inr ⟨e5, by simp only [e6]⟩⟩
                have hwav : (State.drained { s with calls := s.calls ++ [.srcLoad done x] } w es k).wr.avail = w.avail := rfl
                rw [hwav] at e4
                rw [List.length_append]
                omega
        · refine ⟨es, k, w, 1, .srcLoad done x :: es.map fun b => .snkWrite b .ok, g1, g2, ?_, .inr ⟨by omega, by omega, k1, ?_,
            .inl ⟨b, e, k3, k4, k5, ⟨?_, ?_, ?_, ?_⟩, ?_⟩⟩⟩
          · simpa [Memory.slice, ← hx] using g3
          · omega
          · exact emitted_accepted es
          · simp [Access.loaded, Memory.slice, hx]
          · rw [List.filter_cons_of_neg (by simp [Access.isTransport]), transport_accepted]
          · intro c hc
            simp only [List.mem_cons, List.mem_map] at hc
            rcases hc with rfl | ⟨b, -, rfl⟩ <;> simp [Access.srcAnswer, Access.stored]
          · rw [hunf, k6]
            simp [State.drained, State.refusedByte]
        · refine ⟨es, k, w, 1, .srcLoad done x :: es.map fun b => .snkWrite b .ok, g1, g2, ?_, .inr ⟨by omega, by omega, k1, ?_,
            .inr ⟨k2, by rw [hunf, k3]⟩⟩⟩
          · simpa [Memory.slice, ← hx] using g3
          · omega
    · refine .inl ⟨by omega, by omega, ?_⟩
      unfold writeBytesLoop
      rw [if_pos (by simp [writeCapacityOk]; omega)]

/-! ### FLUSH (R150) -/

/-- Everything FLUSH can do to the accumulator and the sink (R150): the padding is staged and every complete byte, hence
everything, is emitted; or the sink stops it; or it hangs. -/
theorem flush_cases (s : State) (hw : WriterInv s.wr) :
    ∃ es k w, s.sink.Accepts es k ∧ WriterInv w ∧
      s.wr.bits ++ List.replicate (8 * ceilDiv8 s.wr.avail - s.wr.avail) false = bytesBits es ++ w.bits ∧
      ((w = Acc.empty ∧ drain (s.setWr s.wr.pad) = .done () (s.drained w es k)) ∨
        (8 ≤ w.avail ∧
          ((∃ b e k2, byteBits b = w.bits.take 8 ∧ k.next = some (.fail e, k2) ∧
              drain (s.setWr s.wr.pad) = .raised (.transportFailure e) ((s.drained w es k).refusedByte b e k2)) ∨
            (k.next = none ∧ drain (s.setWr s.wr.pad) = .hung .sinkSilent)))) := by
  have h1 : WriterInv s.wr.pad := ⟨Acc.ordered_pad hw.1 hw.2.2, Acc.clean_pad hw.1 hw.2.1, hw.2.2⟩
  obtain ⟨es, k, w, g1, g2, g3, g4⟩ := drain_cases (s.setWr s.wr.pad) h1
  rw [State.setWr_wr, Acc.bits_pad hw.2.1] at g3
  have hd : ∀ w es k, (s.setWr s.wr.pad).drained w es k = s.drained w es k := fun _ _ _ => rfl
  simp only [hd] at g4
  refine ⟨es, k, w, g1, g2, g3, ?_⟩
  rcases g4 with ⟨k1, k2⟩ | g4
  · refine .inl ⟨?_, k2⟩
    have hlen := congrArg List.length g3
    simp only [List.length_append, Acc.length_bits, List.length_replicate, length_bytesBits] at hlen
    have hle : s.wr.avail ≤ 8 * ceilDiv8 s.wr.avail := by simp [ceilDiv8]; omega
    have h0 : w.avail = 0 := by omega
    obtain ⟨⟨o1, o2⟩, hc, hs⟩ := g2
    have hstop : w.stop = 0 := by simp [Acc.avail, hs] at h0; exact h0
    have hreg : w.reg = 0#64 := by have := hc; rw [Acc.Clean, hstop] at this; simpa using this
    cases w
    simp_all [Acc.empty]
  · exact .inr g4

/-! ### Forward: what a write does with a given sink -/

/-- The writer's staged bits start at bit 0 (R29 a). -/
theorem WriterInv.avail_eq {a : Acc} (h : WriterInv a) : a.avail = a.stop := by
  obtain ⟨-, -, h⟩ := h; simp [Acc.avail, h]

/-- A clean register is below `2^end` (R27). -/
theorem Acc.Clean.toNat_lt {a : Acc} (hc : a.Clean) (h : a.stop ≤ 64) : a.reg.toNat < 2 ^ a.stop := by
  have h1 := congrArg BitVec.toNat hc
  rw [BitVec.toNat_ushiftRight, Nat.shiftRight_eq_div_pow] at h1
  simp at h1
  exact h1

/-- Bytes that spell the front of a stream are the front of the bytes that spell more of it. -/
theorem bytes_of_front {L : List Bool} {es cs : List Byte} {r : List Bool} (h : L = bytesBits es ++ r) (h2 : bytesBits cs = L.take (8 * cs.length)) (hl : cs.length ≤ es.length) :
   cs = es.take cs.length := by
  apply bytesBits_injective
  rw [h2, h, List.take_append_of_le_length (by simp; omega)]
  obtain ⟨k, hk⟩ : ∃ k, k = cs.length := ⟨_, rfl⟩
  rw [← hk] at hl ⊢
  clear h h2 hk
  induction es generalizing k with
  | nil => simp
  | cons e es ih =>
    cases k with
    | zero => simp
    | succ k =>
      rw [bytesBits_cons, List.take_succ_cons, bytesBits_cons, ← ih k (by simpa using hl), show 8 * (k+1) = (byteBits e).length + 8 * k by simp; omega]
      rw [List.take_length_add_append]

/-- Two acceptances of one stream that take the same number of bytes are the same. -/
theorem accepted_same {L r : List Bool} {es cs : List Byte} {k k1 k2 : Sink} (h : L = bytesBits es ++ r) (ha : k.Accepts es k1)
    (h2 : bytesBits cs = L.take (8 * cs.length)) (hc : k.Accepts cs k2)
    (hl : es.length = cs.length) : es = cs ∧ k1 = k2 := by
  have := bytes_of_front h h2 hl.ge
  rw [← hl, List.take_length] at this
  subst this
  refine ⟨rfl, ?_⟩
  have := Sink.accepts_split (ds := []) ha (by simpa using hc)
  exact this.symm

/-- A sink that accepts more of the stream than has been offered accepts the next byte. -/
theorem accepted_next {L r : List Bool} {es cs : List Byte} {k k1 k2 : Sink} (h : L = bytesBits es ++ r) (ha : k.Accepts es k1)
    (h2 : bytesBits cs = L.take (8 * cs.length)) (hc : k.Accepts cs k2)
    (hl : es.length < cs.length) (hL : 8 * cs.length ≤ L.length) : ∃ k3, k1.next = some (.ok, k3) := by
  have h3 : bytesBits cs = bytesBits es ++ r.take (8 * (cs.length - es.length)) := by
    rw [h2, h, show 8 * cs.length = (bytesBits es).length + 8 * (cs.length - es.length) by simp; omega, List.take_length_add_append]
  -- es is prefix of cs
  have : es = cs.take es.length := bytes_of_front (L := bytesBits cs) (es := cs) (r := []) (by simp) (by rw [h3, List.take_left' (by simp)]) (by omega)
  obtain ⟨ds, rfl⟩ : ∃ ds, cs = es ++ ds := ⟨cs.drop es.length, by conv => lhs; rw [← List.take_append_drop es.length cs, ← this]⟩
  have := Sink.accepts_split ha hc
  cases ds with
  | nil => simp at hl
  | cons d ds => obtain ⟨k3, h, -⟩ := this; exact ⟨k3, h⟩

/-- The front and the last byte of a run of bytes that spells a stream. -/
theorem bytesBits_front {cs : List Byte} {b : Byte} {L : List Bool} (h2 : bytesBits (cs ++ [b]) = L.take (8 * cs.length + 8)) : 
   bytesBits cs = L.take (8 * cs.length) ∧ byteBits b = (L.drop (8 * cs.length)).take 8 := by
  rw [bytesBits_append, bytesBits_singleton] at h2
  rw [List.take_add] at h2
  have hl := congrArg List.length h2
  simp at hl
  obtain ⟨h3, h4⟩ := List.append_inj h2 (by simp; omega)
  exact ⟨h3, h4⟩

/-- A sink that does not accept the next byte has accepted no more than the bytes before it. -/
theorem unaccepted_length {L r : List Bool} {es cs : List Byte} {k k1 k2 : Sink} (h : L = bytesBits es ++ r) (ha : k.Accepts es k1)
    (h2 : bytesBits cs = L.take (8 * cs.length)) (hc : k.Accepts cs k2) (hf : ∀ k3, k2.next ≠ some (.ok, k3)) :
    es.length ≤ cs.length := by
  by_contra hl
  have hx := bytes_of_front h h2 (by omega)
  obtain ⟨ds, rfl⟩ : ∃ ds, es = cs ++ ds := ⟨es.drop cs.length, by conv => lhs; rw [← List.take_append_drop cs.length es, ← hx]⟩
  have := Sink.accepts_split hc ha
  cases ds with
  | nil => simp at hl
  | cons d ds => obtain ⟨k3, h3, -⟩ := this; exact hf k3 h3

/-- A sink that refuses the next byte has accepted no more than the bytes before it. -/
theorem refused_length {L r : List Bool} {es cs : List Byte} {b : Byte} {e : TErr} {k k1 k2 k' : Sink} (h : L = bytesBits es ++ r) (ha : k.Accepts es k1)
    (h2 : bytesBits (cs ++ [b]) = L.take (8 * cs.length + 8)) (hc : k.Accepts cs k2) (hf : k2.next = some (.fail e, k')) :
    es.length ≤ cs.length :=
  unaccepted_length h ha (bytesBits_front h2).1 hc (by rw [hf]; simp)

/-- Two offers of one stream that both stop before its end, each at a byte the sink does not accept, stop at the same byte. -/
theorem stopped_same {L r : List Bool} {es cs : List Byte} {k k1 k2 : Sink} (h : L = bytesBits es ++ r) (ha : k.Accepts es k1)
    (h2 : bytesBits cs = L.take (8 * cs.length)) (hc : k.Accepts cs k2) (hL : 8 * cs.length ≤ L.length)
    (h1 : ∀ k3, k1.next ≠ some (.ok, k3)) (hf : ∀ k3, k2.next ≠ some (.ok, k3)) : es = cs ∧ k1 = k2 := by
  have hle := unaccepted_length h ha h2 hc hf
  rcases Nat.lt_or_ge es.length cs.length with hlt | hge
  · obtain ⟨k3, h3⟩ := accepted_next h ha h2 hc hlt hL
    exact absurd h3 (h1 k3)
  · exact accepted_same h ha h2 hc (by omega)

/-- A field write whose bytes the sink accepts emits them (R144). -/
theorem writeField_ok {v n : Nat} {s : State} {es : List Byte} {k : Sink} (h0 : 0 < n) (h1 : n < 64) (hv : v < 2 ^ n) (hw : WriterInv s.wr)
   (hc : s.wr.stop + n ≤ 64) (hl : es.length = (s.wr.avail + n) / 8) (hb : bytesBits es = (s.wr.bits ++ fieldBits v n).take (8 * es.length))
   (ha : s.sink.Accepts es k) : ∃ w, writeField v n s = .done 0#64 (s.drained w es k) ∧ WriterInv w ∧ w.stop ≤ 7 ∧ s.wr.bits ++ fieldBits v n = bytesBits es ++ w.bits := by
  rcases writeField_cases v n s hw with ⟨h, -⟩ | ⟨-, cs, k1, w, g1, g2, g3, g4⟩
  · exact absurd ⟨h0, h1, hv, hc⟩ h
  have hlen := congrArg List.length g3
  simp only [List.length_append, Acc.length_bits, length_bytesBits, length_fieldBits] at hlen
  rcases g4 with ⟨g4, g5⟩ | ⟨g4, g5⟩
  · obtain ⟨rfl, rfl⟩ := accepted_same g3 g1 hb ha (by omega)
    exact ⟨w, g5, g2, by have := WriterInv.avail_eq g2; omega, g3⟩
  · obtain ⟨k3, h⟩ := accepted_next g3 g1 hb ha (by omega) (by simp; omega)
    rcases g5 with ⟨b, e, k2, -, e1, -⟩ | ⟨e1, -⟩ <;> rw [h] at e1 <;> cases e1

/-- A field write that the sink stops leaves the refused byte staged (R145). -/
theorem writeField_fail {v n : Nat} {s : State} {es : List Byte} {b : Byte} {e : TErr} {k k' : Sink} (h0 : 0 < n) (h1 : n < 64) (hv : v < 2 ^ n) (hw : WriterInv s.wr)
   (hc : s.wr.stop + n ≤ 64) (hl : es.length < (s.wr.avail + n) / 8) (hb : bytesBits (es ++ [b]) = (s.wr.bits ++ fieldBits v n).take (8 * es.length + 8))
   (ha : s.sink.Accepts es k) (hf : k.next = some (.fail e, k')) : ∃ w, writeField v n s = .raised (.transportFailure e) ((s.drained w es k).refusedByte b e k') ∧ WriterInv w ∧ 8 ≤ w.stop ∧ s.wr.bits ++ fieldBits v n = bytesBits es ++ w.bits := by
  rcases writeField_cases v n s hw with ⟨h, -⟩ | ⟨-, cs, k1, w, g1, g2, g3, g4⟩
  · exact absurd ⟨h0, h1, hv, hc⟩ h
  have hlen := congrArg List.length g3
  simp only [List.length_append, Acc.length_bits, length_bytesBits, length_fieldBits] at hlen
  have hle := refused_length g3 g1 hb ha hf
  obtain ⟨hb1, hb2⟩ := bytesBits_front hb
  rcases g4 with ⟨g4, g5⟩ | ⟨g4, g5⟩
  · omega
  · rcases Nat.lt_or_ge cs.length es.length with hlt | hge
    · obtain ⟨k3, h⟩ := accepted_next g3 g1 hb1 ha (by omega) (by simp; omega)
      rcases g5 with ⟨b, e, k2, -, e1, -⟩ | ⟨e1, -⟩ <;> rw [h] at e1 <;> cases e1
    · obtain ⟨rfl, rfl⟩ := accepted_same g3 g1 hb1 ha (by omega)
      rcases g5 with ⟨b', e', k2, e0, e1, e2⟩ | ⟨e1, -⟩
      · rw [hf] at e1; cases e1
        have : b' = b := byteBits_injective (by rw [e0, hb2, g3, List.drop_left' (by simp)])
        subst this
        exact ⟨w, e2, g2, by have := WriterInv.avail_eq g2; omega, g3⟩
      · rw [hf] at e1; cases e1

/-- A field write whose sink falls silent too early hangs (R59). -/
theorem writeField_hang {v n : Nat} {s : State} {es : List Byte} {k : Sink} (h0 : 0 < n) (h1 : n < 64) (hv : v < 2 ^ n) (hw : WriterInv s.wr)
    (hc : s.wr.stop + n ≤ 64) (hl : es.length < (s.wr.avail + n) / 8)
    (hb : bytesBits es = (s.wr.bits ++ fieldBits v n).take (8 * es.length)) (ha : s.sink.Accepts es k) (hn : k.next = none) :
    writeField v n s = .hung .sinkSilent := by
  have hf : ∀ k3, k.next ≠ some (.ok, k3) := by rw [hn]; simp
  rcases writeField_cases v n s hw with ⟨h, -⟩ | ⟨-, cs, k1, w, g1, g2, g3, g4⟩
  · exact absurd ⟨h0, h1, hv, hc⟩ h
  have hlen := congrArg List.length g3
  simp only [List.length_append, Acc.length_bits, length_bytesBits, length_fieldBits] at hlen
  have hle := unaccepted_length g3 g1 hb ha hf
  rcases g4 with ⟨g4, g5⟩ | ⟨g4, ⟨b, e, k2, -, e1, -⟩ | ⟨-, e2⟩⟩
  · omega
  · obtain ⟨-, rfl⟩ := stopped_same g3 g1 hb ha (by simp; omega) (by rw [e1]; simp) hf
    rw [hn] at e1; cases e1
  · exact e2

/-- An element loop whose sink falls silent too early hangs (R59). -/
theorem writeBytesLoop_hang {count : Nat} {s : State} {es : List Byte} {k : Sink} (hw : WriterInv s.wr) (hc : s.wr.stop ≤ 56)
    (hl : 8 * es.length + 8 ≤ s.wr.avail + 8 * count) (h0 : 0 < count)
    (hb : bytesBits es = (s.wr.bits ++ bytesBits (s.src.slice 0 count)).take (8 * es.length)) (ha : s.sink.Accepts es k)
    (hn : k.next = none) : writeBytesLoop count 0 s = .hung .sinkSilent := by
  have hf : ∀ k3, k.next ≠ some (.ok, k3) := by rw [hn]; simp
  rcases writeBytesLoop_cases count 0 s hw with ⟨-, h, -⟩ | ⟨-, cs, k1, w, m, new, g1, g2, g3, g4⟩
  · omega
  have hlen := congrArg List.length g3
  simp only [List.length_append, Acc.length_bits, length_bytesBits, Memory.length_slice] at hlen
  have hm : m ≤ count := by rcases g4 with ⟨⟨h, -⟩, -⟩ | ⟨-, h, -⟩ <;> omega
  have hg : s.wr.bits ++ bytesBits (s.src.slice 0 count) = bytesBits cs ++ (w.bits ++ bytesBits (s.src.slice (0 + m) (count - m))) := by
    rw [← List.append_assoc, ← g3, List.append_assoc, ← bytesBits_append, ← Memory.slice_add, Nat.add_sub_cancel' hm]
  have hle := unaccepted_length hg g1 hb ha hf
  rcases g4 with ⟨⟨rfl, g4⟩, -⟩ | ⟨-, -, -, -, ⟨b, e, k2, -, e1, -⟩ | ⟨-, e2⟩⟩
  · omega
  · obtain ⟨-, rfl⟩ := stopped_same hg g1 hb ha (by simp; omega) (by rw [e1]; simp) hf
    rw [hn] at e1; cases e1
  · exact e2

/-- A flush whose sink falls silent too early hangs (R59). -/
theorem flush_hang {s : State} {es : List Byte} {k : Sink} (hw : WriterInv s.wr) (hl : es.length < ceilDiv8 s.wr.avail)
    (hb : bytesBits es = (s.wr.bits ++ List.replicate (8 * ceilDiv8 s.wr.avail - s.wr.avail) false).take (8 * es.length))
    (ha : s.sink.Accepts es k) (hn : k.next = none) : drain (s.setWr s.wr.pad) = .hung .sinkSilent := by
  have hf : ∀ k3, k.next ≠ some (.ok, k3) := by rw [hn]; simp
  have hle8 : s.wr.avail ≤ 8 * ceilDiv8 s.wr.avail := by simp only [ceilDiv8]; omega
  obtain ⟨cs, k1, w, g1, g2, g3, g4⟩ := flush_cases s hw
  have hlen := congrArg List.length g3
  simp only [List.length_append, Acc.length_bits, length_bytesBits, List.length_replicate] at hlen
  have hle := unaccepted_length g3 g1 hb ha hf
  rcases g4 with ⟨rfl, -⟩ | ⟨-, ⟨b, e, k2, -, e1, -⟩ | ⟨-, e2⟩⟩
  · simp [Acc.avail, Acc.empty] at hlen hl; omega
  · obtain ⟨-, rfl⟩ := stopped_same g3 g1 hb ha (by simp; omega) (by rw [e1]; simp) hf
    rw [hn] at e1; cases e1
  · exact e2

/-- The offset of the first element is 0. -/
theorem loads_zero (xs : List Byte) : (xs.zipIdx.map fun p => (0 + p.2, p.1)) = xs.zipIdx.map fun p => (p.2, p.1) := by simp

end Sys2Proof.Machine
end

