-- ==== Sys2Proof/Tests/Slice0.lean ====
section
/-! SUPPORT. The model's own tests: expected results from the spec's worked words (30_encoding.md R91, R92) and worked vectors
(95_test_vectors.md), and for every statement with hypotheses a concrete state and operands that meet them together. -/

namespace Sys2Proof.Tests
open Sys2Proof Sys2Proof.Machine

/-! ### WellFormed: each check refuses an ill-formed command (R76, R88) -/

theorem test_wf_refuses_wide_n : (Instr.readBits 256).wf = false ∧ (Instr.writeBits 0 256).wf = false := by decide

theorem test_wf_refuses_wide_arg :
    (Instr.readBytes (2 ^ 64)).wf = false ∧ (Instr.srcRead (2 ^ 64)).wf = false ∧ (Instr.writeBit (2 ^ 64)).wf = false ∧
    (Instr.writeBits (2 ^ 64) 1).wf = false ∧ (Instr.writeByte (2 ^ 64)).wf = false ∧
    (Instr.writeBytes (2 ^ 64)).wf = false := by decide

theorem test_wf_accepts_the_widest : (Instr.readBits 255).wf = true ∧ (Instr.writeBits (2 ^ 64 - 1) 255).wf = true ∧
    (Instr.readBytes (2 ^ 64 - 1)).wf = true := by decide

/-! ### Decode: words written out field by field, `ARG`, `N`, `RSV`, `OP` from the top (R74, R91, 95_test_vectors.md section 3) -/

theorem test_decode_read_bit : decode 0x00000000000000000001#80 = .ok .readBit := by decide
theorem test_decode_read_bits : decode 0x00000000000000003F02#80 = .ok (.readBits 63) := by decide
theorem test_decode_read_byte : decode 0x00000000000000000003#80 = .ok .readByte := by decide
theorem test_decode_read_bytes : decode 0xFFFFFFFFFFFFFFFF0004#80 = .ok (.readBytes (2 ^ 64 - 1)) := by decide
theorem test_decode_src_read : decode 0x00000000000000100005#80 = .ok (.srcRead 16) := by decide
theorem test_decode_write_bit : decode 0x00000000000000010008#80 = .ok (.writeBit 1) := by decide
theorem test_decode_write_bits : decode 0x7FFFFFFFFFFFFFFF3F09#80 = .ok (.writeBits (2 ^ 63 - 1) 63) := by decide
theorem test_decode_write_byte : decode 0x00000000000000FF000A#80 = .ok (.writeByte 0xFF) := by decide
theorem test_decode_write_bytes : decode 0x0000000000000003000B#80 = .ok (.writeBytes 3) := by decide
theorem test_decode_flush : decode 0x0000000000000000000C#80 = .ok .flush := by decide

theorem test_decode_reserved_codes :
    decode 0x0#80 = .error .reservedCode ∧ decode 0x6#80 = .error .reservedCode ∧ decode 0x7#80 = .error .reservedCode ∧
    decode 0xD#80 = .error .reservedCode ∧ decode 0xE#80 = .error .reservedCode ∧ decode 0xF#80 = .error .reservedCode := by
  decide

theorem test_decode_rsv_comes_first :
    decode 0x11#80 = .error .reservedField ∧ decode 0xF3#80 = .error .reservedField ∧
    decode 0x16#80 = .error .reservedField := by decide

theorem test_decode_unused_fields :
    decode 0x101#80 = .error .unusedN ∧ decode 0x303#80 = .error .unusedN ∧ decode 0x10108#80 = .error .unusedN ∧
    decode 0x1010B#80 = .error .unusedN ∧ decode 0x10C#80 = .error .unusedN ∧
    decode 0x10001#80 = .error .unusedArg ∧ decode 0x80000000000000000001#80 = .error .unusedArg ∧
    decode 0x10302#80 = .error .unusedArg ∧ decode 0x1000C#80 = .error .unusedArg := by decide

theorem test_decode_table_word : decodeTableWord 80 0xABC0C09 = some (.writeBits 0xABC 12) ∧
    decodeTableWord 16 0xABC0C09 = some (.writeBits 0 12) ∧ decodeTableWord 80 0x10001 = none := by decide

theorem test_text : (Instr.writeBits 5 3).text = "write_bits(5, 3)" ∧ (Instr.srcRead 2).text = "attempt_read(dest, 2)" := by decide

/-! ### One step of a fresh machine -/

/-- What the test vectors show of a reader command. -/
structure ReaderShows where
  status : Status
  data   : Nat
  terr   : Nat
  stored : List Byte
  rd     : Machine.Acc
  calls  : Nat
  deriving DecidableEq, Repr

/-- What the test vectors show of a writer command. -/
structure WriterShows where
  status : Status
  data   : Nat
  terr   : Nat
  wr     : Machine.Acc
  out    : List Byte
  calls  : Nat
  deriving DecidableEq, Repr

/-- A reader command on a fresh machine with the given reader and source items (R60). -/
def readerShows (i : Instr) (a : Machine.Acc) (items : List SrcAnswer) : Option ReaderShows :=
  match exec i { State.reset with rd := a, source := Source.ofItems items } with
  | .next t => t.responses.head?.map fun r =>
      ⟨r.status, r.data.toNat, r.terr.toNat, r.bytes, t.rd, (t.calls.filterMap Access.srcAnswer).length⟩
  | .fault _ => none
  | .refused _ => none

/-- A writer command on a fresh machine with the given writer, source buffer and failing sink calls (R60). -/
def writerShows (i : Instr) (a : Machine.Acc) (src : List Byte) (failures : List (Nat × TErr)) : Option WriterShows :=
  match exec i { State.reset with wr := a, sink := Sink.ofFailures 8 failures, src := Memory.ofBytes src } with
  | .next t => t.responses.head?.map fun r =>
      ⟨r.status, r.data.toNat, r.terr.toNat, t.wr, t.sink.out, (t.calls.filter Access.isTransport).length⟩
  | .fault _ => none
  | .refused _ => none

theorem test_read_bit_last_bit : readerShows .readBit ⟨0x80#64, 7, 8⟩ [] = some ⟨.ok, 1, 0, [], ⟨0#64, 0, 0⟩, 0⟩ := by decide
theorem test_read_bit_first_bit :
    readerShows .readBit ⟨0#64, 0, 0⟩ [.byte 0xFE#8] = some ⟨.ok, 0, 0, [], ⟨0xFE#64, 1, 8⟩, 1⟩ := by decide

theorem test_read_bits_two_bytes :
    readerShows (.readBits 8) ⟨0xB2#64, 3, 8⟩ [.byte 0x3C#8] = some ⟨.ok, 0x96, 0, [], ⟨7#64, 0, 5⟩, 1⟩ := by decide
theorem test_read_bits_keeps_received :
    readerShows (.readBits 16) ⟨0#64, 0, 0⟩ [.byte 1#8, .fail 0x77#32] = some ⟨.transportFailure, 0, 0x77, [], ⟨1#64, 0, 8⟩, 2⟩ := by
  decide

theorem test_read_byte_unaligned :
    readerShows .readByte ⟨0xB2#64, 7, 8⟩ [.byte 0xFF#8] = some ⟨.ok, 0xFF, 0, [], ⟨1#64, 0, 1⟩, 1⟩ := by decide
/-- The vector behind log entry 6: answered `OK`, and sixteen bits remain. -/
theorem test_read_byte_from_backlog :
    readerShows .readByte ⟨0x30201#64, 0, 24⟩ [] = some ⟨.ok, 1, 0, [], ⟨0x302#64, 0, 16⟩, 0⟩ := by decide

theorem test_read_bytes_unaligned :
    readerShows (.readBytes 2) ⟨0x12#64, 4, 8⟩ [.byte 0x34#8, .byte 0x56#8] =
      some ⟨.ok, 2, 0, [0x41#8, 0x63#8], ⟨5#64, 0, 4⟩, 2⟩ := by decide
theorem test_read_bytes_partial :
    readerShows (.readBytes 4) ⟨0x30201#64, 0, 24⟩ [] = some ⟨.endOfStream, 3, 0, [1#8, 2#8, 3#8], ⟨0#64, 0, 0⟩, 1⟩ := by decide

theorem test_src_read_clean_end :
    readerShows (.srcRead 3) ⟨0#64, 0, 0⟩ [.byte 0x11#8, .byte 0x22#8] = some ⟨.ok, 2, 0, [0x11#8, 0x22#8], ⟨0#64, 0, 0⟩, 3⟩ := by
  decide
theorem test_src_read_failure :
    readerShows (.srcRead 3) ⟨0#64, 0, 0⟩ [.byte 0x11#8, .fail 5#32, .byte 0x33#8] =
      some ⟨.transportFailure, 1, 5, [0x11#8], ⟨0#64, 0, 0⟩, 2⟩ := by decide

theorem test_write_bit_completes_byte :
    writerShows (.writeBit 0) ⟨0x7F#64, 0, 7⟩ [] [] = some ⟨.ok, 0, 0, ⟨0#64, 0, 0⟩, [0x7F#8], 1⟩ := by decide
theorem test_write_bit_failure :
    writerShows (.writeBit 1) ⟨0x7F#64, 0, 7⟩ [] [(0, 0xE4#32)] = some ⟨.transportFailure, 0, 0xE4, ⟨0xFF#64, 0, 8⟩, [], 1⟩ := by decide

theorem test_write_bits_carry : writerShows (.writeBits 0xF 4) ⟨0x1D#64, 0, 5⟩ [] [] = some ⟨.ok, 0, 0, ⟨1#64, 0, 1⟩, [0xFD#8], 1⟩ := by
  decide
theorem test_write_bits_second_byte_fails :
    writerShows (.writeBits 0xABCD 16) ⟨0#64, 0, 0⟩ [] [(1, 0xE1#32)] =
      some ⟨.transportFailure, 0, 0xE1, ⟨0xAB#64, 0, 8⟩, [0xCD#8], 2⟩ := by decide

theorem test_write_byte_unaligned :
    writerShows (.writeByte 0xA5) ⟨1#64, 0, 1⟩ [] [] = some ⟨.ok, 0, 0, ⟨1#64, 0, 1⟩, [0x4B#8], 1⟩ := by decide
theorem test_write_byte_no_room :
    writerShows (.writeByte 0xFF) ⟨0x1FFFFFFFFFFFFFF#64, 0, 57⟩ [] [] =
      some ⟨.invalidArgument, 0, 0, ⟨0x1FFFFFFFFFFFFFF#64, 0, 57⟩, [], 0⟩ := by decide

theorem test_write_bytes_unaligned :
    writerShows (.writeBytes 2) ⟨5#64, 0, 3⟩ [0xFF#8, 0#8] [] = some ⟨.ok, 2, 0, ⟨0#64, 0, 3⟩, [0xFD#8, 0x07#8], 2⟩ := by decide
theorem test_write_bytes_backlog_fails :
    writerShows (.writeBytes 2) ⟨0xFFFFFFFFFFFFFF#64, 0, 56⟩ [1#8, 2#8] [(1, 0xE8#32)] =
      some ⟨.transportFailure, 0, 0xE8, ⟨0x1FFFFFFFFFFFF#64, 0, 56⟩, [0xFF#8], 2⟩ := by decide

theorem test_flush_two_bytes :
    writerShows .flush ⟨0x5AB#64, 0, 11⟩ [] [] = some ⟨.ok, 0, 0, ⟨0#64, 0, 0⟩, [0xAB#8, 5#8], 2⟩ := by decide
theorem test_flush_failure :
    writerShows .flush ⟨0x5AB#64, 0, 11⟩ [] [(1, 0xEA#32)] = some ⟨.transportFailure, 0, 0xEA, ⟨5#64, 0, 8⟩, [0xAB#8], 2⟩ := by decide

/-! ### The accumulator (95_test_vectors.md section 2) and the response word (R92) -/

theorem test_insert_fills_the_register :
    Acc.insert ⟨0x7F#64, 0, 7⟩ 0x1FFFFFFFFFFFFFF#64 57 = ⟨0xFFFFFFFFFFFFFFFF#64, 0, 64⟩ := by decide

theorem test_normalize_branches :
    Acc.normalize ⟨0xFFFFFFFFFFFFFFFF#64, 64, 64⟩ = ⟨0#64, 0, 0⟩ ∧ Acc.normalize ⟨0x1FF#64, 8, 9⟩ = ⟨1#64, 0, 1⟩ ∧
    Acc.normalize ⟨0x3CB2#64, 11, 16⟩ = ⟨7#64, 0, 5⟩ ∧ Acc.normalize ⟨0x1FFF#64, 7, 13⟩ = ⟨0x1FFF#64, 7, 13⟩ := by decide

theorem test_response_word : Response.word ⟨.transportFailure, 1#64, 5#32, []⟩ = 0x00000000000000010000000502#104 := by decide

/-! ### The step, the port and the fetch -/

theorem test_fetch_runs_the_word :
    step (State.reset.withFetchWord 80 0x10005) = exec (.srcRead 1) State.reset := by rfl

theorem test_step_answers_an_invalid_word :
    step (State.reset.withFetchWord 80 0x11) =
      .next { State.reset with responses := [⟨.invalidArgument, 0#64, 0#32, []⟩] } := by rfl

/-! ### Witnesses: a state and operands that meet the hypotheses of each statement -/

/-- A reader state from 95_test_vectors.md: five bits pending. -/
def rd5 : Acc := ⟨0xB2#64, 3, 8⟩

/-- A writer state from 95_test_vectors.md: three bits staged. -/
def wr3 : Acc := ⟨5#64, 0, 3⟩

/-- A machine with five reader bits pending, three writer bits staged, two source bytes and a sink that accepts. -/
def mid : State :=
  { State.reset with
    rd := rd5
    wr := wr3
    source := Source.ofBytes [0x3C#8, 0xA5#8]
    src := Memory.ofBytes [0xFF#8, 0#8] }

/-- The same machine with the given input at its port. -/
def midWith (x : HostInput) : State := { mid with port := [x] }

/-- The same machine with transports that never answer. -/
def silent : State := { mid with source := ⟨[.byte 1#8], none⟩, sink := ⟨[.ok], none, []⟩ }

/-- The same machine with a source that delivers one byte and fails, and a sink that accepts one byte and fails. -/
def failing : State := { mid with source := ⟨[.byte 1#8, .fail 7#32], some .ended⟩, sink := ⟨[.ok, .fail 9#32], some .ok, []⟩ }

/-- A command as the host presents it. -/
def presented (w : CmdWord) : Command := ⟨w, Memory.ofBytes [1#8], []⟩

theorem witness_DecodeOfEncode : (Instr.writeBits (2 ^ 64 - 1) 255).wf = true := by decide

theorem witness_EncodeOfDecode : decode 0xFFFFFFFFFFFFFFFFFF09#80 = .ok (.writeBits (2 ^ 64 - 1) 255) := by decide

theorem witness_OpcodeTableIsTheDecoder :
    decode 0x302#80 = .ok (.readBits 3) ∧ (opcodeTable.filter fun r => r.holds 0x302#80).map (·.mnemonic) = ["READ_BITS"] ∧
    decode 0x10302#80 = .error .unusedArg ∧ opcodeTable.filter (fun r => r.holds 0x10302#80) = [] := by decide

/-- The four fields as arithmetic on the word's number, as DecodingTestsInOrder writes them. -/
def fieldsOf (w : CmdWord) : Nat × Nat × Nat × Nat := (w.toNat % 16, w.toNat / 16 % 16, w.toNat / 256 % 256, w.toNat / 65536)

theorem witness_DecodingTestsInOrder_errors :
    fieldsOf 0x16#80 = (6, 1, 0, 0) ∧ fieldsOf 0x10106#80 = (6, 0, 1, 1) ∧ fieldsOf 0x10101#80 = (1, 0, 1, 1) ∧
    fieldsOf 0x10001#80 = (1, 0, 0, 1) ∧ fieldsOf 0x10302#80 = (2, 0, 3, 1) := by decide

theorem witness_DecodingTestsInOrder_commands :
    fieldsOf 0x1#80 = (1, 0, 0, 0) ∧ fieldsOf 0xFF02#80 = (2, 0, 255, 0) ∧ fieldsOf 0x3#80 = (3, 0, 0, 0) ∧
    fieldsOf 0xFFFFFFFFFFFFFFFF0004#80 = (4, 0, 0, 2 ^ 64 - 1) ∧ fieldsOf 0x5#80 = (5, 0, 0, 0) ∧
    fieldsOf 0x20008#80 = (8, 0, 0, 2) ∧ fieldsOf 0xFFFFFFFFFFFFFFFFFF09#80 = (9, 0, 255, 2 ^ 64 - 1) ∧
    fieldsOf 0x100000A#80 = (10, 0, 0, 256) ∧ fieldsOf 0xB#80 = (11, 0, 0, 0) ∧ fieldsOf 0xC#80 = (12, 0, 0, 0) := by decide

theorem witness_DecodingTestsInOrder_step :
    (midWith (.command (presented 0#80))).port = .command (presented 0#80) :: [] ∧
    decode (presented 0#80).word = .error .reservedCode := by decide

theorem witness_ResponseWordLayout :
    (Response.okay 2#64 []).status = .ok ∧ (Response.error .endOfStream 0#64 []).status = .endOfStream ∧
    (Response.error (.transportFailure 1#32) 0#64 []).status = .transportFailure ∧
    (Response.error .invalidArgument 0#64 []).status = .invalidArgument := by decide

theorem witness_ExtractReadsTheWindow :
    63 ≤ Acc.avail ⟨0xFFFFFFFFFFFFFFFF#64, 0, 64⟩ ∧ Acc.avail ⟨0x8000000000000000#64, 63, 64⟩ = 1 ∧
    Acc.Clean ⟨0x8000000000000000#64, 63, 64⟩ ∧
    Acc.extract ⟨0xFFFFFFFFFFFFFFFF#64, 0, 64⟩ 63 = 0x7FFFFFFFFFFFFFFF#64 ∧
    Acc.extract ⟨0x8000000000000000#64, 63, 64⟩ 1 = 1#64 := by decide

theorem witness_InsertKeepsOrderAndClean : (7 : Nat) + 57 ≤ 64 ∧ Acc.Ordered ⟨0x7F#64, 0, 7⟩ ∧ Acc.Clean ⟨0x7F#64, 0, 7⟩ := by decide

theorem witness_NormalizeKeepsContent : Acc.Ordered ⟨0xFFFFFFFFFFFFFFFF#64, 63, 64⟩ ∧ Acc.Clean ⟨0xFFFFFFFFFFFFFFFF#64, 63, 64⟩ := by decide

theorem witness_NormalizeKeepsContent_branches :
    (Acc.Ordered ⟨0x5#64, 3, 3⟩ ∧ Acc.Clean ⟨0x5#64, 3, 3⟩) ∧ (Acc.Ordered ⟨0x1FF#64, 8, 9⟩ ∧ Acc.Clean ⟨0x1FF#64, 8, 9⟩) ∧
    Acc.Ordered ⟨0x1FFF#64, 7, 13⟩ ∧ Acc.Clean ⟨0x1FFF#64, 7, 13⟩ := by decide

theorem witness_ContentAbstraction : rd5.Ordered ∧ rd5.Clean ∧ rd5.stop + 56 ≤ 64 ∧ 5 ≤ rd5.avail := by decide

theorem witness_EveryStepKeepsTheInvariant_command :
    Inv (midWith (.command (presented 0x20004#80))) ∧ ∃ t, step (midWith (.command (presented 0x20004#80))) = .next t :=
  ⟨by decide, _, rfl⟩

theorem witness_EveryStepKeepsTheInvariant_reset : Inv (midWith .reset) ∧ ∃ t, step (midWith .reset) = .next t := ⟨by decide, _, rfl⟩

theorem witness_ResetInputEmptiesBothUnits : (midWith .reset).port = .reset :: [] := by decide

theorem witness_StepRunsTheDecodedCommand :
    (midWith (.command (presented 0x302#80))).port = .command (presented 0x302#80) :: [] ∧
    decode (presented 0x302#80).word = .ok (.readBits 3) := by decide

theorem witness_IdleBlockHoldsEverything : mid.port = [] := by decide

theorem witness_OverlappingInputsAreRefused :
    (midWith (.commandWhileBusy (presented 1#80))).port = .commandWhileBusy (presented 1#80) :: [] ∧
    (midWith .resetWhileBusy).port = .resetWhileBusy :: [] := by decide

theorem witness_SafeRunsNeverStop : SafeStart (midWith (.command (presented 0x302#80))) := by decide

theorem witness_OnlySilentTransportsHang_faults :
    Inv silent ∧ exec (.readBits 16) silent = .fault .sourceSilent ∧ exec (.writeBits 0xFFFF 16) silent = .fault .sinkSilent :=
  ⟨by decide, rfl, rfl⟩

theorem witness_OnlySilentTransportsHang_reader :
    fieldReadWidth (.readBits 16) = some 16 ∧ silent.rd.Ordered ∧ silent.rd.Clean ∧
    silent.rd.stop + 8 * ceilDiv8 (16 - silent.rd.avail) ≤ 64 ∧ [1#8].length < ceilDiv8 (16 - silent.rd.avail) ∧
    silent.source.Delivers [1#8] ⟨[], none⟩ ∧ Source.next ⟨[], none⟩ = none :=
  ⟨by decide, by decide, by decide, by decide, by decide, ⟨_, rfl, rfl⟩, rfl⟩

theorem witness_OnlySilentTransportsHang_writer :
    fieldWriteOperands (.writeBits 0xFFFF 16) = some (0xFFFF, 16) ∧ WriterInv silent.wr ∧ silent.wr.stop + 16 ≤ 64 ∧
    [0xFD#8].length < (silent.wr.avail + 16) / 8 ∧
    bytesBits [0xFD#8] = (silent.wr.bits ++ fieldBits 0xFFFF 16).take 8 ∧
    silent.sink.Accepts [0xFD#8] ⟨[], none, [0xFD#8]⟩ ∧ Sink.next ⟨[], none, [0xFD#8]⟩ = none :=
  ⟨by decide, by decide, by decide, by decide, by decide, ⟨_, rfl, rfl⟩, rfl⟩

theorem witness_OnlySilentTransportsHang_bytes :
    byteReadCount (.readBytes 2) = some 2 ∧ byteReadCount (.srcRead 2) = some 2 ∧ ReaderInv silent.rd ∧
    silent.rd.avail + 8 * [1#8].length < 8 * 2 ∧ silent.source.Delivers [1#8] ⟨[], none⟩ ∧ Source.next ⟨[], none⟩ = none :=
  ⟨by decide, by decide, by decide, by decide, ⟨_, rfl, rfl⟩, rfl⟩

theorem witness_OnlySilentTransportsHang_elements :
    WriterInv silent.wr ∧ silent.wr.stop ≤ 56 ∧ [0xFD#8].length < (silent.wr.avail + 8 * 2) / 8 ∧
    bytesBits [0xFD#8] = (silent.wr.bits ++ bytesBits (silent.src.prefixBytes 2)).take (8 * [0xFD#8].length) ∧
    silent.sink.Accepts [0xFD#8] ⟨[], none, [0xFD#8]⟩ ∧ Sink.next ⟨[], none, [0xFD#8]⟩ = none :=
  ⟨by decide, by decide, by decide, by decide, ⟨_, rfl, rfl⟩, rfl⟩

/-- A writer with eleven bits staged, whose sink accepts one byte and then never answers. -/
def silent11 : State := { silent with wr := ⟨0x5AB#64, 0, 11⟩ }

theorem witness_OnlySilentTransportsHang_flush :
    WriterInv silent11.wr ∧ [0xAB#8].length < ceilDiv8 silent11.wr.avail ∧
    bytesBits [0xAB#8] =
      (silent11.wr.bits ++ List.replicate (8 * ceilDiv8 silent11.wr.avail - silent11.wr.avail) false).take (8 * [0xAB#8].length) ∧
    silent11.sink.Accepts [0xAB#8] ⟨[], none, [0xAB#8]⟩ ∧ Sink.next ⟨[], none, [0xAB#8]⟩ = none :=
  ⟨by decide, by decide, by decide, ⟨_, rfl, rfl⟩, rfl⟩

theorem witness_FieldReadReturnsTheNextBits :
    fieldReadWidth .readByte = some 8 ∧ mid.rd.Ordered ∧ mid.rd.Clean ∧ [0x3C#8].length = ceilDiv8 (8 - mid.rd.avail) ∧
    mid.rd.stop + 8 * [0x3C#8].length ≤ 64 ∧ mid.source.Delivers [0x3C#8] (Source.ofBytes [0xA5#8]) :=
  ⟨by decide, by decide, by decide, by decide, by decide, ⟨_, rfl, rfl⟩⟩

theorem witness_FieldReadReturnsTheNextBits_widest :
    fieldReadWidth (.readBits 63) = some 63 ∧ Acc.empty.Ordered ∧ Acc.empty.Clean ∧
    (List.replicate 8 0xFF#8).length = ceilDiv8 (63 - Acc.empty.avail) ∧ Acc.empty.stop + 8 * 8 ≤ 64 ∧
    (Source.ofBytes (List.replicate 8 0xFF#8)).Delivers (List.replicate 8 0xFF#8) (Source.ofBytes []) :=
  ⟨by decide, by decide, by decide, by decide, by decide, Source.delivers_ofBytes (List.replicate 8 0xFF#8) []⟩

/-- `start` alone moves: the first row of 95_test_vectors.md section 4. -/
theorem witness_FieldReadReturnsTheNextBits_within_a_byte :
    Acc.empty.Ordered ∧ Acc.empty.Clean ∧ [0xB2#8].length = ceilDiv8 (3 - Acc.empty.avail) ∧ Acc.empty.stop + 8 * [0xB2#8].length ≤ 64 ∧
    (Source.ofBytes [0xB2#8]).Delivers [0xB2#8] (Source.ofBytes []) ∧
    readerShows (.readBits 3) Acc.empty [.byte 0xB2#8] = some ⟨.ok, 2, 0, [], ⟨0xB2#64, 3, 8⟩, 1⟩ :=
  ⟨by decide, by decide, by decide, by decide, ⟨_, rfl, rfl⟩, by decide⟩

/-- Nothing is left, and no byte is needed: the second row of 95_test_vectors.md section 4. -/
theorem witness_FieldReadReturnsTheNextBits_to_the_end :
    rd5.Ordered ∧ rd5.Clean ∧ ([] : List Byte).length = ceilDiv8 (5 - rd5.avail) ∧ rd5.stop + 8 * 0 ≤ 64 ∧ 5 = rd5.avail + 8 * 0 ∧
    readerShows (.readBits 5) rd5 [] = some ⟨.ok, 0x16, 0, [], ⟨0#64, 0, 0⟩, 0⟩ := by decide

theorem witness_FailedRefillKeepsReceivedBytes :
    fieldReadWidth (.readBits 16) = some 16 ∧ failing.rd.Ordered ∧ failing.rd.Clean ∧
    failing.rd.stop + 8 * ceilDiv8 (16 - failing.rd.avail) ≤ 64 ∧ [1#8].length < ceilDiv8 (16 - failing.rd.avail) ∧
    failing.source.Delivers [1#8] ⟨[.fail 7#32], some .ended⟩ ∧
    Source.next ⟨[.fail 7#32], some .ended⟩ = some (.fail 7#32, ⟨[], some .ended⟩) ∧
    (SrcAnswer.fail 7#32).raises = some (.transportFailure 7#32) :=
  ⟨by decide, by decide, by decide, by decide, by decide, ⟨_, rfl, rfl⟩, rfl, rfl⟩

theorem witness_ByteReadsDeliverTheStream :
    byteReadCount (.srcRead 2) = some 2 ∧ byteReadCount (.readBytes 2) = some 2 ∧ ReaderInv mid.rd ∧ mid.dest.wf = true ∧
    [0x3C#8, 0xA5#8].length = ceilDiv8 (8 * 2 - mid.rd.avail) ∧
    mid.source.Delivers [0x3C#8, 0xA5#8] (Source.ofBytes []) :=
  ⟨by decide, by decide, by decide, by decide, by decide, Source.delivers_ofBytes [0x3C#8, 0xA5#8] []⟩

theorem witness_ByteReadsDeliverTheStream_none :
    byteReadCount (.readBytes 0) = some 0 ∧ ReaderInv mid.rd ∧ mid.dest.wf = true ∧
    ([] : List Byte).length = ceilDiv8 (8 * 0 - mid.rd.avail) ∧ mid.source.Delivers [] mid.source :=
  ⟨by decide, by decide, by decide, by decide, rfl⟩

/-- The source stops the first element: the last row but one of 95_test_vectors.md section 6. -/
theorem witness_ByteReadsStopAtTheSource_first :
    ReaderInv ⟨7#64, 0, 4⟩ ∧ Acc.avail ⟨7#64, 0, 4⟩ + 8 * ([] : List Byte).length < 8 * 1 ∧
    (Source.ofBytes []).Delivers [] (Source.ofBytes []) ∧ (Source.ofBytes []).next = some (.ended, Source.ofBytes []) ∧
    readerShows (.srcRead 1) ⟨7#64, 0, 4⟩ [] = some ⟨.ok, 0, 0, [], ⟨7#64, 0, 4⟩, 1⟩ :=
  ⟨by decide, by decide, rfl, rfl, by decide⟩

theorem witness_ByteReadsStopAtTheSource_ended :
    ReaderInv mid.rd ∧ mid.dest.wf = true ∧ mid.rd.avail + 8 * [0x3C#8, 0xA5#8].length < 8 * 3 ∧
    mid.source.Delivers [0x3C#8, 0xA5#8] (Source.ofBytes []) ∧
    (Source.ofBytes []).next = some (.ended, Source.ofBytes []) ∧ SrcAnswer.ended.raises = some .endOfStream :=
  ⟨by decide, by decide, by decide, Source.delivers_ofBytes [0x3C#8, 0xA5#8] [], rfl, rfl⟩

theorem witness_ByteReadsStopAtTheSource_failed :
    ReaderInv failing.rd ∧ failing.dest.wf = true ∧ failing.rd.avail + 8 * [1#8].length < 8 * 2 ∧
    failing.source.Delivers [1#8] ⟨[.fail 7#32], some .ended⟩ ∧
    Source.next ⟨[.fail 7#32], some .ended⟩ = some (.fail 7#32, ⟨[], some .ended⟩) :=
  ⟨by decide, by decide, by decide, ⟨_, rfl, rfl⟩, rfl⟩

theorem witness_ElementsMoveOneAtATime_read :
    byteReadCount (.readBytes 2) = some 2 ∧ ReaderInv mid.rd ∧ mid.rd.avail ≤ 7 ∧ [0x3C#8, 0xA5#8].length = 2 ∧
    mid.source.Delivers [0x3C#8, 0xA5#8] (Source.ofBytes []) :=
  ⟨by decide, by decide, by decide, by decide, Source.delivers_ofBytes [0x3C#8, 0xA5#8] []⟩

theorem witness_ElementsMoveOneAtATime_write :
    WriterInv mid.wr ∧ mid.wr.avail ≤ 7 ∧ [0xFD#8, 7#8].length = 2 ∧
    bytesBits [0xFD#8, 7#8] = (mid.wr.bits ++ bytesBits (mid.src.prefixBytes 2)).take (8 * 2) ∧
    mid.sink.Accepts [0xFD#8, 7#8] { mid.sink with out := mid.sink.out ++ [0xFD#8, 7#8] } :=
  ⟨by decide, by decide, by decide, by decide, Sink.willing_accepts (by decide) _⟩

theorem witness_ReaderStreamLaw_taken : readerCommand (.readBits 8) = true ∧ ReaderInv mid.rd ∧ mid.dest.wf = true ∧
    ∃ t, exec (.readBits 8) mid = .next t ∧ (t.responses.map (·.status)) = [.ok] := ⟨by decide, by decide, by decide, _, rfl, rfl⟩

theorem witness_ReaderStreamLaw_nothing_taken : readerCommand (.readBits 50) = true ∧ ReaderInv mid.rd ∧ mid.dest.wf = true ∧
    ∃ t, exec (.readBits 50) mid = .next t ∧ (t.responses.map (·.status)) = [.endOfStream] := ⟨by decide, by decide, by decide, _, rfl, rfl⟩

theorem witness_ReaderStreamLaw_bytes : readerCommand (.readBytes 3) = true ∧ ReaderInv mid.rd ∧ mid.dest.wf = true ∧
    ∃ t, exec (.readBytes 3) mid = .next t ∧ (t.responses.map (·.data)) = [2#64] := ⟨by decide, by decide, by decide, _, rfl, rfl⟩

theorem witness_ReaderFrame : readerCommand (.srcRead 2) = true ∧ mid.dest.wf = true ∧ ∃ t, exec (.srcRead 2) mid = .next t :=
  ⟨by decide, by decide, _, rfl⟩

theorem witness_ReaderFrame_no_buffer : readerCommand .readBit = true ∧ mid.dest.wf = true ∧ ∃ t, exec .readBit mid = .next t :=
  ⟨by decide, by decide, _, rfl⟩

theorem witness_ReaderBetweenCommands_ok : readerCommand (.readBits 21) = true ∧ ReaderInv mid.rd ∧ mid.rd.avail ≤ 7 ∧
    ∃ t, exec (.readBits 21) mid = .next t ∧ (t.responses.map (·.status)) = [.ok] ∧ t.rd.start = t.rd.stop :=
  ⟨by decide, by decide, by decide, _, rfl, rfl, rfl⟩

/-- The backlog of log entry 6: no byte is pulled, and sixteen bits are left of twenty-four. -/
theorem witness_ReaderBetweenCommands_backlog : readerCommand .readByte = true ∧ ReaderInv ⟨0x30201#64, 0, 24⟩ ∧
    ∃ t, exec .readByte { mid with rd := ⟨0x30201#64, 0, 24⟩ } = .next t ∧ (t.responses.map (·.status)) = [.ok] ∧ t.calls = [] ∧
      t.rd.avail = 16 := ⟨by decide, by decide, _, rfl, rfl, rfl, rfl⟩

theorem witness_ReaderBetweenCommands_failed : readerCommand (.readBits 16) = true ∧ ReaderInv failing.rd ∧
    ∃ t, exec (.readBits 16) failing = .next t ∧ (t.responses.map (·.status)) = [.transportFailure] := ⟨by decide, by decide, _, rfl, rfl⟩

theorem witness_ReaderBetweenCommands_rejected : readerCommand (.readBits 64) = true ∧ ReaderInv mid.rd ∧
    ∃ t, exec (.readBits 64) mid = .next t ∧ (t.responses.map (·.status)) = [.invalidArgument] := ⟨by decide, by decide, _, rfl, rfl⟩

/-- The reader with five bits pending over an exhausted source. -/
def exhausted : State := { mid with source := Source.ofBytes [] }

theorem witness_ExhaustedSourceChangesNothing : ReaderInv exhausted.rd ∧ exhausted.source.Exhausted ∧
    fieldReadWidth (.readBits 6) = some 6 ∧ exhausted.rd.stop + 8 * ceilDiv8 (6 - exhausted.rd.avail) ≤ 64 ∧ exhausted.rd.avail < 6 ∧
    exhausted.rd.avail ≤ 7 := by decide

theorem witness_SplitReadEqualsWholeRead : ReaderInv mid.rd ∧ [0x3C#8, 0xA5#8].length = ceilDiv8 (7 + 14 - mid.rd.avail) ∧
    mid.source.Delivers [0x3C#8, 0xA5#8] (Source.ofBytes []) :=
  ⟨by decide, by decide, Source.delivers_ofBytes [0x3C#8, 0xA5#8] []⟩

theorem witness_SpentBitsAreNeverObserved : readerCommand (.readBits 8) = true ∧ ReaderInv mid.rd ∧ ReaderInv ⟨0xB5#64, 3, 8⟩ ∧
    Acc.bits ⟨0xB5#64, 3, 8⟩ = mid.rd.bits ∧ (⟨0xB5#64, 3, 8⟩ : Acc) ≠ mid.rd := by decide

theorem witness_FieldWriteEmitsCompleteBytes :
    fieldWriteOperands (.writeBits 0xF 5) = some (0xF, 5) ∧ WriterInv mid.wr ∧ mid.wr.stop + 5 ≤ 64 ∧
    [0x7D#8].length = (mid.wr.avail + 5) / 8 ∧ bytesBits [0x7D#8] = (mid.wr.bits ++ fieldBits 0xF 5).take (8 * [0x7D#8].length) ∧
    mid.sink.Accepts [0x7D#8] { mid.sink with out := mid.sink.out ++ [0x7D#8] } :=
  ⟨by decide, by decide, by decide, by decide, by decide, Sink.willing_accepts (by decide) _⟩

theorem witness_SinkFailureKeepsTheBacklog :
    fieldWriteOperands (.writeBits 0xFFFF 16) = some (0xFFFF, 16) ∧ WriterInv failing.wr ∧ failing.wr.stop + 16 ≤ 64 ∧
    [0xFD#8].length < (failing.wr.avail + 16) / 8 ∧
    bytesBits ([0xFD#8] ++ [0xFF#8]) = (failing.wr.bits ++ fieldBits 0xFFFF 16).take (8 * [0xFD#8].length + 8) ∧
    failing.sink.Accepts [0xFD#8] ⟨[.fail 9#32], some .ok, [0xFD#8]⟩ ∧
    Sink.next ⟨[.fail 9#32], some .ok, [0xFD#8]⟩ = some (.fail 9#32, ⟨[], some .ok, [0xFD#8]⟩) :=
  ⟨by decide, by decide, by decide, by decide, by decide, ⟨_, rfl, rfl⟩, rfl⟩

theorem witness_ByteWritesEmitTheElements :
    WriterInv mid.wr ∧ mid.wr.stop ≤ 56 ∧ [0xFD#8, 7#8].length = (mid.wr.avail + 8 * 2) / 8 ∧
    bytesBits [0xFD#8, 7#8] = (mid.wr.bits ++ bytesBits (mid.src.prefixBytes 2)).take (8 * [0xFD#8, 7#8].length) ∧
    mid.sink.Accepts [0xFD#8, 7#8] { mid.sink with out := mid.sink.out ++ [0xFD#8, 7#8] } :=
  ⟨by decide, by decide, by decide, by decide, Sink.willing_accepts (by decide) _⟩

theorem witness_ByteWritesEmitTheElements_none :
    WriterInv ⟨0xFFFFFFFFFFFFFFFF#64, 0, 64⟩ ∧ bytesBits [] = (mid.wr.bits ++ bytesBits (mid.src.prefixBytes 0)).take 0 ∧
    mid.sink.Accepts [] mid.sink := ⟨by decide, by decide, rfl⟩

theorem witness_ByteWritesStopAtTheSink :
    WriterInv failing.wr ∧ failing.wr.stop ≤ 56 ∧ 1 = [0xFD#8].length - failing.wr.avail / 8 ∧ 1 < 2 ∧
    bytesBits ([0xFD#8] ++ [7#8]) = (failing.wr.bits ++ bytesBits (failing.src.prefixBytes 2)).take (8 * [0xFD#8].length + 8) ∧
    failing.sink.Accepts [0xFD#8] ⟨[.fail 9#32], some .ok, [0xFD#8]⟩ ∧
    Sink.next ⟨[.fail 9#32], some .ok, [0xFD#8]⟩ = some (.fail 9#32, ⟨[], some .ok, [0xFD#8]⟩) :=
  ⟨by decide, by decide, by decide, by decide, by decide, ⟨_, rfl, rfl⟩, rfl⟩

/-- The sink refuses the byte of the first element: `done = 0`. -/
theorem witness_ByteWritesStopAtTheSink_first :
    WriterInv mid.wr ∧ mid.wr.stop ≤ 56 ∧ 0 = ([] : List Byte).length - mid.wr.avail / 8 ∧ 0 < 2 ∧
    bytesBits ([] ++ [0xFD#8]) = (mid.wr.bits ++ bytesBits (mid.src.prefixBytes (0 + 1))).take (8 * ([] : List Byte).length + 8) ∧
    Sink.Accepts ⟨[.fail 9#32], some .ok, []⟩ [] ⟨[.fail 9#32], some .ok, []⟩ ∧
    Sink.next ⟨[.fail 9#32], some .ok, []⟩ = some (.fail 9#32, ⟨[], some .ok, []⟩) :=
  ⟨by decide, by decide, by decide, by decide, by decide, rfl, rfl⟩

theorem witness_FlushPadsAndEmpties : WriterInv mid.wr ∧ [5#8].length = ceilDiv8 mid.wr.avail ∧
    bytesBits [5#8] = mid.wr.bits ++ List.replicate (8 * [5#8].length - mid.wr.avail) false ∧
    mid.sink.Accepts [5#8] { mid.sink with out := mid.sink.out ++ [5#8] } :=
  ⟨by decide, by decide, by decide, Sink.willing_accepts (by decide) _⟩

theorem witness_FlushPadsAndEmpties_no_op : WriterInv State.reset.wr ∧ ([] : List Byte).length = ceilDiv8 State.reset.wr.avail ∧
    State.reset.sink.Accepts [] State.reset.sink ∧ State.reset.wr.stop = 0 := ⟨by decide, by decide, rfl, by decide⟩

/-- A writer with eleven bits staged, whose sink accepts one byte and fails. -/
def failing11 : State := { failing with wr := ⟨0x5AB#64, 0, 11⟩ }

theorem witness_FailedFlushKeepsPaddedBytes : WriterInv failing11.wr ∧ [0xAB#8].length < ceilDiv8 failing11.wr.avail ∧
    bytesBits ([0xAB#8] ++ [5#8]) =
      (failing11.wr.bits ++ List.replicate (8 * ceilDiv8 failing11.wr.avail - failing11.wr.avail) false).take (8 * [0xAB#8].length + 8) ∧
    failing11.sink.Accepts [0xAB#8] ⟨[.fail 9#32], some .ok, [0xAB#8]⟩ ∧
    Sink.next ⟨[.fail 9#32], some .ok, [0xAB#8]⟩ = some (.fail 9#32, ⟨[], some .ok, [0xAB#8]⟩) :=
  ⟨by decide, by decide, by decide, ⟨_, rfl, rfl⟩, rfl⟩

theorem witness_WriterStreamLaw_field : writerCommand (.writeBits 0xF 5) = true ∧ (Instr.writeBits 0xF 5).wf = true ∧ WriterInv mid.wr ∧
    ∃ t, exec (.writeBits 0xF 5) mid = .next t ∧ (t.responses.map (·.status)) = [.ok] := ⟨by decide, by decide, by decide, _, rfl, rfl⟩

theorem witness_WriterStreamLaw_rejected : writerCommand (.writeBits 8 3) = true ∧ (Instr.writeBits 8 3).wf = true ∧ WriterInv mid.wr ∧
    ∃ t, exec (.writeBits 8 3) mid = .next t ∧ (t.responses.map (·.status)) = [.invalidArgument] :=
  ⟨by decide, by decide, by decide, _, rfl, rfl⟩

theorem witness_WriterStreamLaw_elements : writerCommand (.writeBytes 2) = true ∧ (Instr.writeBytes 2).wf = true ∧ WriterInv failing.wr ∧
    ∃ t, exec (.writeBytes 2) failing = .next t ∧ (t.responses.map (·.status)) = [.transportFailure] ∧ (t.responses.map (·.data)) = [1#64] :=
  ⟨by decide, by decide, by decide, _, rfl, rfl, rfl⟩

theorem witness_WriterStreamLaw_flush : writerCommand .flush = true ∧ Instr.flush.wf = true ∧ WriterInv mid.wr ∧
    ∃ t, exec .flush mid = .next t := ⟨by decide, by decide, by decide, _, rfl⟩

theorem witness_WriterFrame : writerCommand (.writeBytes 2) = true ∧ ∃ t, exec (.writeBytes 2) mid = .next t := ⟨by decide, _, rfl⟩

theorem witness_WriterBetweenCommands_ok : writerCommand .flush = true ∧ WriterInv mid.wr ∧
    ∃ t, exec .flush mid = .next t ∧ (t.responses.map (·.status)) = [.ok] := ⟨by decide, by decide, _, rfl, rfl⟩

theorem witness_WriterBetweenCommands_failed : writerCommand (.writeBits 0xFFFF 16) = true ∧ WriterInv failing.wr ∧
    ∃ t, exec (.writeBits 0xFFFF 16) failing = .next t ∧ (t.responses.map (·.status)) = [.transportFailure] :=
  ⟨by decide, by decide, _, rfl, rfl⟩

theorem witness_WriterBetweenCommands_rejected : writerCommand (.writeByte 256) = true ∧ WriterInv mid.wr ∧
    ∃ t, exec (.writeByte 256) mid = .next t ∧ (t.responses.map (·.status)) = [.invalidArgument] := ⟨by decide, by decide, _, rfl, rfl⟩

theorem witness_InvalidArgumentHasNoEffect_reader :
    (7 : Nat) ≤ 13 ∧ 64 < 13 + 8 * ceilDiv8 (55 - Acc.avail ⟨0x1FFF#64, 7, 13⟩) ∧
    readerShows (.readBits 55) ⟨0x1FFF#64, 7, 13⟩ [] = some ⟨.invalidArgument, 0, 0, [], ⟨0x1FFF#64, 7, 13⟩, 0⟩ := by decide

theorem witness_InvalidArgumentHasNoEffect_writer :
    (2 : Nat) ^ 3 ≤ 8 ∧ 64 < 7 + 58 ∧ 64 < 64 + 1 ∧ 64 < 57 + 8 ∧
    writerShows (.writeBits 0 58) ⟨0x7F#64, 0, 7⟩ [] [] = some ⟨.invalidArgument, 0, 0, ⟨0x7F#64, 0, 7⟩, [], 0⟩ ∧
    writerShows (.writeBytes 1) ⟨0x1FFFFFFFFFFFFFF#64, 0, 57⟩ [1#8] [] =
      some ⟨.invalidArgument, 0, 0, ⟨0x1FFFFFFFFFFFFFF#64, 0, 57⟩, [], 0⟩ := by decide

theorem witness_InvalidArgumentHasNoEffect_elements : WriterInv ⟨0x1FFFFFFFFFFFFFF#64, 0, 57⟩ ∧
    ∃ u, exec (.writeBytes 1) { mid with wr := ⟨0x1FFFFFFFFFFFFFF#64, 0, 57⟩ } = .next u ∧
      (u.responses.map (·.status)) = [.invalidArgument] := ⟨by decide, _, rfl, rfl⟩

theorem witness_InvalidArgumentHasNoEffect_word :
    decode (presented 0x11#80).word = .error .reservedField ∧
    (midWith (.command (presented 0x11#80))).port = .command (presented 0x11#80) :: [] := by decide

theorem witness_StatusesOfEachCommand : Inv mid ∧ (∃ t, exec (.readBits 64) mid = .next t) ∧ (∃ t, exec (.writeBit 2) mid = .next t) ∧
    (∃ t, exec (.writeBits 8 3) mid = .next t) ∧ (∃ t, exec (.writeByte 256) mid = .next t) :=
  ⟨by decide, ⟨_, rfl⟩, ⟨_, rfl⟩, ⟨_, rfl⟩, ⟨_, rfl⟩⟩

theorem witness_StatusesOfEachCommand_elements :
    Inv { mid with wr := ⟨0x1FFFFFFFFFFFFFF#64, 0, 57⟩ } ∧ ∃ t, exec (.writeBytes 1) { mid with wr := ⟨0x1FFFFFFFFFFFFFF#64, 0, 57⟩ } = .next t :=
  ⟨by decide, _, rfl⟩

theorem witness_OneResponseOfTheRightShape_terr : (Instr.readBits 16).wf = true ∧ failing.dest.wf = true ∧
    (∃ t, exec (.readBits 16) failing = .next t ∧ (t.responses.map (·.terr)) = [7#32] ∧ t.calls.getLast? = some (.srcRead (.fail 7#32))) ∧
    ∃ t, exec (.writeBits 0xFFFF 16) failing = .next t ∧ (t.responses.map (·.terr)) = [9#32] ∧
      t.calls.getLast? = some (.snkWrite 0xFF#8 (.fail 9#32)) :=
  ⟨by decide, by decide, ⟨_, rfl, rfl, rfl⟩, _, rfl, rfl, rfl⟩

theorem witness_OneResponseOfTheRightShape : (Instr.readBytes 3).wf = true ∧ mid.dest.wf = true ∧
    (∃ t, exec (.readBytes 3) mid = .next t ∧ (t.responses.map (·.status)) = [.endOfStream]) ∧
    (∃ t, exec (.srcRead 3) mid = .next t ∧ (t.responses.map (·.status)) = [.ok]) ∧
    (∃ t, exec (.writeBytes 2) failing = .next t ∧ (t.responses.map (·.status)) = [.transportFailure]) :=
  ⟨by decide, by decide, ⟨_, rfl, rfl⟩, ⟨_, rfl, rfl⟩, ⟨_, rfl, rfl⟩⟩

theorem witness_NarrowWidthsAlwaysFit : ReaderInv ⟨0xB2#64, 7, 8⟩ ∧ readCapacityOk ⟨0xB2#64, 7, 8⟩ 50 = true ∧ Acc.empty.IsEmpty ∧
    readCapacityOk Acc.empty 63 = true ∧ WriterInv ⟨0x7F#64, 0, 7⟩ ∧ writeCapacityOk ⟨0x7F#64, 0, 7⟩ 57 = true := by decide

theorem witness_TransportCallsAreBounded : Inv mid ∧ (∃ t, exec .flush mid = .next t) ∧ (∃ t, exec (.srcRead 2) mid = .next t) ∧
    ∃ t, exec (.writeBytes 2) mid = .next t := ⟨by decide, ⟨_, rfl⟩, ⟨_, rfl⟩, ⟨_, rfl⟩⟩

theorem witness_RoundTrip : (∀ f ∈ [(5, 3), (2 ^ 50 - 1, 50)], 1 ≤ f.2 ∧ f.2 ≤ 50 ∧ f.1 < 2 ^ f.2) ∧
    State.reset.wr = { reg := 0#64, start := 0, stop := 0 } ∧ State.reset.sink.Willing := by decide

/-- A program that writes, reads in between, and flushes last. -/
def writes : List Instr := [.writeBits 5 3, .readBits 8, .writeBytes 2, .flush]

theorem witness_WriteSessionEndsWithAFlush : (∀ i ∈ writes, i.wf = true) ∧ Inv { mid with wr := Acc.empty } ∧
    writes = [.writeBits 5 3, .readBits 8, .writeBytes 2] ++ [.flush] ∧
    ∃ t, execAll writes { mid with wr := Acc.empty } = .next t ∧ EndOfRun writes [.ok, .ok, .ok, .ok] mid t ∧
      SessionComplete (writes.zip t.responses) ∧ t.sink.out = [0xFD#8, 7#8, 0#8] :=
  ⟨by decide, by decide, rfl, _, rfl, by decide, by decide, rfl⟩

/-- The same start over a sink that refuses every byte. -/
def refusing : State := { mid with wr := Acc.empty, sink := ⟨[], some (.fail 9#32), []⟩ }

/-- A program that reads three times and writes in between: 3 bits, a byte, 2 bits. -/
def reads : List Instr := [.readBits 3, .writeBit 1, .readBytes 1, .readBits 2]

theorem witness_SuccessfulReadsHoldBackUnderAByte :
    Inv { mid with rd := Acc.empty } ∧ Acc.empty.avail ≤ 7 ∧
    ∃ t, execAll reads { mid with rd := Acc.empty } = .next t ∧ t.responses = mid.responses ++ t.responses ∧
      (∀ p ∈ reads.zip t.responses, readerCommand p.1 = true → p.2.status = .ok ∨ p.2.status = .invalidArgument) ∧
      ((reads.zip t.responses).map fun p => takenBits p.1 p.2).sum = 13 ∧
      (t.calls.filterMap Access.pulled).length = 2 ∧ t.rd.avail = 3 :=
  ⟨by decide, by decide, _, rfl, rfl, by decide, by decide, by decide, by decide⟩

theorem witness_WriteSessionEndsWithAFlush_failed : (∀ i ∈ writes, i.wf = true) ∧ Inv refusing ∧ refusing.wr = ⟨0#64, 0, 0⟩ ∧
    (writes.filter writerCommand).getLast? = some .flush ∧
    ∃ t, execAll writes refusing = .next t ∧ ¬ SessionComplete (writes.zip t.responses) :=
  ⟨by decide, by decide, rfl, rfl, _, rfl, by decide⟩

end Sys2Proof.Tests
end

/-! ### The state after reset (R38) -/

namespace Sys2Proof.Machine

@[simp] theorem Acc.empty_reg : Acc.empty.reg = 0#64 := rfl
@[simp] theorem Acc.empty_start : Acc.empty.start = 0 := rfl
@[simp] theorem Acc.empty_stop : Acc.empty.stop = 0 := rfl

@[simp] theorem State.reset_rd : State.reset.rd = Acc.empty := rfl
@[simp] theorem State.reset_wr : State.reset.wr = Acc.empty := rfl

/-- Settles O12: at reset both units hold the Empty accumulator, whose three registers are zero. -/
theorem resetRegistersAreZero : Obligations.ResetRegistersAreZero := by
  unfold Obligations.ResetRegistersAreZero
  rw [State.reset_rd, State.reset_wr]
  exact ⟨Acc.empty_reg, Acc.empty_start, Acc.empty_stop, Acc.empty_reg, Acc.empty_start, Acc.empty_stop⟩

end Sys2Proof.Machine

/-! ### The decoder over the word's fields (R74, R75, R86) -/

namespace Sys2Proof

theorem CmdWord.toNat_op (w : CmdWord) : w.op.toNat = w.toNat % 16 := by
  simp [CmdWord.op]

theorem CmdWord.toNat_rsv (w : CmdWord) : w.rsv.toNat = w.toNat / 16 % 16 := by
  simp [CmdWord.rsv, Nat.shiftRight_eq_div_pow]

theorem CmdWord.toNat_n (w : CmdWord) : w.n.toNat = w.toNat / 256 % 256 := by
  simp [CmdWord.n, Nat.shiftRight_eq_div_pow]

theorem CmdWord.toNat_arg (w : CmdWord) : w.arg.toNat = w.toNat / 65536 := by
  have hlt : w.toNat / 65536 < 2 ^ 64 := by have := w.isLt; omega
  simpa [CmdWord.arg, Nat.shiftRight_eq_div_pow] using hlt

/-- R75 in both directions: a code names a command exactly when that command, with any operands, is encoded with it. -/
theorem opOfCode_eq_some_iff (c : BitVec 4) (o : Op) (n arg : Nat) :
    opOfCode c = some o ↔ c.toNat = (o.assemble n arg).code.toNat := by
  cases o <;> simp only [Op.assemble, Instr.code] <;> revert c <;> decide

/-- The reserved codes (R85). -/
theorem opOfCode_eq_none_iff : ∀ c : BitVec 4, opOfCode c = none ↔ c.toNat ∈ [0x0, 0x6, 0x7, 0xD, 0xE, 0xF] := by
  decide

/-- The codes whose row of R75 has `N` "must be 0". -/
theorem exists_op_usesN_eq_false_iff : ∀ c : BitVec 4,
    (∃ o ∈ opOfCode c, o.usesN = false) ↔ c.toNat ∈ [0x1, 0x3, 0x4, 0x5, 0x8, 0xA, 0xB, 0xC] := by
  decide

/-- The codes whose row of R75 has both `N` and `ARG` "must be 0". -/
theorem exists_op_usesArg_eq_false_iff : ∀ c : BitVec 4,
    (∃ o ∈ opOfCode c, o.usesN = false ∧ o.usesArg = false) ↔ c.toNat ∈ [0x1, 0x3, 0xC] := by
  decide

section
variable {w : CmdWord} {o : Op}

/-- Test 1 of R86 fires. -/
theorem decode_of_rsv_ne_zero (hr : w.rsv.toNat ≠ 0) : decode w = .error .reservedField := by
  have hr' : w.rsv ≠ 0#4 := fun h => hr (by rw [h]; rfl)
  rw [decode, if_pos hr']

/-- Test 2 of R86 fires. -/
theorem decode_of_reserved_code (hr : w.rsv.toNat = 0) (ho : opOfCode w.op = none) : decode w = .error .reservedCode := by
  have hr' : w.rsv = 0#4 := BitVec.eq_of_toNat_eq hr
  simp [decode, hr', ho]

/-- Tests 3 to 5 of R86, once tests 1 and 2 have passed. -/
theorem decode_of_op (hr : w.rsv.toNat = 0) (ho : opOfCode w.op = some o) : decode w =
    if o.usesN = false ∧ w.n.toNat ≠ 0 then .error .unusedN
    else if o.usesArg = false ∧ w.arg.toNat ≠ 0 then .error .unusedArg
    else .ok (o.assemble w.n.toNat w.arg.toNat) := by
  have hr' : w.rsv = 0#4 := BitVec.eq_of_toNat_eq hr
  have hn : w.n.toNat ≠ 0 ↔ w.n ≠ 0#8 := BitVec.toNat_ne_iff_ne (y := 0#8)
  have ha : w.arg.toNat ≠ 0 ↔ w.arg ≠ 0#64 := BitVec.toNat_ne_iff_ne (y := 0#64)
  simp only [decode, hr', ho, hn, ha, ne_eq, not_true_eq_false, if_false]

/-- Test 3 of R86 fires. -/
theorem decode_of_unused_n (hr : w.rsv.toNat = 0) (ho : opOfCode w.op = some o) (hu : o.usesN = false)
    (hn : w.n.toNat ≠ 0) : decode w = .error .unusedN := by
  rw [decode_of_op hr ho, if_pos ⟨hu, hn⟩]

/-- Test 4 of R86 fires. -/
theorem decode_of_unused_arg (hr : w.rsv.toNat = 0) (ho : opOfCode w.op = some o) (hn : o.usesN = false → w.n.toNat = 0)
    (hu : o.usesArg = false) (ha : w.arg.toNat ≠ 0) : decode w = .error .unusedArg := by
  rw [decode_of_op hr ho, if_neg fun h => h.2 (hn h.1), if_pos ⟨hu, ha⟩]

/-- Step 5 of R86: no test fires. -/
theorem decode_eq_assemble (o : Op) (hr : w.rsv.toNat = 0)
    (ho : w.op.toNat = (o.assemble w.n.toNat w.arg.toNat).code.toNat) (hn : o.usesN = false → w.n.toNat = 0)
    (ha : o.usesArg = false → w.arg.toNat = 0) : decode w = .ok (o.assemble w.n.toNat w.arg.toNat) := by
  rw [decode_of_op hr ((opOfCode_eq_some_iff _ _ _ _).2 ho), if_neg fun h => h.2 (hn h.1), if_neg fun h => h.2 (ha h.1)]

end

end Sys2Proof

namespace Sys2Proof.Machine

/-- R86, last sentence: the step on an invalid word takes the command from the port and answers it, nothing else. -/
theorem step_of_decode_error {s : State} {c : Command} {later : List HostInput} {e : Invalid}
    (hp : s.port = .command c :: later) (hd : decode c.word = .error e) :
    step s = .next (s.accept c later).answerInvalidWord := by
  simp only [step, hp, hd]

/-- Settles O5: each clause is one test of R86 on the word's fields, which are the given remainders and quotients. -/
theorem decodingTestsInOrder : Obligations.DecodingTestsInOrder := by
  unfold Obligations.DecodingTestsInOrder
  rintro w _ _ _ _ rfl rfl rfl rfl
  rw [← w.toNat_op, ← w.toNat_rsv, ← w.toNat_n, ← w.toNat_arg]
  refine ⟨decode_of_rsv_ne_zero, ?reserved, ?unusedN, ?unusedNArg, ?unusedArg, ?readBit, ?readBits, ?readByte, ?readBytes,
    ?srcRead, ?writeBit, ?writeBits, ?writeByte, ?writeBytes, ?flush, ?step⟩
  case reserved => exact fun hr ho => decode_of_reserved_code hr ((opOfCode_eq_none_iff _).2 ho)
  case unusedN =>
    intro hr ho hn
    obtain ⟨o, ho, hu⟩ := (exists_op_usesN_eq_false_iff _).2 ho
    exact decode_of_unused_n hr ho hu hn
  case unusedNArg =>
    intro hr ho hn ha
    obtain ⟨o, ho, -, hu⟩ := (exists_op_usesArg_eq_false_iff _).2 ho
    exact decode_of_unused_arg hr ho (fun _ => hn) hu ha
  case unusedArg =>
    intro hr ho ha
    have ho' : opOfCode w.op = some .readBits := (opOfCode_eq_some_iff _ _ 0 0).2 ho
    exact decode_of_unused_arg hr ho' nofun rfl ha
  case readBit => exact fun hr ho hn ha => decode_eq_assemble .readBit hr ho (fun _ => hn) (fun _ => ha)
  case readBits => exact fun hr ho ha => decode_eq_assemble .readBits hr ho nofun (fun _ => ha)
  case readByte => exact fun hr ho hn ha => decode_eq_assemble .readByte hr ho (fun _ => hn) (fun _ => ha)
  case readBytes => exact fun hr ho hn => decode_eq_assemble .readBytes hr ho (fun _ => hn) nofun
  case srcRead => exact fun hr ho hn => decode_eq_assemble .srcRead hr ho (fun _ => hn) nofun
  case writeBit => exact fun hr ho hn => decode_eq_assemble .writeBit hr ho (fun _ => hn) nofun
  case writeBits => exact fun hr ho => decode_eq_assemble .writeBits hr ho nofun nofun
  case writeByte => exact fun hr ho hn => decode_eq_assemble .writeByte hr ho (fun _ => hn) nofun
  case writeBytes => exact fun hr ho hn => decode_eq_assemble .writeBytes hr ho (fun _ => hn) nofun
  case flush => exact fun hr ho hn ha => decode_eq_assemble .flush hr ho (fun _ => hn) (fun _ => ha)
  case step =>
    rintro s c later e hp rfl hd
    exact step_of_decode_error hp hd

/-! ### The response word's fields (R80, R81) -/

/-- The number of a word put together from two parts. -/
theorem toNat_append_eq_add {m n : Nat} (x : BitVec m) (y : BitVec n) : (x ++ y).toNat = x.toNat * 2 ^ n + y.toNat := by
  rw [BitVec.toNat_append, ← Nat.shiftLeft_add_eq_or_of_lt y.isLt, Nat.shiftLeft_eq]

/-- R80 as arithmetic: the status in bits 1 to 0, zeros in bits 7 to 2, then the error value and the data. -/
theorem Response.toNat_word (r : Response) :
    r.word.toNat = (r.data.toNat * 2 ^ 32 + r.terr.toNat) * 2 ^ 6 * 2 ^ 2 + r.status.code.toNat := by
  rw [Response.word, toNat_append_eq_add, toNat_append_eq_add, toNat_append_eq_add, BitVec.toNat_zero, Nat.add_zero]

theorem Response.word_mod_four (r : Response) : r.word.toNat % 4 = r.status.code.toNat := by
  have := r.status.code.isLt
  rw [Response.toNat_word]
  omega

/-- Settles O6: the fields of R80 are read off the word's number. -/
theorem responseWordLayout : Obligations.ResponseWordLayout := by
  unfold Obligations.ResponseWordLayout
  refine ⟨fun r => ?layout, fun st => by cases st <;> simp⟩
  have hstatus := r.status.code.isLt
  have hterr := r.terr.isLt
  have code_eq {st : Status} (h : r.status = st) : r.word.toNat % 4 = st.code.toNat := by rw [r.word_mod_four, h]
  refine ⟨code_eq, code_eq, code_eq, code_eq, ?rsv, ?terr, ?data⟩
  case rsv | terr | data => rw [r.toNat_word]; omega

end Sys2Proof.Machine

/-! ### EXTRACT on the pending bits (R102) -/

namespace Sys2Proof.Machine

theorem bitsValue_take_lt (l : List Bool) (n : Nat) : bitsValue (l.take n) < 2 ^ n :=
  (bitsValue_lt _).trans_le (Nat.pow_le_pow_right (by decide) (List.length_take_le n l))

section
variable {a : Acc} {n : Nat}

/-- The spent bits do not enter: the field's number is that of the next `n` pending bits. -/
theorem Acc.toNat_extract (hn : n ≤ 64) (h : n ≤ a.avail) : (a.extract n).toNat = bitsValue (a.bits.take n) := by
  have hlt : bitsValue (a.bits.take n) < 2 ^ 64 :=
    (bitsValue_take_lt _ n).trans_le (Nat.pow_le_pow_right (by decide) hn)
  rw [Acc.extract_eq h, BitVec.toNat_ofNat, Nat.mod_eq_of_lt hlt]

theorem Acc.toNat_extract_lt (hn : n ≤ 64) (h : n ≤ a.avail) : (a.extract n).toNat < 2 ^ n := by
  rw [Acc.toNat_extract hn h]
  exact bitsValue_take_lt _ n

/-- The mask discards only zeros when no bit at or above `start + n` is set. -/
theorem Acc.extract_eq_ushiftRight (hcl : a.Clean) (h : a.stop ≤ a.start + n) : a.extract n = a.reg >>> a.start := by
  refine BitVec.eq_of_getLsbD_eq fun i hi => ?_
  rw [Acc.getLsbD_extract a n i hi, BitVec.getLsbD_ushiftRight]
  rcases Nat.lt_or_ge i n with hin | hin
  · rw [decide_eq_true hin, Bool.and_true]
  · rw [Acc.clean_iff.1 hcl (a.start + i) (by omega), Bool.false_and]

end

/-- Settles O8: the formula is EXTRACT's definition; the rest is read off the field's bits. -/
theorem extractReadsTheWindow : Obligations.ExtractReadsTheWindow := by
  unfold Obligations.ExtractReadsTheWindow
  intro a n _ hn hav _
  refine ⟨rfl, Acc.toNat_extract_lt (by omega) hav, fun i hi => ?bit, Acc.toNat_extract (by omega) hav, fun hall hcl => ?all⟩
  case bit => rw [Acc.getLsbD_extract a n i (by omega), decide_eq_true hi, Bool.and_true]
  case all =>
    have hstop : a.stop ≤ a.start + n := by rw [Acc.avail] at hall; omega
    exact Acc.extract_eq_ushiftRight hcl hstop

end Sys2Proof.Machine

/-! ### A read that the source stops (R124, R134) -/

namespace Sys2Proof.Machine

/-- The state after a stopped refill and its response, in the registers themselves (R124). -/
theorem stopped_respond_eq {s : State} {bs : List Byte} (h : s.rd.stop + 8 * bs.length ≤ 64) (q q' : Source) (x : SrcAnswer)
    (r : Response) :
    ((s.pulled bs q).stopped x q').respond r =
      { s with
        rd := { reg := s.rd.reg ||| (BitVec.ofNat 64 (bitsValue (bytesBits bs)) <<< s.rd.stop)
                start := s.rd.start
                stop := s.rd.stop + 8 * bs.length }
        source := q'
        calls := s.calls ++ bs.map (fun b => .srcRead (.byte b)) ++ [.srcRead x]
        responses := s.responses ++ [r] } := by
  rw [← Acc.insertBytes_eq s.rd bs h]
  rfl

/-- A read of bits that are all pending is answered from the register, without a source call (R123). -/
theorem readField_pending {n : Nat} {s : State} (h0 : 0 < n) (h1 : n < 64) (ho : s.rd.Ordered) (hc : s.rd.Clean)
    (hn : n ≤ s.rd.avail) :
    readField n s = .done (BitVec.ofNat 64 (bitsValue (s.rd.bits.take n))) { s with rd := s.rd.consumed [] n } := by
  have hlen : ([] : List Byte).length = ceilDiv8 (n - s.rd.avail) := by rw [Nat.sub_eq_zero_of_le hn]; rfl
  have hd : s.source.Delivers [] s.source := rfl
  rw [readField_ok h0 h1 ho hc hlen ho.2 hd]
  simp [State.pulled]

/-- Settles O22: the refill stops with the received bytes inserted, and a later read of them is a read of pending bits. -/
theorem failedRefillKeepsReceivedBytes : Obligations.FailedRefillKeepsReceivedBytes := by
  unfold Obligations.FailedRefillKeepsReceivedBytes
  intro i n s bs q q' x e hi h0 h1 ho hc hk hl hd hn hx
  have hroom : s.rd.stop + 8 * bs.length ≤ 64 := by omega
  obtain ⟨ho', hc', hbits⟩ := Acc.insertBytes_spec ho hc hroom
  refine ⟨((s.pulled bs q).stopped x q').respond (.error e 0#64 []), stopped_respond_eq hroom q q' x _, ?_, hbits, ?_⟩
  · rw [exec_fieldRead hi s ho hc, readField_stop h0 h1 ho hc hk hl hd hn hx]
    rfl
  · intro m hm0 hm hm1
    refine ⟨(s.rd.insertBytes bs).consumed [] m, ?_⟩
    rw [exec_fieldRead rfl _ ho' hc', readField_pending hm0 hm1 ho' hc' hm, ← hbits]
    rfl

end Sys2Proof.Machine

/-! ### What a reader command touches, and what it reads (R120, R24, R133) -/

namespace Sys2Proof.Machine

/-- The bit `read_bit` takes is its own truth value (R127), whatever the accumulator holds. -/
theorem boolOperand_extract_one (a : Acc) : boolOperand (a.extract 1 != 0#64) = a.extract 1 := by
  have hmask : mask 1 = 1#64 := rfl
  rw [Acc.extract, hmask]
  generalize a.reg >>> a.start = x
  rcases Nat.mod_two_eq_zero_or_one x.toNat with h | h
  · have : x &&& 1#64 = 0#64 := BitVec.eq_of_toNat_eq (by simp [Nat.and_one_is_mod, h])
    rw [this]; rfl
  · have : x &&& 1#64 = 1#64 := BitVec.eq_of_toNat_eq (by simp [Nat.and_one_is_mod, h])
    rw [this]; rfl

/-- The single-field reads are one operation in every state, not only in an ordered and clean one (R72). -/
theorem exec_eq_complete_readField {i : Instr} {n : Nat} (hi : fieldReadWidth i = some n) (s : State) :
    exec i s = complete (readField n s) := by
  cases i <;> cases hi
  case readBit =>
    show complete ((readField 1 s).bind fun r t => .done (boolOperand (r != 0#64)) t) = _
    congr 1
    unfold readField
    split
    · rfl
    · split
      · rfl
      · cases refill 1 s with
        | done _ t => exact congrArg (Run.done · _) (boolOperand_extract_one t.rd)
        | raised e t => rfl
        | hung f => rfl
  case readBits => rfl
  case readByte => rfl

/-- A reader command is a single-field read or a byte read (R70). -/
theorem readerCommand_cases {i : Instr} (hi : readerCommand i = true) :
    (∃ n, fieldReadWidth i = some n ∧ byteReadCount i = none) ∨ ∃ count, i = .readBytes count ∨ i = .srcRead count := by
  cases i with
  | readBit => exact .inl ⟨1, rfl, rfl⟩
  | readBits n => exact .inl ⟨n, rfl, rfl⟩
  | readByte => exact .inl ⟨8, rfl, rfl⟩
  | readBytes count => exact .inr ⟨count, .inl rfl⟩
  | srcRead count => exact .inr ⟨count, .inr rfl⟩
  | writeBit | writeBits | writeByte | writeBytes | flush => cases hi

/-- The adapter changes the status alone (R131). -/
theorem adapterStatus_fst (p : Progress) : (adapterStatus p).1 = p.1 := by
  obtain ⟨done, _ | (_ | e | _)⟩ := p <;> rfl

/-- A byte read is its loop, with the progress reported as it is or as the adapter maps it (R129, R131). -/
theorem exec_byteRead_eq {i : Instr} {count : Nat} (hi : i = .readBytes count ∨ i = .srcRead count) :
    ∃ f : Progress → Progress, (∀ p, (f p).1 = p.1) ∧
      ∀ s, exec i s = completeRead ((readBytesLoop count 0 s).bind fun p t => .done (f p) t) := by
  rcases hi with rfl | rfl
  · refine ⟨id, fun _ => rfl, fun s => ?_⟩
    show completeRead (readBytesLoop count 0 s) = _
    cases readBytesLoop count 0 s <;> rfl
  · exact ⟨adapterStatus, adapterStatus_fst, fun _ => rfl⟩

/-! #### What is not read: the other unit, its sink, and the source buffer -/

/-- The state with another writer unit, sink and source buffer: all that the reader does not see (R24, R133). -/
def State.withWriterSide (a : Acc) (k : Sink) (m : Memory) (s : State) : State := { s with wr := a, sink := k, src := m }

/-- The same result reached in a changed state. -/
def Run.mapState (g : State → State) : Run α → Run α
  | .done x s => .done x (g s)
  | .raised e s => .raised e (g s)
  | .hung f => .hung f

/-- Operations that do not see a change do not see it in sequence. -/
theorem Run.bind_mapState {g : State → State} {f : α → State → Run β} (hf : ∀ x s, f x (g s) = (f x s).mapState g) (r : Run α) :
    (r.mapState g).bind f = (r.bind f).mapState g := by
  cases r with
  | done x s => exact hf x s
  | raised e s => rfl
  | hung h => rfl

section
variable (a : Acc) (k : Sink) (m : Memory)

theorem complete_withWriterSide (r : Run Word) :
    complete (r.mapState (State.withWriterSide a k m)) = mapNext (State.withWriterSide a k m) (complete r) := by
  cases r <;> rfl

theorem completeRead_withWriterSide (r : Run Progress) :
    completeRead (r.mapState (State.withWriterSide a k m)) = mapNext (State.withWriterSide a k m) (completeRead r) := by
  cases r <;> rfl

theorem srcRead_withWriterSide (s : State) :
    srcRead (s.withWriterSide a k m) = (srcRead s).map fun p => (p.1, p.2.withWriterSide a k m) := by
  rw [srcRead_eq, srcRead_eq, Option.map_map]
  rfl

theorem refillLoop_withWriterSide (rounds : Nat) (d : Int) (s : State) :
    refillLoop rounds d (s.withWriterSide a k m) = (refillLoop rounds d s).mapState (State.withWriterSide a k m) := by
  induction rounds generalizing d s with
  | zero => rfl
  | succ rounds ih =>
    unfold refillLoop
    split
    · rw [srcRead_withWriterSide]
      cases srcRead s with
      | none => rfl
      | some p =>
        obtain ⟨x, t⟩ := p
        cases x with
        | byte b => exact ih _ (t.setRd (t.rd.insert (byteOperand b) 8))
        | ended => rfl
        | fail e => rfl
    · rfl

theorem readField_withWriterSide (n : Nat) (s : State) :
    readField n (s.withWriterSide a k m) = (readField n s).mapState (State.withWriterSide a k m) := by
  have hrefill : refill n (s.withWriterSide a k m) = (refill n s).mapState (State.withWriterSide a k m) :=
    refillLoop_withWriterSide a k m _ _ s
  rw [readField, readField, hrefill, Run.bind_mapState fun _ _ => rfl, apply_ite (Run.mapState _), apply_ite (Run.mapState _)]
  rfl

theorem readBytesLoop_withWriterSide (todo done : Nat) (s : State) :
    readBytesLoop todo done (s.withWriterSide a k m) = (readBytesLoop todo done s).mapState (State.withWriterSide a k m) := by
  induction todo generalizing done s with
  | zero => rfl
  | succ todo ih =>
    unfold readBytesLoop
    rw [readField_withWriterSide]
    cases readField 8 s with
    | done x t => exact ih (done + 1) (storeDest done (lowByte x) t)
    | raised e t => rfl
    | hung f => rfl

/-- A reader command does the same whatever the writer's side holds. -/
theorem exec_withWriterSide {i : Instr} (hi : readerCommand i = true) (s : State) :
    exec i (s.withWriterSide a k m) = mapNext (State.withWriterSide a k m) (exec i s) := by
  rcases readerCommand_cases hi with ⟨n, hn, -⟩ | ⟨count, hi⟩
  · rw [exec_eq_complete_readField hn, exec_eq_complete_readField hn, readField_withWriterSide, complete_withWriterSide]
  · obtain ⟨f, -, hexec⟩ := exec_byteRead_eq hi
    rw [hexec, hexec, readBytesLoop_withWriterSide, Run.bind_mapState fun _ _ => rfl, completeRead_withWriterSide]

end

/-! #### What is not written -/

/-- From `s` to `t` only the reader, its source and the destination buffer have changed, and each access made is of an allowed
kind (R120). What has changed in the buffer is said apart. -/
structure ReaderSideOnly (allowed : Access → Prop) (s t : State) : Prop where
  wr        : t.wr = s.wr
  sink      : t.sink = s.sink
  src       : t.src = s.src
  port      : t.port = s.port
  responses : t.responses = s.responses
  calls     : ∃ new, t.calls = s.calls ++ new ∧ ∀ c ∈ new, allowed c

/-- An access to the source or a store to the destination buffer. -/
def Access.IsReaderSide (c : Access) : Prop := c.srcAnswer ≠ none ∨ c.stored ≠ none

/-- A source call stores nothing. -/
theorem Access.stored_of_srcAnswer {c : Access} (h : c.srcAnswer ≠ none) : c.stored = none := by
  cases c with
  | srcRead => rfl
  | snkWrite | destStore | srcLoad => exact absurd rfl h

section
variable {P Q : Access → Prop} {s t u : State}

theorem ReaderSideOnly.refl : ReaderSideOnly P s s := ⟨rfl, rfl, rfl, rfl, rfl, [], by simp, by simp⟩

theorem ReaderSideOnly.trans (h : ReaderSideOnly P s t) (h' : ReaderSideOnly P t u) : ReaderSideOnly P s u := by
  obtain ⟨new, hc, hn⟩ := h.calls
  obtain ⟨new', hc', hn'⟩ := h'.calls
  refine ⟨h'.wr.trans h.wr, h'.sink.trans h.sink, h'.src.trans h.src, h'.port.trans h.port, h'.responses.trans h.responses,
    new ++ new', by rw [hc', hc, List.append_assoc], fun c hm => ?_⟩
  exact (List.mem_append.1 hm).elim (hn c) (hn' c)

theorem ReaderSideOnly.mono (hPQ : ∀ c, P c → Q c) (h : ReaderSideOnly P s t) : ReaderSideOnly Q s t := by
  obtain ⟨new, hc, hn⟩ := h.calls
  exact { h with calls := ⟨new, hc, fun c hm => hPQ c (hn c hm)⟩ }

end

/-- A field read changes no buffer and calls only the source. -/
abbrev FieldReadFrame (s t : State) : Prop := ReaderSideOnly (fun c => c.srcAnswer ≠ none) s t ∧ t.dest = s.dest

theorem FieldReadFrame.pulled (s : State) (bs : List Byte) (q : Source) (a : Acc) :
    FieldReadFrame s ((s.pulled bs q).setRd a) :=
  ⟨⟨rfl, rfl, rfl, rfl, rfl, bs.map fun b => .srcRead (.byte b), rfl, by simp [Access.srcAnswer]⟩, rfl⟩

theorem FieldReadFrame.stopped (s : State) (bs : List Byte) (q q' : Source) (x : SrcAnswer) :
    FieldReadFrame s ((s.pulled bs q).stopped x q') :=
  ⟨⟨rfl, rfl, rfl, rfl, rfl, (bs.map fun b => .srcRead (.byte b)) ++ [.srcRead x], by simp [State.pulled, State.stopped],
    by simp [Access.srcAnswer, or_imp, forall_and]⟩, rfl⟩

/-- The state an operation ends in, if it ends, satisfies `P`. -/
def Run.Ends (P : State → Prop) : Run α → Prop
  | .done _ s => P s
  | .raised _ s => P s
  | .hung _ => True

/-- A field read keeps its frame in every state, rejected, stopped or complete (R120). -/
theorem readField_frame (n : Nat) (s : State) : (readField n s).Ends (FieldReadFrame s) := by
  unfold readField
  split
  · exact ⟨.refl, rfl⟩
  · split
    · exact ⟨.refl, rfl⟩
    · obtain ⟨bs, q, -, ⟨-, h⟩ | ⟨-, ⟨x, e, q', -, -, h⟩ | ⟨-, h⟩⟩⟩ := refill_cases n s
      · rw [h]; exact FieldReadFrame.pulled s bs q _
      · rw [h]; exact FieldReadFrame.stopped s bs q q' x
      · rw [h]; exact trivial

/-- The frame of a byte loop that has stored elements up to `hi` (R55, R120). -/
abbrev ByteReadFrame (s t : State) (hi : Nat) : Prop :=
  ReaderSideOnly Access.IsReaderSide s t ∧ ∀ j, hi ≤ j → t.dest.read j = s.dest.read j

theorem FieldReadFrame.byteRead {s t : State} (h : FieldReadFrame s t) (hi : Nat) : ByteReadFrame s t hi :=
  ⟨h.1.mono fun _ => .inl, fun j _ => by rw [h.2]⟩

theorem ByteReadFrame.storeDest (s : State) (hw : s.dest.wf = true) (i : Nat) (b : Byte) :
    ByteReadFrame s (storeDest i b s) (i + 1) :=
  ⟨⟨rfl, rfl, rfl, rfl, rfl, [.destStore i b], rfl, by simp [Access.IsReaderSide, Access.stored]⟩,
    fun j hj => by rw [storeDest_eq, Memory.read_write hw, if_neg (by omega)]⟩

theorem ByteReadFrame.trans {s t u : State} {hi hi' : Nat} (h : ByteReadFrame s t hi) (h' : ByteReadFrame t u hi') (hle : hi ≤ hi') :
    ByteReadFrame s u hi' :=
  ⟨h.1.trans h'.1, fun j hj => (h'.2 j hj).trans (h.2 j (hle.trans hj))⟩

/-- The byte loop reports how many elements it has finished and keeps its frame, or it hangs; it raises nothing (R120, R129). -/
theorem readBytesLoop_frame (todo done : Nat) (s : State) (hw : s.dest.wf = true) :
    (∃ p t, readBytesLoop todo done s = .done p t ∧ done ≤ p.1 ∧ ByteReadFrame s t p.1) ∨
      ∃ f, readBytesLoop todo done s = .hung f := by
  induction todo generalizing done s with
  | zero => exact .inl ⟨(done, none), s, rfl, le_rfl, .refl, fun _ _ => rfl⟩
  | succ todo ih =>
    have hfield := readField_frame 8 s
    unfold readBytesLoop
    cases hr : readField 8 s with
    | hung f => exact .inr ⟨f, rfl⟩
    | raised e t =>
      rw [hr] at hfield
      exact .inl ⟨(done, some e), t, rfl, le_rfl, FieldReadFrame.byteRead hfield done⟩
    | done x t =>
      rw [hr] at hfield
      have hwt : t.dest.wf = true := by rw [hfield.2]; exact hw
      have hstore := ByteReadFrame.storeDest t hwt done (lowByte x)
      rcases ih (done + 1) (storeDest done (lowByte x) t) (Memory.wf_write done (lowByte x) hwt) with ⟨p, u, hu, hle, hframe⟩ | hf
      · exact .inl ⟨p, u, hu, by omega,
          (FieldReadFrame.byteRead hfield (done + 1)).trans (hstore.trans hframe hle) hle⟩
      · exact .inr hf

/-- A command that completes has given one response, in a state its operation has ended in. -/
theorem complete_eq_next {P : State → Prop} {r : Run Word} {t : State} (hr : r.Ends P) (h : complete r = .next t) :
    ∃ u x, t = u.respond x ∧ P u := by
  cases r with
  | done d u => cases h; exact ⟨u, _, rfl, hr⟩
  | raised e u => cases h; exact ⟨u, _, rfl, hr⟩
  | hung f => cases h

theorem fieldRead_frame {i : Instr} {n : Nat} {s t : State} (hi : fieldReadWidth i = some n) (h : exec i s = .next t) :
    ∃ u r, t = u.respond r ∧ FieldReadFrame s u :=
  complete_eq_next (readField_frame n s) (exec_eq_complete_readField hi s ▸ h)

theorem Response.bytes_ofProgress (p : Progress) (bytes : List Byte) : (Response.ofProgress p bytes).bytes = bytes := by
  obtain ⟨done, _ | e⟩ := p <;> rfl

theorem byteRead_frame {i : Instr} {count : Nat} {s t : State} (hi : i = .readBytes count ∨ i = .srcRead count)
    (hw : s.dest.wf = true) (h : exec i s = .next t) :
    ∃ u r, t = u.respond r ∧ ByteReadFrame s u r.bytes.length := by
  obtain ⟨f, hf, hexec⟩ := exec_byteRead_eq hi
  rw [hexec] at h
  rcases readBytesLoop_frame count 0 s hw with ⟨p, u, hr, -, hframe⟩ | ⟨fault, hr⟩
  · rw [hr] at h
    cases h
    refine ⟨u, _, rfl, ?_⟩
    rwa [Response.bytes_ofProgress, Memory.length_prefixBytes, hf]
  · rw [hr] at h
    cases h

/-- Settles O27: the writer's side is neither read nor written, and each kind of read keeps its frame. -/
theorem readerFrame : Obligations.ReaderFrame := by
  unfold Obligations.ReaderFrame
  refine ⟨fun i s hi a k m => exec_withWriterSide a k m hi s, fun i s t hi hw h => ?_⟩
  rcases readerCommand_cases hi with ⟨n, hn, hc⟩ | ⟨count, hi⟩
  · obtain ⟨u, r, rfl, ⟨hwr, hsink, hsrc, hport, hresp, new, hcalls, hnew⟩, hdest⟩ := fieldRead_frame hn h
    exact ⟨hwr, hsink, hsrc, hport, new, r, hcalls, congrArg (· ++ [r]) hresp, fun c hm => .inl (hnew c hm),
      fun _ => ⟨hdest, fun c hm => Access.stored_of_srcAnswer (hnew c hm)⟩, fun hne => absurd hc hne⟩
  · obtain ⟨u, r, rfl, ⟨hwr, hsink, hsrc, hport, hresp, new, hcalls, hnew⟩, hdest⟩ := byteRead_frame hi hw h
    have hcount : byteReadCount i ≠ none := by rcases hi with rfl | rfl <;> nofun
    exact ⟨hwr, hsink, hsrc, hport, new, r, hcalls, congrArg (· ++ [r]) hresp, hnew,
      fun hnone => absurd hnone hcount, fun _ => hdest⟩

end Sys2Proof.Machine

/-! ### What a writer command touches, and what it reads (R140, R24, R153) -/

namespace Sys2Proof.Machine

/-- A writer command is a single-field write, the byte write, or the flush (R70). -/
theorem writerCommand_cases {i : Instr} (hi : writerCommand i = true) :
    (∃ v n, fieldWriteOperands i = some (v, n)) ∨ (∃ count, i = .writeBytes count) ∨ i = .flush := by
  cases i with
  | writeBit v => exact .inl ⟨v, 1, rfl⟩
  | writeBits v n => exact .inl ⟨v, n, rfl⟩
  | writeByte v => exact .inl ⟨v, 8, rfl⟩
  | writeBytes count => exact .inr (.inl ⟨count, rfl⟩)
  | flush => exact .inr (.inr rfl)
  | readBit | readBits | readByte | readBytes | srcRead => cases hi

/-! #### What is not read: the other unit, its source, and the destination buffer -/

/-- The state with another reader unit, source and destination buffer: all that the writer does not see (R24, R153). -/
def State.withReaderSide (a : Acc) (q : Source) (m : Memory) (s : State) : State := { s with rd := a, source := q, dest := m }

section
variable (a : Acc) (q : Source) (m : Memory)

theorem complete_withReaderSide (r : Run Word) :
    complete (r.mapState (State.withReaderSide a q m)) = mapNext (State.withReaderSide a q m) (complete r) := by
  cases r <;> rfl

theorem completeWrite_withReaderSide (r : Run Progress) :
    completeWrite (r.mapState (State.withReaderSide a q m)) = mapNext (State.withReaderSide a q m) (completeWrite r) := by
  cases r <;> rfl

theorem snkWrite_withReaderSide (b : Byte) (s : State) :
    snkWrite b (s.withReaderSide a q m) = (snkWrite b s).map fun p => (p.1, p.2.withReaderSide a q m) := by
  rw [snkWrite_eq, snkWrite_eq, Option.map_map]
  rfl

theorem drainLoop_withReaderSide (rounds : Nat) (s : State) :
    drainLoop rounds (s.withReaderSide a q m) = (drainLoop rounds s).mapState (State.withReaderSide a q m) := by
  induction rounds generalizing s with
  | zero => rfl
  | succ rounds ih =>
    have hwr : (s.withReaderSide a q m).wr = s.wr := rfl
    unfold drainLoop
    rw [hwr]
    split
    · rw [snkWrite_withReaderSide]
      cases snkWrite (lowByte (s.wr.extract 8)) s with
      | none => rfl
      | some p =>
        obtain ⟨x, t⟩ := p
        cases x with
        | ok => exact ih (t.setWr (t.wr.advance 8).normalize)
        | fail e => rfl
    · rfl

/-- Draining any accumulator put in the writer's place, answered with 0: what a field write ends with, and the whole of a flush. -/
theorem drainFrom_withReaderSide (w : Acc) (s : State) :
    ((drain ((s.withReaderSide a q m).setWr w)).bind fun _ t => .done 0#64 t) =
      ((drain (s.setWr w)).bind fun _ t => .done 0#64 t).mapState (State.withReaderSide a q m) := by
  have hdrain : drain ((s.withReaderSide a q m).setWr w) = (drain (s.setWr w)).mapState (State.withReaderSide a q m) :=
    drainLoop_withReaderSide a q m _ (s.setWr w)
  rw [hdrain, Run.bind_mapState fun _ _ => rfl]

theorem writeField_withReaderSide (v n : Nat) (s : State) :
    writeField v n (s.withReaderSide a q m) = (writeField v n s).mapState (State.withReaderSide a q m) := by
  rw [writeField, writeField, drainFrom_withReaderSide, apply_ite (Run.mapState _), apply_ite (Run.mapState _),
    apply_ite (Run.mapState _)]
  rfl

theorem writeBytesLoop_withReaderSide (todo done : Nat) (s : State) :
    writeBytesLoop todo done (s.withReaderSide a q m) = (writeBytesLoop todo done s).mapState (State.withReaderSide a q m) := by
  induction todo generalizing done s with
  | zero => rfl
  | succ todo ih =>
    have hwr : (s.withReaderSide a q m).wr = s.wr := rfl
    have hload : loadSrc done (s.withReaderSide a q m) = ((loadSrc done s).1, (loadSrc done s).2.withReaderSide a q m) := rfl
    unfold writeBytesLoop
    rw [hwr, hload, writeField_withReaderSide]
    split
    · rfl
    · cases writeField (loadSrc done s).1.toNat 8 (loadSrc done s).2 with
      | done x t => exact ih (done + 1) t
      | raised e t => rfl
      | hung f => rfl

/-- A writer command does the same whatever the reader's side holds. -/
theorem exec_withReaderSide {i : Instr} (hi : writerCommand i = true) (s : State) :
    exec i (s.withReaderSide a q m) = mapNext (State.withReaderSide a q m) (exec i s) := by
  rcases writerCommand_cases hi with ⟨v, n, hf⟩ | ⟨count, rfl⟩ | rfl
  · rw [exec_fieldWrite hf, exec_fieldWrite hf, writeField_withReaderSide, complete_withReaderSide]
  · exact (congrArg completeWrite (writeBytesLoop_withReaderSide a q m count 0 s)).trans (completeWrite_withReaderSide a q m _)
  · exact (congrArg complete (drainFrom_withReaderSide a q m s.wr.pad s)).trans (complete_withReaderSide a q m _)

end

/-! #### What is not written -/

/-- A call to the sink, or a load of an element of `m` below `count`. -/
def Access.IsWriterSide (m : Memory) (count : Nat) (c : Access) : Prop :=
  c.srcAnswer = none ∧ c.stored = none ∧ ∀ p, c.loaded = some p → p.1 < count ∧ p.2 = m.read p.1

/-- From `s` to `t` only the writer and its sink have changed, and each access made is a sink call or a load of an element of the
source buffer below `count` (R140). -/
structure WriterSideOnly (count : Nat) (s t : State) : Prop where
  rd        : t.rd = s.rd
  source    : t.source = s.source
  dest      : t.dest = s.dest
  src       : t.src = s.src
  port      : t.port = s.port
  responses : t.responses = s.responses
  calls     : ∃ new, t.calls = s.calls ++ new ∧ ∀ c ∈ new, c.IsWriterSide s.src count

namespace WriterSideOnly
variable {count count' : Nat} {s t u : State}

theorem refl : WriterSideOnly count s s := ⟨rfl, rfl, rfl, rfl, rfl, rfl, [], by simp, by simp⟩

theorem trans (h : WriterSideOnly count s t) (h' : WriterSideOnly count t u) : WriterSideOnly count s u := by
  obtain ⟨new, hc, hn⟩ := h.calls
  obtain ⟨new', hc', hn'⟩ := h'.calls
  rw [h.src] at hn'
  refine ⟨h'.rd.trans h.rd, h'.source.trans h.source, h'.dest.trans h.dest, h'.src.trans h.src, h'.port.trans h.port,
    h'.responses.trans h.responses, new ++ new', by rw [hc', hc, List.append_assoc], fun c hm => ?_⟩
  exact (List.mem_append.1 hm).elim (hn c) (hn' c)

theorem mono (hle : count ≤ count') (h : WriterSideOnly count s t) : WriterSideOnly count' s t := by
  obtain ⟨new, hc, hn⟩ := h.calls
  refine { h with calls := ⟨new, hc, fun c hm => ?_⟩ }
  obtain ⟨hanswer, hstore, hload⟩ := hn c hm
  exact ⟨hanswer, hstore, fun p hp => (hload p hp).imp_left fun hlt => hlt.trans_le hle⟩

theorem setWr (s : State) (w : Acc) : WriterSideOnly count s (s.setWr w) := ⟨rfl, rfl, rfl, rfl, rfl, rfl, [], by simp, by simp⟩

theorem of_snkWrite {b : Byte} {x : SnkAnswer} (h : snkWrite b s = some (x, t)) : WriterSideOnly count s t := by
  rw [snkWrite_eq] at h
  obtain ⟨p, -, hp⟩ := Option.map_eq_some_iff.1 h
  cases hp
  exact ⟨rfl, rfl, rfl, rfl, rfl, rfl, [.snkWrite b p.1], rfl,
    by simp [Access.IsWriterSide, Access.srcAnswer, Access.stored, Access.loaded]⟩

theorem of_loadSrc (i : Nat) (s : State) : WriterSideOnly (i + 1) s (loadSrc i s).2 :=
  ⟨rfl, rfl, rfl, rfl, rfl, rfl, [.srcLoad i (s.src.read i)], rfl,
    by simp [Access.IsWriterSide, Access.srcAnswer, Access.stored, Access.loaded]⟩

end WriterSideOnly

/-- The operation, begun in `s`, loads no element and keeps to the writer's side wherever it ends, and does not end for want of a
source byte (R140, R161). -/
def Run.KeepsToWriter (s : State) : Run α → Prop
  | .done _ t => WriterSideOnly 0 s t
  | .raised e t => e ≠ .endOfStream ∧ WriterSideOnly 0 s t
  | .hung _ => True

theorem Run.KeepsToWriter.after {s t : State} {r : Run α} (h : WriterSideOnly 0 s t) (hr : r.KeepsToWriter t) :
    r.KeepsToWriter s := by
  cases r with
  | done x u => exact h.trans hr
  | raised e u => exact ⟨hr.1, h.trans hr.2⟩
  | hung f => trivial

theorem drainLoop_keepsToWriter (rounds : Nat) (s : State) : (drainLoop rounds s).KeepsToWriter s := by
  induction rounds generalizing s with
  | zero => exact WriterSideOnly.refl
  | succ rounds ih =>
    unfold drainLoop
    split
    · cases hcall : snkWrite (lowByte (s.wr.extract 8)) s with
      | none => trivial
      | some p =>
        obtain ⟨x, t⟩ := p
        have hframe : WriterSideOnly 0 s t := .of_snkWrite hcall
        cases x with
        | ok => exact (ih _).after (hframe.trans (.setWr t (t.wr.advance 8).normalize))
        | fail e => exact ⟨nofun, hframe⟩
    · exact WriterSideOnly.refl

theorem drainFrom_keepsToWriter (w : Acc) (s : State) :
    ((drain (s.setWr w)).bind fun _ t => .done 0#64 t).KeepsToWriter s := by
  have hdrain : (drain (s.setWr w)).KeepsToWriter s := (drainLoop_keepsToWriter _ _).after (.setWr s w)
  cases hr : drain (s.setWr w) <;> rwa [hr] at hdrain

/-- A field write keeps to the writer's side in every state, rejected, stopped or complete (R140). -/
theorem writeField_keepsToWriter (v n : Nat) (s : State) : (writeField v n s).KeepsToWriter s := by
  have hrejected : (Run.raised .invalidArgument s : Run Word).KeepsToWriter s := ⟨nofun, .refl⟩
  unfold writeField
  split
  · exact hrejected
  · split
    · exact hrejected
    · split
      · exact hrejected
      · exact drainFrom_keepsToWriter _ s

/-- A command begun in `s` that ends in `t` has given one response, never `EndOfStream`, and has kept to the writer's side and the
source buffer's elements below `count` (R140). -/
def WriterAnswer (count : Nat) (s t : State) : Prop :=
  ∃ u r, t = u.respond r ∧ r.status ≠ .endOfStream ∧ WriterSideOnly count s u

theorem Raise.status_ne_endOfStream {e : Raise} (h : e ≠ .endOfStream) : e.status ≠ .endOfStream := by
  cases e with
  | endOfStream => exact absurd rfl h
  | transportFailure | invalidArgument => nofun

theorem writerAnswer_of_complete {r : Run Word} {s t : State} (hr : r.KeepsToWriter s) (h : complete r = .next t) :
    WriterAnswer 0 s t := by
  cases r with
  | done d u => cases h; exact ⟨u, _, rfl, nofun, hr⟩
  | raised e u => cases h; exact ⟨u, _, rfl, Raise.status_ne_endOfStream hr.1, hr.2⟩
  | hung f => cases h

theorem WriterAnswer.after {count : Nat} {s t u : State} (h : WriterSideOnly count s t) (hu : WriterAnswer count t u) :
    WriterAnswer count s u := by
  obtain ⟨x, r, hr, hst, hx⟩ := hu
  exact ⟨x, r, hr, hst, h.trans hx⟩

/-- The element loop loads the elements from `done` on, below the count, and no other (R140, R148). -/
theorem writeBytesLoop_answer {todo done : Nat} {s t : State} (h : completeWrite (writeBytesLoop todo done s) = .next t) :
    WriterAnswer (done + todo) s t := by
  induction todo generalizing done s with
  | zero => cases h; exact ⟨s, _, rfl, nofun, .refl⟩
  | succ todo ih =>
    unfold writeBytesLoop at h
    split at h
    · cases h; exact ⟨s, _, rfl, nofun, .refl⟩
    · have hload : WriterSideOnly (done + (todo + 1)) s (loadSrc done s).2 := (WriterSideOnly.of_loadSrc done s).mono (by omega)
      have hfield := writeField_keepsToWriter (loadSrc done s).1.toNat 8 (loadSrc done s).2
      cases hr : writeField (loadSrc done s).1.toNat 8 (loadSrc done s).2 with
      | done x v =>
        rw [hr] at h hfield
        have hrest := ih h
        rw [Nat.add_right_comm, Nat.add_assoc] at hrest
        exact .after (hload.trans (hfield.mono (Nat.zero_le _))) hrest
      | raised e v =>
        rw [hr] at h hfield
        cases h
        exact ⟨v, _, rfl, Raise.status_ne_endOfStream hfield.1, hload.trans (hfield.2.mono (Nat.zero_le _))⟩
      | hung f => rw [hr] at h; cases h

/-- Each writer command keeps its frame; only the byte write loads elements, and only those below its count (R140). -/
theorem writerCommand_answer {i : Instr} {s t : State} (hi : writerCommand i = true) (h : exec i s = .next t) :
    ∃ count, WriterAnswer count s t ∧ (0 < count → i = .writeBytes count) := by
  rcases writerCommand_cases hi with ⟨v, n, hf⟩ | ⟨count, rfl⟩ | rfl
  · exact ⟨0, writerAnswer_of_complete (writeField_keepsToWriter v n s) (exec_fieldWrite hf s ▸ h), nofun⟩
  · exact ⟨count, Nat.zero_add count ▸ writeBytesLoop_answer h, fun _ => rfl⟩
  · exact ⟨0, writerAnswer_of_complete (drainFrom_keepsToWriter s.wr.pad s) h, nofun⟩

/-- Settles O39: the reader's side is neither read nor written, and each command keeps to its sink calls and its element loads. -/
theorem writerFrame : Obligations.WriterFrame := by
  unfold Obligations.WriterFrame
  refine ⟨fun i s hi a q m => exec_withReaderSide a q m hi s, fun i s t hi h => ?_⟩
  obtain ⟨count, ⟨u, r, rfl, hstatus, hrd, hsource, hdest, hsrc, hport, hresp, new, hcalls, hnew⟩, hcount⟩ := writerCommand_answer hi h
  refine ⟨hrd, hsource, hdest, hsrc, hport, new, r, hcalls, congrArg (· ++ [r]) hresp, hstatus,
    fun c hm => ?noSourceCall, fun c hm p hp => ?loads⟩ <;> obtain ⟨hanswer, hstore, hload⟩ := hnew c hm
  case noSourceCall => exact ⟨hanswer, hstore⟩
  case loads =>
    obtain ⟨hlt, hread⟩ := hload p hp
    exact ⟨count, hcount (Nat.zero_lt_of_lt hlt), hlt, hread⟩

end Sys2Proof.Machine

/-! ### What a rejected command leaves (R163, R165) -/

namespace Sys2Proof.Machine

/-- The state in which a rejection leaves the block: one response more, with the data, the error value and the bytes of R163. -/
abbrev State.rejected (s : State) : State := s.respond (Response.error .invalidArgument 0#64 [])

/-- The width check and the capacity check reject a read before the source is asked for a byte (R122, R123). -/
theorem readField_rejected {n : Nat} {s : State} (h : ¬ (0 < n ∧ n < 64 ∧ s.rd.stop + 8 * refillBytes s.rd n ≤ 64)) :
    readField n s = .raised .invalidArgument s := by
  have hcheck : widthOk n = false ∨ readCapacityOk s.rd n = false := by
    simp only [widthOk, readCapacityOk, decide_eq_false_iff_not, config_W, config_byteBits]
    tauto
  rcases hcheck with hwidth | hcap
  · rw [readField, if_pos hwidth]
  · rw [readField, if_pos hcap, ite_self]

/-- The width, fit and capacity checks reject a write before anything is staged, whatever the accumulator holds (R142, R143). -/
theorem writeField_rejected {v n : Nat} {s : State} (h : ¬ (0 < n ∧ n < 64 ∧ v < 2 ^ n ∧ s.wr.stop + n ≤ 64)) :
    writeField v n s = .raised .invalidArgument s := by
  have hcheck : widthOk n = false ∨ fitOk v n = false ∨ writeCapacityOk s.wr n = false := by
    simp only [widthOk, fitOk, writeCapacityOk, decide_eq_false_iff_not, config_W]
    tauto
  rcases hcheck with hwidth | hfit | hcap
  · rw [writeField, if_pos hwidth]
  · rw [writeField, if_pos hfit, ite_self]
  · rw [writeField, if_pos hcap, ite_self, ite_self]

theorem exec_fieldRead_rejected {i : Instr} {n : Nat} {s : State} (hi : fieldReadWidth i = some n)
    (h : ¬ (0 < n ∧ n < 64 ∧ s.rd.stop + 8 * refillBytes s.rd n ≤ 64)) : exec i s = .next s.rejected := by
  rw [exec_eq_complete_readField hi, readField_rejected h, complete]

theorem exec_fieldWrite_rejected {i : Instr} {v n : Nat} {s : State} (hi : fieldWriteOperands i = some (v, n))
    (h : ¬ (0 < n ∧ n < 64 ∧ v < 2 ^ n ∧ s.wr.stop + n ≤ 64)) : exec i s = .next s.rejected := by
  rw [exec_fieldWrite hi, writeField_rejected h, complete]

/-- A byte write without room for its first element is rejected before that element is loaded (R163, R165). -/
theorem exec_writeBytes_rejected {count : Nat} {s : State} (h0 : 0 < count) (hcap : 64 < s.wr.stop + 8) :
    exec (.writeBytes count) s = .next s.rejected := by
  obtain ⟨todo, rfl⟩ := Nat.exists_eq_succ_of_ne_zero h0.ne'
  have hcheck : writeCapacityOk s.wr 8 = false := decide_eq_false (Nat.not_le.2 hcap)
  show completeWrite (writeBytesLoop (todo + 1) 0 s) = _
  rw [writeBytesLoop, if_pos hcheck]
  rfl

/-- Only the first element of a byte write can be rejected (R148): once one element fits, each DRAIN leaves room for the next. -/
theorem eq_rejected_of_writeBytes {count : Nat} {s u : State} {r : Response} (hw : WriterInv s.wr)
    (h : exec (.writeBytes count) s = .next u) (hr : u.responses = s.responses ++ [r]) (hst : r.status = .invalidArgument) :
    u = s.rejected := by
  change completeWrite (writeBytesLoop count 0 s) = .next u at h
  rcases writeBytesLoop_cases count 0 s hw with
      ⟨-, -, hrun⟩ | ⟨-, es, k, w, m, new, -, -, -, ⟨-, -, hrun⟩ | ⟨-, -, -, -, ⟨b, e, k', -, -, -, hrun⟩ | ⟨-, hrun⟩⟩⟩ <;>
    rw [hrun] at h <;> cases h
  · rfl
  all_goals
    cases List.append_cancel_left hr
    cases hst

/-- Settles O41: every cause fails a check that comes before any effect, and a byte write is rejected at its first element only. -/
theorem invalidArgumentHasNoEffect : Obligations.InvalidArgumentHasNoEffect := by
  unfold Obligations.InvalidArgumentHasNoEffect
  rintro s _ rfl
  refine ⟨?readWidth, ?writeWidth, ?bitsFit, ?bitFit, ?byteFit, ?readRoom, ?bitsRoom, ?bitRoom, ?byteRoom, ?bytesRoom, ?bytesOnly,
    ?word⟩
  case readWidth => exact fun n hn => exec_fieldRead_rejected (n := n) rfl (by omega)
  case writeWidth => exact fun v n hn => exec_fieldWrite_rejected (v := v) (n := n) rfl (by omega)
  case bitsFit => exact fun v n hv => exec_fieldWrite_rejected (v := v) (n := n) rfl (by omega)
  case bitFit => exact fun v hv => exec_fieldWrite_rejected (v := v) (n := 1) rfl (by omega)
  case byteFit => exact fun v hv => exec_fieldWrite_rejected (v := v) (n := 8) rfl (by omega)
  case readRoom =>
    intro n ho hcap
    rw [← refillBytes_eq ho] at hcap
    exact exec_fieldRead_rejected (n := n) rfl (by omega)
  case bitsRoom => exact fun v n hcap => exec_fieldWrite_rejected (v := v) (n := n) rfl (by omega)
  case bitRoom => exact fun v hcap => exec_fieldWrite_rejected (v := v) (n := 1) rfl (by omega)
  case byteRoom => exact fun v hcap => exec_fieldWrite_rejected (v := v) (n := 8) rfl (by omega)
  case bytesRoom => exact fun count => exec_writeBytes_rejected
  case bytesOnly => exact fun count u r => eq_rejected_of_writeBytes
  case word =>
    intro u c e hd hp hs
    have haccept : u.accept c s.port = s := hs.symm
    rw [step_of_decode_error hp hd, haccept]
    rfl

end Sys2Proof.Machine

/-! ### A command word is its command (R73 to R79, R88) -/

namespace Sys2Proof

/-- The decoder as one condition (R86): no test fires exactly when `RSV` is zero, the code names a command, and the fields that
the command does not use are zero. -/
theorem decode_eq_ok_iff {w : CmdWord} {i : Instr} : decode w = .ok i ↔
    ∃ o, w.rsv = 0#4 ∧ opOfCode w.op = some o ∧ (o.usesN = false → w.n = 0#8) ∧ (o.usesArg = false → w.arg = 0#64) ∧
      i = o.assemble w.n.toNat w.arg.toNat := by
  constructor
  · intro h
    unfold decode at h
    split at h
    · cases h
    next hr =>
    split at h
    · cases h
    next o ho =>
    split at h
    · cases h
    next hn =>
    split at h
    · cases h
    next ha => cases h; exact ⟨o, by simpa using hr, ho, by simpa using hn, by simpa using ha, rfl⟩
  · rintro ⟨o, hr, ho, hn, ha, rfl⟩
    have hn' : ¬ (o.usesN = false ∧ w.n ≠ 0#8) := fun h => h.2 (hn h.1)
    have ha' : ¬ (o.usesArg = false ∧ w.arg ≠ 0#64) := fun h => h.2 (ha h.1)
    simp only [decode, hr, ho, hn', ha', ne_eq, not_true_eq_false, if_false]

/-- Every command is its operation with its two operands, and the operands it does not use are 0 (R75, R79). -/
theorem Instr.exists_op (i : Instr) : ∃ o : Op, i = o.assemble i.nOperand i.argOperand ∧
    (o.usesN = false → i.nOperand = 0) ∧ (o.usesArg = false → i.argOperand = 0) := by
  cases i with
  | readBit => exact ⟨.readBit, rfl, fun _ => rfl, fun _ => rfl⟩
  | readBits n => exact ⟨.readBits, rfl, nofun, fun _ => rfl⟩
  | readByte => exact ⟨.readByte, rfl, fun _ => rfl, fun _ => rfl⟩
  | readBytes count => exact ⟨.readBytes, rfl, fun _ => rfl, nofun⟩
  | srcRead count => exact ⟨.srcRead, rfl, fun _ => rfl, nofun⟩
  | writeBit v => exact ⟨.writeBit, rfl, fun _ => rfl, nofun⟩
  | writeBits v n => exact ⟨.writeBits, rfl, nofun, nofun⟩
  | writeByte v => exact ⟨.writeByte, rfl, fun _ => rfl, nofun⟩
  | writeBytes count => exact ⟨.writeBytes, rfl, fun _ => rfl, nofun⟩
  | flush => exact ⟨.flush, rfl, fun _ => rfl, fun _ => rfl⟩

/-- The fields of every well-formed command's word (R74 to R76). -/
theorem commandFields (i : Instr) : Laws.CommandFields.Statement i := by
  cases i with
  | readBit => exact Laws.CommandFields.readBit
  | readBits n => exact Laws.CommandFields.readBits n
  | readByte => exact Laws.CommandFields.readByte
  | readBytes count => exact Laws.CommandFields.readBytes count
  | srcRead count => exact Laws.CommandFields.srcRead count
  | writeBit v => exact Laws.CommandFields.writeBit v
  | writeBits v n => exact Laws.CommandFields.writeBits v n
  | writeByte v => exact Laws.CommandFields.writeByte v
  | writeBytes count => exact Laws.CommandFields.writeBytes count
  | flush => exact Laws.CommandFields.flush

/-- Settles O2: the word's fields are the command's operands, and its code names the operation that puts them together. -/
theorem decodeOfEncode : Obligations.DecodeOfEncode := by
  unfold Obligations.DecodeOfEncode
  intro i hwf
  obtain ⟨hop, hrsv, hn, harg⟩ := commandFields i hwf
  obtain ⟨o, hi, hn0, ha0⟩ := i.exists_op
  refine decode_eq_ok_iff.2 ⟨o, hrsv, ?_, fun hu => ?_, fun hu => ?_, by rw [hn, harg]; exact hi⟩
  · rw [hop, opOfCode_eq_some_iff _ _ i.nOperand i.argOperand, ← hi]
  · exact BitVec.eq_of_toNat_eq (hn.trans (hn0 hu))
  · exact BitVec.eq_of_toNat_eq (harg.trans (ha0 hu))

/-- What the fields of a word give is a command that a word can carry (R76). -/
theorem Op.wf_assemble (o : Op) (n : BitVec 8) (arg : BitVec 64) : (o.assemble n.toNat arg.toNat).wf = true := by
  have hn : fitsN n.toNat = true := decide_eq_true n.isLt
  have ha : fitsArg arg.toNat = true := decide_eq_true arg.isLt
  cases o <;> simp [Op.assemble, Instr.wf, hn, ha]

theorem Op.nOperand_assemble (o : Op) (n arg : Nat) : (o.assemble n arg).nOperand = if o.usesN then n else 0 := by
  cases o <;> rfl

theorem Op.argOperand_assemble (o : Op) (n arg : Nat) : (o.assemble n arg).argOperand = if o.usesArg then arg else 0 := by
  cases o <;> rfl

/-- Settles O3: a word is its four fields, and those of the encoded command are the word's own. -/
theorem encodeOfDecode : Obligations.EncodeOfDecode := by
  unfold Obligations.EncodeOfDecode
  intro w i h
  obtain ⟨o, hrsv, hop, hn, ha, rfl⟩ := decode_eq_ok_iff.1 h
  refine ⟨o.wf_assemble w.n w.arg, word_ext ?_ ?_ ?_ ?_⟩
  · rw [encode, packCmd_op]
    exact BitVec.eq_of_toNat_eq ((opOfCode_eq_some_iff _ _ _ _).1 hop).symm
  · rw [encode, packCmd_rsv, hrsv]
  · rw [encode, packCmd_n, o.nOperand_assemble]
    cases hu : o.usesN
    · exact (hn hu).symm
    · exact (BitVec.ofNat_toNat _ _).trans (BitVec.setWidth_eq w.n)
  · rw [encode, packCmd_arg, o.argOperand_assemble]
    cases hu : o.usesArg
    · exact (ha hu).symm
    · exact (BitVec.ofNat_toNat _ _).trans (BitVec.setWidth_eq w.arg)

/-! ### The opcode table (30_encoding.md, opening paragraph) -/

/-- The ten operations, in the order of the table. -/
def allOps : List Op :=
  [.readBit, .readBits, .readByte, .readBytes, .srcRead, .writeBit, .writeBits, .writeByte, .writeBytes, .flush]

theorem mem_allOps (o : Op) : o ∈ allOps := by cases o <;> decide

/-- The row that R75 describes: a field that the operation does not use must be zero, one that it uses is masked out. -/
def Op.row (o : Op) : TableRow where
  mnemonic := (o.assemble 0 0).mnemonic
  pattern := encode (o.assemble 0 0)
  mask := (if o.usesArg then 0#64 else BitVec.allOnes 64) ++ (if o.usesN then 0#8 else BitVec.allOnes 8) ++ 0xF#4 ++ 0xF#4

/-- The table is R75, row by row. -/
theorem opcodeTable_eq : opcodeTable = allOps.map Op.row := by decide

theorem mem_opcodeTable {r : TableRow} : r ∈ opcodeTable ↔ ∃ o : Op, o.row = r := by
  simp [opcodeTable_eq, mem_allOps]

/-- The mnemonics tell the operations apart. -/
theorem Op.row_mnemonic_injective {o o' : Op} (h : o.row.mnemonic = o'.row.mnemonic) : o = o' :=
  List.inj_on_of_nodup_map (f := fun o => (Op.row o).mnemonic) (l := allOps) (by decide) (mem_allOps o) (mem_allOps o') h

theorem Op.mnemonic_assemble (o : Op) (n arg : Nat) : (o.assemble n arg).mnemonic = o.row.mnemonic := by
  cases o <;> rfl

/-- A masked word is its masked fields. -/
theorem and_eq_iff_fields (w m p : CmdWord) : w &&& m = p ↔
    w.op &&& m.op = p.op ∧ w.rsv &&& m.rsv = p.rsv ∧ w.n &&& m.n = p.n ∧ w.arg &&& m.arg = p.arg := by
  have hop : CmdWord.op (w &&& m) = w.op &&& m.op := BitVec.extractLsb'_and
  have hrsv : CmdWord.rsv (w &&& m) = w.rsv &&& m.rsv := BitVec.extractLsb'_and
  have hn : CmdWord.n (w &&& m) = w.n &&& m.n := BitVec.extractLsb'_and
  have harg : CmdWord.arg (w &&& m) = w.arg &&& m.arg := BitVec.extractLsb'_and
  rw [← hop, ← hrsv, ← hn, ← harg]
  exact ⟨fun h => by simp [h], fun ⟨h1, h2, h3, h4⟩ => word_ext h1 h2 h3 h4⟩

/-- A row's pattern has the operation's code, and zeros in its other fields. -/
theorem Op.row_pattern (o : Op) : o.row.pattern = packCmd (o.assemble 0 0).code 0 0 := by
  cases o <;> rfl

/-- A row's mask looks at the code, at `RSV`, and at the fields the operation does not use. -/
theorem Op.row_mask (o : Op) : o.row.mask.op = BitVec.allOnes 4 ∧ o.row.mask.rsv = BitVec.allOnes 4 ∧
    o.row.mask.n = (if o.usesN then 0#8 else BitVec.allOnes 8) ∧
    o.row.mask.arg = if o.usesArg then 0#64 else BitVec.allOnes 64 := by
  cases o <;> decide

/-- A word matches a row exactly when the decoder's tests pass for that row's operation. -/
theorem Op.row_holds_iff (o : Op) (w : CmdWord) : o.row.holds w = true ↔
    w.rsv = 0#4 ∧ opOfCode w.op = some o ∧ (o.usesN = false → w.n = 0#8) ∧ (o.usesArg = false → w.arg = 0#64) := by
  obtain ⟨hop, hrsv, hn, harg⟩ := o.row_mask
  have hcode : opOfCode w.op = some o ↔ w.op = (o.assemble 0 0).code := by
    rw [opOfCode_eq_some_iff _ _ 0 0, BitVec.toNat_inj]
  have hunused : ∀ {k : Nat} (b : Bool) (x : BitVec k),
      (x &&& if b then 0#k else BitVec.allOnes k) = 0#k ↔ (b = false → x = 0#k) := by
    intro k b x
    cases b <;> simp
  rw [TableRow.holds, beq_iff_eq, and_eq_iff_fields, hop, hrsv, hn, harg, o.row_pattern, packCmd_op, packCmd_rsv, packCmd_n,
    packCmd_arg, hunused, hunused, BitVec.and_allOnes, BitVec.and_allOnes, hcode]
  exact and_left_comm

/-- Settles O4: a row matches exactly the words that decode to its operation, and the code of a word names one operation. -/
theorem opcodeTableIsTheDecoder : Obligations.OpcodeTableIsTheDecoder := by
  unfold Obligations.OpcodeTableIsTheDecoder
  intro w
  refine ⟨fun i hi r hr => ?_, ⟨fun ⟨e, he⟩ r hr => ?_, fun hno => ?_⟩⟩
  · obtain ⟨o, hrsv, hop, hn, ha, rfl⟩ := decode_eq_ok_iff.1 hi
    obtain ⟨o', rfl⟩ := mem_opcodeTable.1 hr
    rw [o.mnemonic_assemble, o'.row_holds_iff]
    constructor
    · rintro ⟨-, hop', -, -⟩
      rw [hop] at hop'
      cases hop'
      rfl
    · intro hm
      cases Op.row_mnemonic_injective hm
      exact ⟨hrsv, hop, hn, ha⟩
  · obtain ⟨o, rfl⟩ := mem_opcodeTable.1 hr
    refine Bool.eq_false_iff.2 fun hrow => ?_
    obtain ⟨hrsv, hop, hn, ha⟩ := (o.row_holds_iff w).1 hrow
    have hok := decode_eq_ok_iff.2 ⟨o, hrsv, hop, hn, ha, rfl⟩
    rw [he] at hok
    cases hok
  · cases hd : decode w with
    | error e => exact ⟨e, rfl⟩
    | ok i =>
      obtain ⟨o, hrsv, hop, hn, ha, -⟩ := decode_eq_ok_iff.1 hd
      have hrow := (o.row_holds_iff w).2 ⟨hrsv, hop, hn, ha⟩
      rw [hno _ (mem_opcodeTable.2 ⟨o, rfl⟩)] at hrow
      cases hrow

/-! ### The worked words (R91, R92) -/

/-- Settles O1: each word's fields are read off its digits. -/
theorem workedCommandWords : Obligations.WorkedCommandWords := by
  unfold Obligations.WorkedCommandWords
  decide

/-- Settles O7: each response's fields are put side by side. -/
theorem workedResponseWords : Obligations.WorkedResponseWords := by
  unfold Obligations.WorkedResponseWords
  decide

end Sys2Proof

/-! ### The accumulator as a pair of content and length (R104 to R106, R110) -/

namespace Sys2Proof.Machine

section
variable {a : Acc} {n k : Nat}

/-- `content(a)` is EXTRACT of all that is pending (R110). -/
theorem Acc.content_eq_extract (a : Acc) : a.content = a.extract a.avail := rfl

/-- `content(a)` is the value of the pending bits. -/
theorem Acc.content_eq (a : Acc) : a.content = BitVec.ofNat 64 (bitsValue a.bits) := by
  rw [Acc.content_eq_extract, Acc.extract_eq le_rfl, ← Acc.length_bits, List.take_length]

theorem Acc.avail_le (ho : a.Ordered) : a.avail ≤ 64 := by
  rw [Acc.avail]
  exact (Nat.sub_le _ _).trans ho.2

/-- Bit `i` of the content is pending bit `i`, and zero above the last. -/
theorem Acc.getLsbD_content (ho : a.Ordered) (i : Nat) : a.content.getLsbD i = (a.bits[i]?).getD false := by
  rcases Nat.lt_or_ge i 64 with hi | hi
  · rw [Acc.content_eq, BitVec.getLsbD_ofNat, testBit_bitsValue, decide_eq_true hi, Bool.true_and]
  · have hnone : a.bits[i]? = none := List.getElem?_eq_none (by rw [Acc.length_bits]; exact (Acc.avail_le ho).trans hi)
    rw [hnone, BitVec.getLsbD_of_ge _ _ hi, Option.getD_none]

theorem getElem?_fieldBits_getD (v n i : Nat) : ((fieldBits v n)[i]?).getD false = (decide (i < n) && v.testBit i) := by
  rcases Nat.lt_or_ge i n with hi | hi
  · simp [fieldBits, hi]
  · rw [List.getElem?_eq_none (by simpa using hi), decide_eq_false (Nat.not_lt.2 hi), Option.getD_none, Bool.false_and]

/-- INSERT puts the masked field above the content (R110). -/
theorem Acc.content_insert (ho : a.Ordered) (hcl : a.Clean) (v : Word) (hroom : a.stop + n ≤ 64) :
    (a.insert v n).content = a.content ||| ((v &&& mask n) <<< a.avail) := by
  refine BitVec.eq_of_getLsbD_eq fun i hi => ?_
  rw [BitVec.getLsbD_or, Acc.getLsbD_content (Acc.ordered_insert ho hroom), Acc.getLsbD_content ho, Acc.bits_insert ho hcl hroom,
    BitVec.getLsbD_shiftLeft, BitVec.getLsbD_and, getLsbD_mask, List.getElem?_append, Acc.length_bits]
  rcases Nat.lt_or_ge i a.avail with h | h
  · simp [h]
  · have hnone : a.bits[i]? = none := List.getElem?_eq_none (by rwa [Acc.length_bits])
    rw [if_neg (Nat.not_lt.2 h), hnone, getElem?_fieldBits_getD]
    simp [hi, show ¬ i < a.avail by omega, show i - a.avail < 64 by omega, BitVec.getLsbD, Bool.and_comm]

/-- Consuming shifts the content down (R110). -/
theorem Acc.content_advance (ho : a.Ordered) (hk : k ≤ a.avail) : (a.advance k).content = a.content >>> k := by
  refine BitVec.eq_of_getLsbD_eq fun i hi => ?_
  rw [BitVec.getLsbD_ushiftRight, Acc.getLsbD_content (Acc.ordered_advance ho hk), Acc.getLsbD_content ho, Acc.bits_advance,
    List.getElem?_drop]

theorem Acc.avail_advance (a : Acc) (k : Nat) : (a.advance k).avail = a.avail - k := by
  rw [Acc.avail, Acc.avail, Acc.advance_start, Acc.advance_stop]
  omega

/-- EXTRACT is the content's low bits (R110). -/
theorem Acc.extract_eq_content (a : Acc) (hk : k ≤ a.avail) : a.extract k = a.content &&& mask k := by
  refine BitVec.eq_of_getLsbD_eq fun i hi => ?_
  rw [Acc.content_eq_extract, BitVec.getLsbD_and, Acc.getLsbD_extract a k i hi, Acc.getLsbD_extract a _ i hi, getLsbD_mask]
  rcases Nat.lt_or_ge i k with hik | hik
  · simp [hi, hik, hik.trans_le hk]
  · simp [show ¬ i < k by omega]

theorem Acc.avail_normalize (a : Acc) : a.normalize.avail = a.avail := by
  rw [← Acc.length_bits, Acc.bits_normalize, Acc.length_bits]

/-- NORMALIZE changes no field that is pending. -/
theorem Acc.extract_normalize (a : Acc) (hk : k ≤ a.avail) : a.normalize.extract k = a.extract k := by
  rw [Acc.extract_eq (a.avail_normalize.symm ▸ hk), Acc.bits_normalize, Acc.extract_eq hk]

/-! #### The three cases of NORMALIZE (R105) -/

theorem Acc.normalize_spent (h : a.start = a.stop) : a.normalize = { reg := 0#64, start := 0, stop := 0 } := by
  rw [Acc.normalize, if_pos h]

theorem Acc.normalize_shift (h : a.start < a.stop) (h8 : 8 ≤ a.start) :
    a.normalize = { reg := a.reg >>> a.start, start := 0, stop := a.stop - a.start } := by
  rw [Acc.normalize, if_neg h.ne, config_byteBits, if_pos h8]

theorem Acc.normalize_keep (h : a.start < a.stop) (h7 : a.start ≤ 7) : a.normalize = a :=
  Acc.normalize_of_normal (.inr ⟨h7, h⟩)

end

/-- Settles O9: INSERT leaves `start` and raises `end` by `n`, and the new bits lie below the new `end`. -/
theorem insertKeepsOrderAndClean : Obligations.InsertKeepsOrderAndClean := by
  unfold Obligations.InsertKeepsOrderAndClean
  intro a v n _ _ hroom ho hcl
  exact ⟨Acc.ordered_insert ho hroom, Acc.clean_insert hcl, Acc.avail_insert ho⟩

/-- Settles O10: NORMALIZE keeps the pending bits, and what it leaves is Normal, which a second one leaves alone. -/
theorem normalizeKeepsContent : Obligations.NormalizeKeepsContent := by
  unfold Obligations.NormalizeKeepsContent
  intro a ho hcl
  have hnormal := Acc.normal_normalize ho
  refine ⟨a.avail_normalize, fun k => a.extract_normalize, Acc.ordered_normalize ho, Acc.clean_normalize hcl,
    Acc.normalize_of_normal hnormal, hnormal.imp_left fun h => ?empty, Acc.bits_normalize, Acc.normalize_spent, Acc.normalize_shift,
    Acc.normalize_keep⟩
  case empty => rw [h]; exact ⟨rfl, rfl, rfl⟩

/-- Settles O11: the content is the value of the pending bits, of which INSERT, advancing and NORMALIZE are known. -/
theorem contentAbstraction : Obligations.ContentAbstraction := by
  unfold Obligations.ContentAbstraction
  intro a ho hcl
  refine ⟨fun v n _ _ hroom => ⟨Acc.content_insert ho hcl v hroom, Acc.avail_insert ho⟩,
    fun k hk => ⟨Acc.content_advance ho hk, a.avail_advance k, a.extract_eq_content hk⟩, ?_, a.avail_normalize⟩
  rw [Acc.content_eq, Acc.bits_normalize, ← Acc.content_eq]

/-! ### Widths that always fit (R13) -/

theorem readCapacityOk_iff {a : Acc} (ho : a.Ordered) (n : Nat) :
    readCapacityOk a n = true ↔ a.stop + 8 * ceilDiv8 (n - a.avail) ≤ 64 := by
  rw [readCapacityOk, decide_eq_true_iff, refillBytes_eq ho.1, config_byteBits, config_W]

/-- Settles O44: below 51 bits a Normal reader has room; from 51 on, eight pending bits at bit 0 leave room for any legal width,
and two pending bits at bit 7 for none. -/
theorem narrowWidthsAlwaysFit : Obligations.NarrowWidthsAlwaysFit := by
  unfold Obligations.NarrowWidthsAlwaysFit
  refine ⟨fun a n ⟨ho, _, hn, _⟩ h => ?narrow, fun a n ⟨h0, h1⟩ h => ?empty, fun n hlo hhi => ?bound, fun a n _ h7 h => ?write⟩
  case narrow =>
    have hroom := readCapacity_narrow ho hn h
    rw [refillBytes_eq ho.1] at hroom
    exact (readCapacityOk_iff ho n).2 hroom
  case empty =>
    have ho : a.Ordered := by rw [Acc.Ordered, h0, h1]; decide
    rw [readCapacityOk_iff ho, Acc.avail, h0, h1, ceilDiv8]
    omega
  case bound =>
    have h8 : ReaderInv ⟨0xFF#64, 0, 8⟩ := by decide
    have h2 : ReaderInv ⟨0x180#64, 7, 9⟩ := by decide
    refine ⟨⟨0xFF#64, 0, 8⟩, ⟨0x180#64, 7, 9⟩, h8, h2, by decide, by decide, ?_, Bool.eq_false_iff.2 fun h => ?_⟩
    · rw [readCapacityOk_iff h8.1]
      simp only [Acc.avail, ceilDiv8]
      omega
    · rw [readCapacityOk_iff h2.1] at h
      simp only [Acc.avail, ceilDiv8] at h
      omega
  case write =>
    have hroom : a.stop + n ≤ 64 := by omega
    rw [writeCapacityOk, config_W]
    exact decide_eq_true hroom

end Sys2Proof.Machine

/-! ### The step, input by input (R32, R50, R180, R190, R193) -/

namespace Sys2Proof.Machine

section
variable {s : State} {later : List HostInput}

theorem step_of_idle (hp : s.port = []) : step s = .next s := by
  simp only [step, hp]

theorem step_of_decode_ok {c : Command} {i : Instr} (hp : s.port = .command c :: later) (hd : decode c.word = .ok i) :
    step s = exec i (s.accept c later) := by
  simp only [step, hp, hd]

theorem step_of_reset (hp : s.port = .reset :: later) : step s = .next (s.resetBlock later) := by
  simp only [step, hp]

theorem step_of_commandWhileBusy {c : Command} (hp : s.port = .commandWhileBusy c :: later) :
    step s = .refused .commandWhileBusy := by
  simp only [step, hp]

theorem step_of_resetWhileBusy (hp : s.port = .resetWhileBusy :: later) : step s = .refused .resetWhileBusy := by
  simp only [step, hp]

end

/-- Settles O13: both units are Empty, the buffers and the port hold nothing, and both transports answer for ever. -/
theorem resetIsASafeStart : Obligations.ResetIsASafeStart := by
  unfold Obligations.ResetIsASafeStart
  decide

/-- Settles O15: a reset replaces both accumulators and takes its input off the port. -/
theorem resetInputEmptiesBothUnits : Obligations.ResetInputEmptiesBothUnits := by
  unfold Obligations.ResetInputEmptiesBothUnits
  intro s later hp
  exact ⟨s.resetBlock later, step_of_reset hp, rfl, rfl, rfl, rfl, rfl, rfl, rfl, rfl, rfl, rfl, rfl, rfl, rfl⟩

/-- Settles O16: accepting a command takes it off the port and attaches its buffers. -/
theorem stepRunsTheDecodedCommand : Obligations.StepRunsTheDecodedCommand := by
  unfold Obligations.StepRunsTheDecodedCommand
  exact fun s c later i hp hd => step_of_decode_ok hp hd

/-- Settles O17: an idle block has nothing to take. -/
theorem idleBlockHoldsEverything : Obligations.IdleBlockHoldsEverything := by
  unfold Obligations.IdleBlockHoldsEverything
  exact fun s => step_of_idle

/-- Settles O18: the two early inputs have no step. -/
theorem overlappingInputsAreRefused : Obligations.OverlappingInputsAreRefused := by
  unfold Obligations.OverlappingInputsAreRefused
  exact fun s later => ⟨fun c => step_of_commandWhileBusy, step_of_resetWhileBusy⟩

end Sys2Proof.Machine

/-! ### A field read with a given source (R123, R126, R135) -/

namespace Sys2Proof.Machine

section
variable {i : Instr} {n : Nat} {s : State} {bs : List Byte} {q : Source}

/-- The single-field read that gets the bytes it needs, as one step (R123). -/
theorem exec_fieldRead_ok (hi : fieldReadWidth i = some n) (h0 : 0 < n) (h1 : n < 64) (ho : s.rd.Ordered) (hc : s.rd.Clean)
    (hl : bs.length = ceilDiv8 (n - s.rd.avail)) (hk : s.rd.stop + 8 * bs.length ≤ 64) (hd : s.source.Delivers bs q) :
    exec i s = .next (((s.pulled bs q).setRd (s.rd.consumed bs n)).respond
      (.okay (BitVec.ofNat 64 (bitsValue ((s.rd.bits ++ bytesBits bs).take n))) [])) := by
  rw [exec_fieldRead hi s ho hc, readField_ok h0 h1 ho hc hl hk hd]
  rfl

/-- A refill brings in at least what the field lacks. -/
theorem le_avail_add_of_length {a : Acc} (hl : bs.length = ceilDiv8 (n - a.avail)) : n ≤ a.avail + 8 * bs.length := by
  simp only [ceilDiv8] at hl
  omega

end

/-- Settles O21: the refill appends the bytes to the pending bits, the field is taken from the front, and NORMALIZE settles the
registers. -/
theorem fieldReadReturnsTheNextBits : Obligations.FieldReadReturnsTheNextBits := by
  unfold Obligations.FieldReadReturnsTheNextBits
  intro i n s bs q hi h0 h1 ho hc hl hk hd
  obtain ⟨hord, hclean, hnormal, hbits, -⟩ := Acc.consumed_spec ho hc hk (le_avail_add_of_length hl)
  exact ⟨s.rd.consumed bs n, exec_fieldRead_ok hi h0 h1 ho hc hl hk hd, Acc.consumed_eq ho hk, hbits, hord, hclean, hnormal⟩

/-! #### One read in two parts (R135) -/

/-- The value of `m + n` bits is that of the first `m` and that of the next `n` side by side (R135). -/
theorem ofNat_bitsValue_take_add {l : List Bool} {m n : Nat} (hm : m ≤ l.length) :
    BitVec.ofNat 64 (bitsValue (l.take m)) ||| (BitVec.ofNat 64 (bitsValue ((l.drop m).take n)) <<< m) =
      BitVec.ofNat 64 (bitsValue (l.take (m + n))) := by
  refine BitVec.eq_of_getLsbD_eq fun i hi => ?_
  rw [BitVec.getLsbD_or, BitVec.getLsbD_shiftLeft, BitVec.getLsbD_ofNat, BitVec.getLsbD_ofNat, BitVec.getLsbD_ofNat,
    testBit_bitsValue, testBit_bitsValue, testBit_bitsValue, List.take_add, List.getElem?_append, List.length_take_of_le hm]
  rcases Nat.lt_or_ge i m with him | him
  · simp [hi, him]
  · have hnone : (l.take m)[i]? = none := List.getElem?_eq_none (by rwa [List.length_take_of_le hm])
    simp only [hnone, Option.getD_none, if_neg (Nat.not_lt.2 him)]
    simp [hi, show ¬ i < m by omega, show i - m < 64 by omega]

/-- A read of at most 50 bits that gets its bytes, by what it answers and what it leaves pending (R13, R123). -/
theorem exec_readBits_narrow {n : Nat} {s : State} {bs : List Byte} {q : Source} (h0 : 0 < n) (h50 : n ≤ 50) (ho : s.rd.Ordered)
    (hc : s.rd.Clean) (hn : s.rd.Normal) (hl : bs.length = ceilDiv8 (n - s.rd.avail)) (hd : s.source.Delivers bs q) :
    ∃ t, exec (.readBits n) s = .next t ∧
      t.responses = s.responses ++ [⟨.ok, BitVec.ofNat 64 (bitsValue ((s.rd.bits ++ bytesBits bs).take n)), 0#32, []⟩] ∧
      t.rd.Ordered ∧ t.rd.Clean ∧ t.rd.Normal ∧ t.rd.bits = (s.rd.bits ++ bytesBits bs).drop n ∧ t.source = q := by
  have hroom := readCapacity_narrow ho hn h50
  rw [refillBytes_eq ho.1, ← hl] at hroom
  obtain ⟨hord, hclean, hnormal, hbits, -⟩ := Acc.consumed_spec ho hc hroom (le_avail_add_of_length hl)
  exact ⟨_, exec_fieldRead_ok rfl h0 (by omega) ho hc hl hroom hd, rfl, hord, hclean, hnormal, hbits, rfl⟩

/-- Settles O30: the bytes of the whole read fall into those of the first part and those of the second, and each part takes its bits
from the front of one stream. -/
theorem splitReadEqualsWholeRead : Obligations.SplitReadEqualsWholeRead := by
  unfold Obligations.SplitReadEqualsWholeRead
  rintro n1 n2 s bs q h1 h2 hn ⟨ho, hc, hnormal, -⟩ hl hd
  obtain ⟨t, ht, hresp, -, -, -, hbits, rfl⟩ := exec_readBits_narrow (by omega) hn ho hc hnormal hl hd
  -- the bytes that the first part needs, and those that are left for the second
  have hcut : ceilDiv8 (n1 - s.rd.avail) ≤ bs.length := by simp only [hl, ceilDiv8]; omega
  obtain ⟨bs1, bs2, rfl, hl1⟩ : ∃ bs1 bs2, bs = bs1 ++ bs2 ∧ bs1.length = ceilDiv8 (n1 - s.rd.avail) :=
    ⟨bs.take _, bs.drop _, (List.take_append_drop _ bs).symm, List.length_take_of_le hcut⟩
  obtain ⟨q1, hd1, hd2⟩ := Source.delivers_append.1 hd
  obtain ⟨s1, hs1, hresp1, ho1, hc1, hnormal1, hbits1, rfl⟩ := exec_readBits_narrow h1 (by omega) ho hc hnormal hl1 hd1
  have hlen1 : n1 ≤ (s.rd.bits ++ bytesBits bs1).length := by
    rw [List.length_append, Acc.length_bits, length_bytesBits]
    exact le_avail_add_of_length hl1
  have hl2 : bs2.length = ceilDiv8 (n2 - s1.rd.avail) := by
    rw [← Acc.length_bits, hbits1, List.length_drop, List.length_append, Acc.length_bits, length_bytesBits]
    rw [List.length_append] at hl
    simp only [ceilDiv8] at hl hl1 ⊢
    omega
  obtain ⟨s2, hs2, hresp2, -, -, -, hbits2, hsource2⟩ := exec_readBits_narrow h2 (by omega) ho1 hc1 hnormal1 hl2 hd2
  -- both ways read one stream
  rw [bytesBits_append, ← List.append_assoc] at hresp hbits
  have hrest : s1.rd.bits ++ bytesBits bs2 = ((s.rd.bits ++ bytesBits bs1) ++ bytesBits bs2).drop n1 := by
    rw [hbits1, List.drop_append_of_le_length hlen1]
  rw [hresp1, List.append_assoc, hrest, ← List.take_append_of_le_length hlen1] at hresp2
  rw [hrest, List.drop_drop] at hbits2
  refine ⟨s1, s2, t, _, _, _, hs1, hs2, ht, hresp2, hresp, ofNat_bitsValue_take_add ?_, hbits2.trans hbits.symm, hsource2⟩
  rw [List.length_append]
  exact hlen1.trans (Nat.le_add_right _ _)

/-! ### Byte reads (R129 to R131) -/

/-- A byte read is `read_bytes` or `attempt_read` (R70). -/
theorem byteReadCount_eq_some_iff {i : Instr} {count : Nat} :
    byteReadCount i = some count ↔ i = .readBytes count ∨ i = .srcRead count := by
  cases i <;> simp [byteReadCount]

/-- What the command makes of a byte loop's progress: `attempt_read` maps it, `read_bytes` reports it as it is (R131). -/
def reportedProgress : Instr → Progress → Progress
  | .srcRead _, p => adapterStatus p
  | _, p => p

section
variable {i : Instr} {count : Nat} {s : State}

theorem reportedProgress_fst (hi : byteReadCount i = some count) (p : Progress) : (reportedProgress i p).1 = p.1 := by
  rcases byteReadCount_eq_some_iff.1 hi with rfl | rfl
  · rfl
  · exact adapterStatus_fst p

/-- A complete byte read is reported as it is by both commands. -/
theorem reportedProgress_none (hi : byteReadCount i = some count) (done : Nat) :
    reportedProgress i (done, none) = (done, none) := by
  rcases byteReadCount_eq_some_iff.1 hi with rfl | rfl <;> rfl

/-- A byte read whose loop has ended reports the loop's progress and the bytes stored (R129, R131). -/
theorem exec_byteRead_of_done (hi : byteReadCount i = some count) {p : Progress} {u : State}
    (h : readBytesLoop count 0 s = .done p u) :
    exec i s = .next (u.respond (.ofProgress (reportedProgress i p) (u.dest.prefixBytes p.1))) := by
  rcases byteReadCount_eq_some_iff.1 hi with rfl | rfl
  · show completeRead (readBytesLoop count 0 s) = _
    rw [h]
    rfl
  · show completeRead ((readBytesLoop count 0 s).bind fun p t => .done (adapterStatus p) t) = _
    rw [h, reportedProgress, ← adapterStatus_fst p]
    rfl

/-- A byte read whose loop hangs has no step (R59). -/
theorem exec_byteRead_of_hung (hi : byteReadCount i = some count) {f : Fault} (h : readBytesLoop count 0 s = .hung f) :
    exec i s = .fault f := by
  rcases byteReadCount_eq_some_iff.1 hi with rfl | rfl
  · show completeRead (readBytesLoop count 0 s) = _
    rw [h]
    rfl
  · show completeRead ((readBytesLoop count 0 s).bind fun p t => .done (adapterStatus p) t) = _
    rw [h]
    rfl

end

/-- Settles O23: the loop stores one element after another from the front of the stream. -/
theorem byteReadsDeliverTheStream : Obligations.ByteReadsDeliverTheStream := by
  unfold Obligations.ByteReadsDeliverTheStream
  intro i count s bs q hi hinv hwf hl hd
  obtain ⟨xs, a, new, ho, hc, hn, hnone, hsome, hstream, hshort, htrace, rfl, hrun⟩ := readBytesLoop_ok hinv hl hd
  have hexec := exec_byteRead_of_done hi hrun
  rw [reportedProgress_none hi, Memory.prefixBytes_storeAll hwf] at hexec
  have hne : 0 < xs.length → a.start = 0 := fun h => hsome (List.length_pos_iff.1 h)
  exact ⟨a, _, new, xs, hexec, rfl, hstream, readerInv_after_loop hinv ho hc hn hstream hshort, Memory.wf_storeAll hwf 0 xs,
    fun h => hnone (List.length_eq_zero_iff.1 h), hne, Memory.read_storeAll_zero hwf xs, htrace.answers⟩

/-- The adapter's answer by what the source said last (R131). -/
theorem ofProgress_adapterStatus {x : SrcAnswer} {e : Raise} (hx : x.raises = some e) (done : Nat) (xs : List Byte) :
    Response.ofProgress (adapterStatus (done, some e)) xs =
      if x = .ended then ⟨.ok, BitVec.ofNat 64 done, 0#32, xs⟩ else ⟨e.status, BitVec.ofNat 64 done, e.terr, xs⟩ := by
  cases x <;> cases hx <;> rfl

/-- Settles O24: the loop stops with the elements stored so far, and only the two commands' responses differ. -/
theorem byteReadsStopAtTheSource : Obligations.ByteReadsStopAtTheSource := by
  unfold Obligations.ByteReadsStopAtTheSource
  intro count s bs q q' x e hinv hwf hlt hd hnext hx
  have hnobyte : ∀ b q3, q.next ≠ some (.byte b, q3) := by
    intro b q3 h
    rw [hnext] at h
    cases h
    cases hx
  obtain ⟨xs, a, new, ho, hc, hn, hnone, hsome, hstream, hshort, htrace, hcount, h7, ⟨x', e', q3, hnext', hx', hrun⟩ | ⟨hsilent, -⟩⟩ :=
    readBytesLoop_stop hinv hlt hd hnobyte
  · rw [hnext] at hnext'
    cases hnext'
    rw [hx] at hx'
    cases hx'
    have hread := exec_byteRead_of_done (i := .readBytes count) rfl hrun
    have hadapter := exec_byteRead_of_done (i := .srcRead count) rfl hrun
    rw [Memory.prefixBytes_storeAll hwf] at hread hadapter
    rw [reportedProgress, ofProgress_adapterStatus hx] at hadapter
    have hlen := congrArg List.length hstream
    simp only [List.length_append, Acc.length_bits, length_bytesBits] at hlen
    exact ⟨{ s with rd := a, source := q', dest := s.dest.storeAll 0 xs, calls := s.calls ++ new ++ [.srcRead x] }, xs,
      by omega, hcount, hstream, readerInv_after_loop hinv ho hc hn hstream hshort, hnone, hsome,
      Memory.read_storeAll_zero hwf xs, rfl, rfl, rfl, rfl, rfl, rfl, hread, hadapter⟩
  · rw [hnext] at hsilent
    cases hsilent

/-! ### Over an exhausted source (R126) -/

theorem Source.next_of_exhausted {q : Source} (h : q.Exhausted) : q.next = some (.ended, q) := by
  rw [Source.next, h.1, h.2]

/-- A field read that needs a byte is ended by the first call, and nothing but the record has changed (R126). -/
theorem readField_exhausted {n : Nat} {s : State} (hinv : ReaderInv s.rd) (hex : s.source.Exhausted) (h0 : 0 < n) (h1 : n < 64)
    (hk : s.rd.stop + 8 * ceilDiv8 (n - s.rd.avail) ≤ 64) (hlt : s.rd.avail < n) :
    readField n s = .raised .endOfStream (s.log (.srcRead .ended)) := by
  have hneed : ([] : List Byte).length < ceilDiv8 (n - s.rd.avail) := by
    simp only [List.length_nil, ceilDiv8]
    omega
  have hstate : (s.pulled [] s.source).stopped .ended s.source = s.log (.srcRead .ended) := by
    simp [State.pulled, State.stopped, State.log, Acc.insertBytes]
  rw [readField_stop h0 h1 hinv.1 hinv.2.1 hk hneed rfl (Source.next_of_exhausted hex) rfl, hstate]

/-- Settles O29: the first call is answered `END`, which ends the command before anything has changed. -/
theorem exhaustedSourceChangesNothing : Obligations.ExhaustedSourceChangesNothing := by
  unfold Obligations.ExhaustedSourceChangesNothing
  intro s hinv hex
  refine ⟨fun i n hi h0 h1 hk hlt => ?field, fun count hcount h7 => ?bytes⟩
  case field =>
    rw [exec_fieldRead hi s hinv.1 hinv.2.1, readField_exhausted hinv hex h0 h1 hk hlt]
    rfl
  case bytes =>
    obtain ⟨todo, rfl⟩ := Nat.exists_eq_succ_of_ne_zero hcount.ne'
    have hroom := readCapacity_narrow hinv.1 hinv.2.2.1 (n := 8) (by decide)
    rw [refillBytes_eq hinv.1.1] at hroom
    have hloop : readBytesLoop (todo + 1) 0 s = .done (0, some .endOfStream) (s.log (.srcRead .ended)) := by
      rw [readBytesLoop, readField_exhausted hinv hex (by decide) (by decide) hroom (by omega)]
    exact ⟨exec_byteRead_of_done rfl hloop, exec_byteRead_of_done rfl hloop⟩

end Sys2Proof.Machine

/-! ### The order of a byte read's accesses (R55, R129) -/

namespace Sys2Proof.Machine

/-- With at most seven bits pending each element takes one byte from the source, and is stored before the next is asked for. -/
theorem readBytesLoop_order {todo done : Nat} {s : State} {bs : List Byte} {q : Source} (ho : s.rd.Ordered) (hc : s.rd.Clean)
    (hn : s.rd.Normal) (h7 : s.rd.avail ≤ 7) (hl : bs.length = todo) (hd : s.source.Delivers bs q) :
    ∃ xs u, xs.length = todo ∧ readBytesLoop todo done s = .done (done + todo, none) u ∧
      u.calls = s.calls ++ readStoreOrder done bs xs := by
  induction todo generalizing done s bs with
  | zero =>
    obtain rfl := List.length_eq_zero_iff.1 hl
    exact ⟨[], s, rfl, rfl, (List.append_nil _).symm⟩
  | succ todo ih =>
    obtain ⟨b, bs, rfl⟩ := List.exists_cons_of_length_eq_add_one hl
    obtain ⟨q1, hnext, hd⟩ := hd
    have hone : [b].length = ceilDiv8 (8 - s.rd.avail) := by simp only [List.length_singleton, ceilDiv8]; omega
    have hroom := readCapacity_narrow ho hn (n := 8) (by decide)
    rw [refillBytes_eq ho.1, ← hone] at hroom
    obtain ⟨ho', hc', hn', hbits', -⟩ := Acc.consumed_spec ho hc hroom (le_avail_add_of_length hone)
    have h7' : (s.rd.consumed [b] 8).avail ≤ 7 := by
      rw [← Acc.length_bits, hbits', List.length_drop, List.length_append, Acc.length_bits, length_bytesBits, List.length_singleton]
      omega
    obtain ⟨x, hread⟩ : ∃ x, readField 8 s = .done x ((s.pulled [b] q1).setRd (s.rd.consumed [b] 8)) :=
      ⟨_, readField_ok (by decide) (by decide) ho hc hone hroom ⟨q1, hnext, rfl⟩⟩
    obtain ⟨xs, u, hxs, hrun, hcalls⟩ := ih (done := done + 1)
      (s := storeDest done (lowByte x) ((s.pulled [b] q1).setRd (s.rd.consumed [b] 8))) ho' hc' hn' h7' (Nat.succ.inj hl) hd
    refine ⟨lowByte x :: xs, u, congrArg Nat.succ hxs, ?_, ?_⟩
    · rw [readBytesLoop, hread, show done + (todo + 1) = done + 1 + todo by omega]
      exact hrun
    · rw [hcalls, readStoreOrder]
      simp [storeDest_eq, State.pulled]

/-! ### The spent bits (R30) -/

/-- Two accumulators that may differ below `start` alone. -/
structure Acc.Twins (a b : Acc) : Prop where
  start  : a.start = b.start
  stop   : a.stop = b.stop
  bits   : a.bits = b.bits
  left   : a.Ordered ∧ a.Clean
  right  : b.Ordered ∧ b.Clean

section
variable {a b : Acc} {bs : List Byte} {n : Nat}

theorem Acc.Twins.avail (h : a.Twins b) : a.avail = b.avail := by
  rw [Acc.avail, Acc.avail, h.start, h.stop]

theorem Acc.Twins.refillBytes (h : a.Twins b) (n : Nat) : refillBytes a n = refillBytes b n := by
  rw [refillBytes_eq h.left.1.1, refillBytes_eq h.right.1.1, h.avail]

theorem Acc.Twins.insertBytes (h : a.Twins b) (hroom : b.stop + 8 * bs.length ≤ 64) :
    (a.insertBytes bs).Twins (b.insertBytes bs) := by
  obtain ⟨hoa, hca, hbitsa⟩ := Acc.insertBytes_spec h.left.1 h.left.2 (h.stop ▸ hroom)
  obtain ⟨hob, hcb, hbitsb⟩ := Acc.insertBytes_spec h.right.1 h.right.2 hroom
  exact ⟨by simp [h.start], by simp [h.stop], by rw [hbitsa, hbitsb, h.bits], ⟨hoa, hca⟩, ⟨hob, hcb⟩⟩

theorem Acc.Twins.consumed (h : a.Twins b) (hroom : b.stop + 8 * bs.length ≤ 64) (hn : n ≤ b.avail + 8 * bs.length) :
    (a.consumed bs n).Twins (b.consumed bs n) := by
  have hrooma : a.stop + 8 * bs.length ≤ 64 := h.stop ▸ hroom
  obtain ⟨hoa, hca, -, hbitsa, -⟩ := Acc.consumed_spec h.left.1 h.left.2 hrooma (h.avail ▸ hn)
  obtain ⟨hob, hcb, -, hbitsb, -⟩ := Acc.consumed_spec h.right.1 h.right.2 hroom hn
  refine ⟨?_, ?_, by rw [hbitsa, hbitsb, h.bits], ⟨hoa, hca⟩, ⟨hob, hcb⟩⟩ <;>
    rw [Acc.consumed_eq h.left.1 hrooma, Acc.consumed_eq h.right.1 hroom, h.start, h.stop, h.avail] <;> split_ifs <;> rfl

end

/-- Two runs that do the same, and whose readers may differ below `start` alone. -/
inductive Run.Twins : Run α → Run α → Prop
  | done {a : Acc} {s : State} (x : α) (h : a.Twins s.rd) : Run.Twins (.done x s) (.done x (s.setRd a))
  | raised {a : Acc} {s : State} (e : Raise) (h : a.Twins s.rd) : Run.Twins (.raised e s) (.raised e (s.setRd a))
  | hung (f : Fault) : Run.Twins (.hung f) (.hung f)

section
variable {a : Acc} {s : State}

theorem readField_twins (h : a.Twins s.rd) (n : Nat) : (readField n s).Twins (readField n (s.setRd a)) := by
  obtain ⟨hoa, hca⟩ := h.left
  obtain ⟨ho, hc⟩ := h.right
  have hneed := refillBytes_eq ho.1 n
  rcases readField_cases n s ho hc with ⟨hlegal, hrun⟩ | ⟨⟨h0, h1, hroom⟩, bs, q, hd, ⟨hl, hrun⟩ | ⟨hl, hrun⟩⟩
  · rw [← h.refillBytes, ← h.stop] at hlegal
    rw [hrun, readField_rejected (s := s.setRd a) hlegal]
    exact .raised _ h
  · rw [← hl] at hroom
    rw [hneed] at hl
    have hrun' := readField_ok (s := s.setRd a) h0 h1 hoa hca (h.avail ▸ hl) (h.stop ▸ hroom) hd
    rw [State.setRd_rd, h.bits] at hrun'
    rw [hrun, hrun']
    exact .done (s := { s.pulled bs q with rd := s.rd.consumed bs n }) _ (h.consumed hroom (le_avail_add_of_length hl))
  · have hbs : s.rd.stop + 8 * bs.length ≤ 64 := by omega
    rw [hneed] at hl hroom
    rw [← h.stop, ← h.avail] at hroom
    rw [← h.avail] at hl
    rcases hrun with ⟨x, e, q', hnext, hx, hrun⟩ | ⟨hnext, hrun⟩
    · rw [hrun, readField_stop (s := s.setRd a) h0 h1 hoa hca hroom hl hd hnext hx]
      exact .raised (s := (s.pulled bs q).stopped x q') _ (h.insertBytes hbs)
    · rw [hrun, readField_hang (s := s.setRd a) h0 h1 hoa hca hroom hl hd hnext]
      exact .hung _

theorem readBytesLoop_twins (h : a.Twins s.rd) (todo done : Nat) :
    (readBytesLoop todo done s).Twins (readBytesLoop todo done (s.setRd a)) := by
  induction todo generalizing done s a with
  | zero => exact .done _ h
  | succ todo ih =>
    have hfield := readField_twins h 8
    unfold readBytesLoop
    generalize readField 8 s = r, readField 8 (s.setRd a) = r' at hfield
    cases hfield with
    | @done b t x hb => exact ih (s := storeDest done (lowByte x) t) hb (done + 1)
    | raised e hb => exact .done _ hb
    | hung f => exact .hung f

/-- A reader command does the same from both readers, and leaves two that may differ below `start` alone (R30). -/
theorem exec_twins {i : Instr} (hi : readerCommand i = true) (h : a.Twins s.rd) :
    (∃ t b, exec i s = .next t ∧ exec i (s.setRd a) = .next (t.setRd b) ∧ b.Twins t.rd) ∨
      ∃ f, exec i s = .fault f ∧ exec i (s.setRd a) = .fault f := by
  rcases readerCommand_cases hi with ⟨n, hn, -⟩ | ⟨count, hi⟩
  · have hfield := readField_twins h n
    rw [exec_eq_complete_readField hn, exec_eq_complete_readField hn]
    generalize readField n s = r, readField n (s.setRd a) = r' at hfield
    cases hfield with
    | done x hb => exact .inl ⟨_, _, rfl, rfl, hb⟩
    | raised e hb => exact .inl ⟨_, _, rfl, rfl, hb⟩
    | hung f => exact .inr ⟨f, rfl, rfl⟩
  · obtain ⟨f, -, hexec⟩ := exec_byteRead_eq hi
    have hloop := readBytesLoop_twins h count 0
    rw [hexec, hexec]
    generalize readBytesLoop count 0 s = r, readBytesLoop count 0 (s.setRd a) = r' at hloop
    cases hloop with
    | done p hb => exact .inl ⟨_, _, rfl, rfl, hb⟩
    | raised e hb => exact .inl ⟨_, _, rfl, rfl, hb⟩
    | hung f => exact .inr ⟨f, rfl, rfl⟩

end

/-- Settles O31: what is read, what is asked for and what is left depend on `start`, `end` and the pending bits alone. -/
theorem spentBitsAreNeverObserved : Obligations.SpentBitsAreNeverObserved := by
  unfold Obligations.SpentBitsAreNeverObserved
  rintro i s a hi ⟨ho, hc, -⟩ ⟨hoa, hca, -⟩ hstart hstop hbits
  have htwins : a.Twins s.rd := ⟨hstart, hstop, hbits, ⟨hoa, hca⟩, ⟨ho, hc⟩⟩
  rcases exec_twins hi htwins with ⟨t, b, ht, ht', hb⟩ | ⟨f, hf, hf'⟩
  · refine ⟨fun u hu => ?_, fun f hf => ?_⟩
    · rw [ht] at hu
      cases hu
      exact ⟨b, ht', hb.start, hb.stop, hb.bits⟩
    · rw [ht] at hf
      cases hf
  · refine ⟨fun u hu => ?_, fun f' hf'' => ?_⟩
    · rw [hf] at hu
      cases hu
    · rw [hf] at hf''
      cases hf''
      exact hf'

end Sys2Proof.Machine

/-! ### A write with a given sink (R144 to R150) -/

namespace Sys2Proof.Machine

section
variable {L r : List Bool} {es cs : List Byte} {b b' : Byte} {e e' : TErr} {k k1 k2 k' k3 : Sink}

/-- What is left of a stream once its front has been emitted. -/
theorem eq_drop_of_emitted (h : L = bytesBits es ++ r) : r = L.drop (8 * es.length) := by
  rw [h, List.drop_left' (length_bytesBits es)]

/-- Two offers of one stream that are each refused a byte are refused the same byte, with the same error. -/
theorem refused_same (h : L = bytesBits es ++ r) (ha : k.Accepts es k1) (hb' : byteBits b' = r.take 8)
    (hn : k1.next = some (.fail e', k3)) (h2 : bytesBits (cs ++ [b]) = L.take (8 * cs.length + 8)) (hc : k.Accepts cs k2)
    (hf : k2.next = some (.fail e, k')) : es = cs ∧ b' = b ∧ e' = e ∧ k3 = k' := by
  obtain ⟨hcs, hb⟩ := bytesBits_front h2
  have hL : 8 * cs.length ≤ L.length := by
    have := congrArg List.length hcs
    rw [length_bytesBits, List.length_take] at this
    omega
  obtain ⟨rfl, rfl⟩ := stopped_same h ha hcs hc hL (by simp [hn]) (by simp [hf])
  rw [← eq_drop_of_emitted h, ← hb'] at hb
  rw [hn] at hf
  cases hf
  exact ⟨rfl, (byteBits_injective hb).symm, rfl, rfl⟩

end

/-- What is staged after a flush has been refused a byte is whole bytes (R150). -/
theorem eight_dvd_avail_of_emitted {a w : Acc} {es : List Byte}
    (h : a.bits ++ List.replicate (8 * ceilDiv8 a.avail - a.avail) false = bytesBits es ++ w.bits) : 8 ∣ w.avail := by
  have hlen := congrArg List.length h
  simp only [List.length_append, Acc.length_bits, List.length_replicate, length_bytesBits] at hlen
  have hle : a.avail ≤ 8 * ceilDiv8 a.avail := by simp only [ceilDiv8]; omega
  omega

/-- Settles O32: the field is staged above the rest, and DRAIN emits the complete bytes. -/
theorem fieldWriteEmitsCompleteBytes : Obligations.FieldWriteEmitsCompleteBytes := by
  unfold Obligations.FieldWriteEmitsCompleteBytes
  intro i v n s es k hi h0 h1 hv hw hroom hl hb ha
  obtain ⟨w, hrun, hinv, h7, hstream⟩ := writeField_ok h0 h1 hv hw hroom hl hb ha
  refine ⟨w, ?_, eq_drop_of_emitted hstream, hinv, h7, Sink.accepts_out ha⟩
  rw [exec_fieldWrite hi, hrun]
  rfl

/-- Settles O33: the refused byte and all after it have stayed where INSERT put them. -/
theorem sinkFailureKeepsTheBacklog : Obligations.SinkFailureKeepsTheBacklog := by
  unfold Obligations.SinkFailureKeepsTheBacklog
  intro i v n s es b e k k' hi h0 h1 hv hw hroom hl hb ha hf
  obtain ⟨w, hrun, hinv, h8, hstream⟩ := writeField_fail h0 h1 hv hw hroom hl hb ha hf
  refine ⟨w, ?_, eq_drop_of_emitted hstream, hinv, hinv.2.2, h8, (Sink.next_out hf).trans (Sink.accepts_out ha)⟩
  rw [exec_fieldWrite hi, hrun]
  rfl

/-! #### The element loop (R148, R149) -/

section
variable {count : Nat} {s : State} {es : List Byte} {k : Sink}

/-- The stream of the elements taken so far is the front of the stream of all elements. -/
theorem stream_of_elements {w : Acc} {m : Nat} (hm : m ≤ count)
    (h : s.wr.bits ++ bytesBits (s.src.slice 0 m) = bytesBits es ++ w.bits) :
    s.wr.bits ++ bytesBits (s.src.slice 0 count) = bytesBits es ++ (w.bits ++ bytesBits (s.src.slice (0 + m) (count - m))) := by
  rw [← List.append_assoc, ← h, List.append_assoc, ← bytesBits_append, ← Memory.slice_add, Nat.add_sub_cancel' hm]

/-- An element loop whose bytes the sink accepts writes every element (R148). -/
theorem writeBytesLoop_ok (hw : WriterInv s.wr) (hroom : count = 0 ∨ s.wr.stop ≤ 56)
    (hl : es.length = if count = 0 then 0 else (s.wr.avail + 8 * count) / 8)
    (hb : bytesBits es = (s.wr.bits ++ bytesBits (s.src.slice 0 count)).take (8 * es.length)) (ha : s.sink.Accepts es k) :
    ∃ w new, writeBytesLoop count 0 s = .done (count, none) { s with wr := w, sink := k, calls := s.calls ++ new } ∧ WriterInv w ∧
      (0 < count → w.stop ≤ 7) ∧ s.wr.bits ++ bytesBits (s.src.slice 0 count) = bytesBits es ++ w.bits ∧
      WriteTrace new es 0 (s.src.slice 0 count) := by
  rcases Nat.eq_zero_or_pos count with rfl | hpos
  · obtain rfl := List.length_eq_zero_iff.1 hl
    obtain rfl : k = s.sink := ha
    exact ⟨s.wr, [], by simp [writeBytesLoop], hw, nofun, by simp [Memory.slice], ⟨rfl, rfl, rfl, by simp⟩⟩
  · rw [if_neg hpos.ne'] at hl
    rcases writeBytesLoop_cases count 0 s hw with ⟨-, hfull, -⟩ | ⟨-, cs, k1, w, m, new, hacc, hinv, hstream, hend⟩
    · omega
    have hlen := congrArg List.length hstream
    simp only [List.length_append, Acc.length_bits, length_bytesBits, Memory.length_slice] at hlen
    rcases hend with ⟨⟨rfl, hshort⟩, htrace, hrun⟩ | ⟨-, hm, h8, -, hend⟩
    · obtain ⟨rfl, rfl⟩ := accepted_same hstream hacc hb ha (by omega)
      rw [Nat.zero_add] at hrun
      refine ⟨w, new, hrun, hinv, fun _ => ?_, hstream, htrace⟩
      rw [← hinv.avail_eq]
      omega
    · obtain ⟨k3, hok⟩ := accepted_next (stream_of_elements hm hstream) hacc hb ha (by omega) (by simp; omega)
      rcases hend with ⟨b, e, k2, -, hfail, -⟩ | ⟨hsilent, -⟩
      · rw [hok] at hfail
        cases hfail
      · rw [hok] at hsilent
        cases hsilent

/-- An element loop that the sink refuses a byte stops at the element whose byte it is, or that makes it complete (R149). -/
theorem writeBytesLoop_fail {done : Nat} {b : Byte} {e : TErr} {k' : Sink} (hw : WriterInv s.wr) (hroom : s.wr.stop ≤ 56)
    (hdone : done = es.length - s.wr.avail / 8) (hlt : done < count)
    (hb : bytesBits (es ++ [b]) = (s.wr.bits ++ bytesBits (s.src.slice 0 (done + 1))).take (8 * es.length + 8))
    (ha : s.sink.Accepts es k) (hf : k.next = some (.fail e, k')) :
    ∃ w new, writeBytesLoop count 0 s = .done (done, some (.transportFailure e))
        { s with wr := w, sink := k', calls := s.calls ++ new ++ [.snkWrite b (.fail e)] } ∧ WriterInv w ∧ 8 ≤ w.stop ∧
      s.wr.bits ++ bytesBits (s.src.slice 0 (done + 1)) = bytesBits es ++ w.bits ∧
      WriteTrace new es 0 (s.src.slice 0 (done + 1)) := by
  have hb' : bytesBits (es ++ [b]) = (s.wr.bits ++ bytesBits (s.src.slice 0 count)).take (8 * es.length + 8) := by
    obtain ⟨d, rfl⟩ := Nat.exists_eq_add_of_le hlt
    rw [hb, Memory.slice_add _ (done + 1) d, bytesBits_append, ← List.append_assoc]
    refine (List.take_append_of_le_length ?_).symm
    simp only [List.length_append, Acc.length_bits, length_bytesBits, Memory.length_slice]
    omega
  rcases writeBytesLoop_cases count 0 s hw with ⟨-, hfull, -⟩ | ⟨-, cs, k1, w, m, new, hacc, hinv, hstream, hend⟩
  · omega
  have hlen := congrArg List.length hstream
  simp only [List.length_append, Acc.length_bits, length_bytesBits, Memory.length_slice] at hlen
  rcases hend with ⟨⟨rfl, hshort⟩, -⟩ | ⟨hpos, hm, h8, hcount, hend⟩
  · have hle := refused_length hstream hacc hb' ha hf
    omega
  have hall := stream_of_elements hm hstream
  rcases hend with ⟨b', e', k3, hbyte, hfail, htrace, hrun⟩ | ⟨hsilent, -⟩
  · have hbyte' : byteBits b' = (w.bits ++ bytesBits (s.src.slice (0 + m) (count - m))).take 8 := by
      rw [hbyte, List.take_append_of_le_length (by rwa [Acc.length_bits])]
    obtain ⟨rfl, rfl, rfl, rfl⟩ := refused_same hall hacc hbyte' hfail hb' ha hf
    obtain rfl : m = done + 1 := by omega
    rw [Nat.zero_add, Nat.add_sub_cancel] at hrun
    exact ⟨w, new, hrun, hinv, hinv.avail_eq ▸ h8, hstream, htrace⟩
  · have hL : 8 * es.length ≤ (s.wr.bits ++ bytesBits (s.src.slice 0 count)).length := by
      simp only [List.length_append, Acc.length_bits, length_bytesBits, Memory.length_slice]
      omega
    obtain ⟨-, rfl⟩ := stopped_same hall hacc (bytesBits_front hb').1 ha hL (by simp [hsilent]) (by simp [hf])
    rw [hf] at hsilent
    cases hsilent

end

/-- Settles O34: the loop writes every element, and reports their number. -/
theorem byteWritesEmitTheElements : Obligations.ByteWritesEmitTheElements := by
  unfold Obligations.ByteWritesEmitTheElements
  intro count s es k hw hroom hl hb ha
  rw [← Memory.slice_zero_eq] at hb ⊢
  obtain ⟨w, new, hrun, hinv, h7, hstream, htrace⟩ := writeBytesLoop_ok hw hroom hl hb ha
  refine ⟨w, new, ?_, eq_drop_of_emitted hstream, hinv, h7, Sink.accepts_out ha, htrace.loads.trans (loads_zero _)⟩
  show completeWrite (writeBytesLoop count 0 s) = _
  rw [hrun]
  rfl

/-- Settles O35: the loop stops at element `done`, which is loaded and staged. -/
theorem byteWritesStopAtTheSink : Obligations.ByteWritesStopAtTheSink := by
  unfold Obligations.ByteWritesStopAtTheSink
  intro count done s es b e k k' hw hroom hdone hlt hb ha hf
  rw [← Memory.slice_zero_eq] at hb ⊢
  obtain ⟨w, new, hrun, hinv, h8, hstream, htrace⟩ := writeBytesLoop_fail hw hroom hdone hlt hb ha hf
  refine ⟨w, new ++ [.snkWrite b (.fail e)], ?_, eq_drop_of_emitted hstream, hinv, h8,
    (Sink.next_out hf).trans (Sink.accepts_out ha), ?_⟩
  · show completeWrite (writeBytesLoop count 0 s) = _
    rw [hrun, List.append_assoc]
    rfl
  · rw [List.filterMap_append, htrace.loads, loads_zero]
    simp [Access.loaded]

/-! #### FLUSH (R150) -/

section
variable {s : State} {es : List Byte} {k : Sink}

/-- A flush whose bytes the sink accepts leaves the writer Empty (R150). -/
theorem flush_ok (hw : WriterInv s.wr) (hl : es.length = ceilDiv8 s.wr.avail)
    (hb : bytesBits es = s.wr.bits ++ List.replicate (8 * es.length - s.wr.avail) false) (ha : s.sink.Accepts es k) :
    drain (s.setWr s.wr.pad) = .done () (s.drained Acc.empty es k) := by
  rw [hl] at hb
  have hfront : bytesBits es = (s.wr.bits ++ List.replicate (8 * ceilDiv8 s.wr.avail - s.wr.avail) false).take (8 * es.length) := by
    rw [← hb, List.take_of_length_le (length_bytesBits es).le]
  obtain ⟨cs, k1, w, hacc, hinv, hstream, hend⟩ := flush_cases s hw
  have hlen := congrArg List.length (hb.trans hstream)
  simp only [List.length_append, Acc.length_bits, length_bytesBits] at hlen
  rcases hend with ⟨rfl, hrun⟩ | ⟨h8, hend⟩
  · have hempty : Acc.empty.avail = 0 := rfl
    obtain ⟨rfl, rfl⟩ := accepted_same hstream hacc hfront ha (by omega)
    exact hrun
  · obtain ⟨k3, hok⟩ := accepted_next hstream hacc hfront ha (by omega) (by rw [← hb, length_bytesBits])
    rcases hend with ⟨b, e, k2, -, hfail, -⟩ | ⟨hsilent, -⟩
    · rw [hok] at hfail
      cases hfail
    · rw [hok] at hsilent
      cases hsilent

/-- A flush that the sink refuses a byte keeps that byte and all after it (R150). -/
theorem flush_fail {b : Byte} {e : TErr} {k' : Sink} (hw : WriterInv s.wr) (hl : es.length < ceilDiv8 s.wr.avail)
    (hb : bytesBits (es ++ [b]) =
      (s.wr.bits ++ List.replicate (8 * ceilDiv8 s.wr.avail - s.wr.avail) false).take (8 * es.length + 8))
    (ha : s.sink.Accepts es k) (hf : k.next = some (.fail e, k')) :
    ∃ w, drain (s.setWr s.wr.pad) = .raised (.transportFailure e) ((s.drained w es k).refusedByte b e k') ∧ WriterInv w ∧
      8 ≤ w.avail ∧
      s.wr.bits ++ List.replicate (8 * ceilDiv8 s.wr.avail - s.wr.avail) false = bytesBits es ++ w.bits := by
  have hle : s.wr.avail ≤ 8 * ceilDiv8 s.wr.avail := by simp only [ceilDiv8]; omega
  obtain ⟨cs, k1, w, hacc, hinv, hstream, hend⟩ := flush_cases s hw
  have hlen := congrArg List.length hstream
  simp only [List.length_append, Acc.length_bits, List.length_replicate, length_bytesBits] at hlen
  rcases hend with ⟨rfl, -⟩ | ⟨h8, ⟨b', e', k3, hbyte, hfail, hrun⟩ | ⟨hsilent, -⟩⟩
  · have hcs := refused_length hstream hacc hb ha hf
    have hempty : Acc.empty.avail = 0 := rfl
    omega
  · obtain ⟨rfl, rfl, rfl, rfl⟩ := refused_same hstream hacc hbyte hfail hb ha hf
    exact ⟨w, hrun, hinv, h8, hstream⟩
  · have hL : 8 * es.length ≤ (s.wr.bits ++ List.replicate (8 * ceilDiv8 s.wr.avail - s.wr.avail) false).length := by
      simp only [List.length_append, Acc.length_bits, List.length_replicate]
      omega
    obtain ⟨-, rfl⟩ := stopped_same hstream hacc (bytesBits_front hb).1 ha hL (by simp [hsilent]) (by simp [hf])
    rw [hf] at hsilent
    cases hsilent

end

/-- Settles O36: the padded bits are whole bytes, and all of them go out. -/
theorem flushPadsAndEmpties : Obligations.FlushPadsAndEmpties := by
  unfold Obligations.FlushPadsAndEmpties
  intro s es k hw hl hb ha
  refine ⟨?run, Sink.accepts_out ha, fun h0 => ?nothing⟩
  case run =>
    show complete ((drain (s.setWr s.wr.pad)).bind fun _ t => .done 0#64 t) = _
    rw [flush_ok hw hl hb ha]
    rfl
  case nothing =>
    rw [hw.avail_eq, h0] at hl
    obtain rfl := List.length_eq_zero_iff.1 hl
    exact ⟨rfl, ha⟩

/-- Settles O37: what DRAIN has not emitted of the padded bits is whole bytes too. -/
theorem failedFlushKeepsPaddedBytes : Obligations.FailedFlushKeepsPaddedBytes := by
  unfold Obligations.FailedFlushKeepsPaddedBytes
  intro s es b e k k' hw hl hb ha hf
  obtain ⟨w, hrun, hinv, h8, hstream⟩ := flush_fail hw hl hb ha hf
  refine ⟨w, ?_, eq_drop_of_emitted hstream, hinv, hinv.avail_eq ▸ eight_dvd_avail_of_emitted hstream, hinv.avail_eq ▸ h8⟩
  show complete ((drain (s.setWr s.wr.pad)).bind fun _ t => .done 0#64 t) = _
  rw [hrun]
  rfl

/-! ### The order of a byte write's accesses (R55, R148) -/

/-- The first byte of a stream's front is its first eight bits, and the other bytes are the front of the rest. -/
theorem first_byte_of_front {A R : List Bool} {b : Byte} {es : List Byte} {m : Nat} (hA : 8 ≤ A.length)
    (h : bytesBits (b :: es) = (A ++ R).take (8 * (m + 1))) :
    bytesBits [b] = A.take 8 ∧ bytesBits es = (A.drop 8 ++ R).take (8 * m) := by
  rw [bytesBits_cons, Nat.mul_add, Nat.add_comm, List.take_add, List.take_append_of_le_length hA,
    List.drop_append_of_le_length hA] at h
  rw [bytesBits_singleton]
  exact List.append_inj h (by rw [length_byteBits, List.length_take_of_le hA])

/-- With at most seven bits staged each element completes one byte, which is emitted before the next element is read. -/
theorem writeBytesLoop_order {todo done : Nat} {s : State} {es : List Byte} {k : Sink} (hw : WriterInv s.wr) (h7 : s.wr.avail ≤ 7)
    (hl : es.length = todo) (hb : bytesBits es = (s.wr.bits ++ bytesBits (s.src.slice done todo)).take (8 * todo))
    (ha : s.sink.Accepts es k) :
    ∃ u, writeBytesLoop todo done s = .done (done + todo, none) u ∧
      u.calls = s.calls ++ loadWriteOrder done (s.src.slice done todo) es := by
  induction todo generalizing done s es with
  | zero =>
    obtain rfl := List.length_eq_zero_iff.1 hl
    exact ⟨s, rfl, (List.append_nil _).symm⟩
  | succ todo ih =>
    obtain ⟨b, es, rfl⟩ := List.exists_cons_of_length_eq_add_one hl
    obtain ⟨k1, hnext, ha⟩ := ha
    have hroom : s.wr.stop + 8 ≤ 64 := by rw [← hw.avail_eq]; omega
    have hlt : (s.src.read done).toNat < 2 ^ 8 := (s.src.read done).isLt
    have hone : [b].length = (s.wr.avail + 8) / 8 := by rw [List.length_singleton]; omega
    rw [Memory.slice, bytesBits_cons (s.src.read done), ← List.append_assoc, byteBits_eq_fieldBits (s.src.read done)] at hb
    obtain ⟨hfirst, hrest⟩ := first_byte_of_front (by rw [List.length_append, length_fieldBits]; omega) hb
    obtain ⟨w, hrun, hinv, hw7, hstream⟩ := writeField_ok (s := (loadSrc done s).2) (by decide) (by decide) hlt hw hroom hone hfirst
      ⟨k1, hnext, rfl⟩
    have hbits : w.bits = (s.wr.bits ++ fieldBits (s.src.read done).toNat 8).drop 8 := eq_drop_of_emitted hstream
    rw [← hbits] at hrest
    obtain ⟨u, hloop, hcalls⟩ := ih (done := done + 1) (s := (loadSrc done s).2.drained w [b] (k1.took b .ok)) hinv
      (hinv.avail_eq ▸ hw7) (Nat.succ.inj hl) hrest ha
    refine ⟨u, ?_, ?_⟩
    · rw [writeBytesLoop, if_neg (by simp [writeCapacityOk, hroom]), show (loadSrc done s).1 = s.src.read done from rfl, hrun,
        show done + (todo + 1) = done + 1 + todo by omega]
      exact hloop
    · rw [hcalls, Memory.slice, loadWriteOrder]
      simp [loadSrc_eq, State.drained]

/-- Settles O25: both loops, from fewer than eight bits, need exactly one transport call for each element. -/
theorem elementsMoveOneAtATime : Obligations.ElementsMoveOneAtATime := by
  unfold Obligations.ElementsMoveOneAtATime
  refine ⟨?read, ?write⟩
  case read =>
    rintro i count s bs q hi ⟨ho, hc, hn, -⟩ h7 hl hd
    obtain ⟨xs, u, hxs, hrun, hcalls⟩ := readBytesLoop_order ho hc hn h7 hl hd
    exact ⟨_, xs, exec_byteRead_of_done hi hrun, hxs, hcalls⟩
  case write =>
    intro count s es k hw h7 hl hb ha
    rw [← Memory.slice_zero_eq] at hb ⊢
    obtain ⟨u, hrun, hcalls⟩ := writeBytesLoop_order hw h7 hl hb ha
    refine ⟨u.respond (.ofProgress (0 + count, none) []), ?_, hcalls⟩
    show completeWrite (writeBytesLoop count 0 s) = _
    rw [hrun]
    rfl

end Sys2Proof.Machine

/-! ### What a reader command that is answered has done (R28, R47, R164, R207) -/

namespace Sys2Proof.Machine

/-- What every reader command that is answered has done, from `s` to `t`: its accesses `new`, its response `r`, and the bits it took
out of the stream. -/
structure ReaderStep (s t : State) (new : List Access) (r : Response) (taken : List Bool) : Prop where
  calls     : t.calls = s.calls ++ new
  responses : t.responses = s.responses ++ [r]
  stream    : s.rd.bits ++ bytesBits (new.filterMap Access.pulled) = taken ++ t.rd.bits
  inv       : ReaderInv t.rd
  source    : t.source.rest = s.source.rest
  dest      : s.dest.wf = true → t.dest.wf = true
  short     : r.status = .ok → new.filterMap Access.pulled = [] ∨ t.rd.avail ≤ 7
  rejected  : r.status = .invalidArgument → t.rd = s.rd

/-- What a read of a field of `n` bits has done besides. -/
structure FieldRead (n : Nat) (s t : State) (new : List Access) (r : Response) (taken : List Bool) : Prop
    extends ReaderStep s t new r taken where
  bytes      : r.bytes = []
  ok         : r.status = .ok → taken.length = n ∧ r.data = BitVec.ofNat 64 (bitsValue taken)
  notOk      : r.status ≠ .ok → taken = []
  stopped    : r.status = .endOfStream ∨ r.status = .transportFailure →
    t.rd.avail < n ∧ t.rd.start = s.rd.start ∧ t.rd.stop = s.rd.stop + 8 * (new.filterMap Access.pulled).length
  cause      : r.status = .invalidArgument → ¬ (0 < n ∧ n < 64 ∧ s.rd.stop + 8 * refillBytes s.rd n ≤ 64)
  transports : (new.filter Access.isTransport).length ≤ 8

/-- What a byte read of `count` elements has done besides. -/
structure ByteRead (i : Instr) (count : Nat) (s t : State) (new : List Access) (r : Response) (taken : List Bool) : Prop
    extends ReaderStep s t new r taken where
  length     : taken.length = 8 * r.bytes.length
  taken      : s.dest.wf = true → taken = bytesBits r.bytes
  data       : r.data = BitVec.ofNat 64 r.bytes.length
  legal      : r.status ≠ .invalidArgument
  adapter    : i = .srcRead count → r.status ≠ .endOfStream
  transports : (new.filter Access.isTransport).length ≤ count

/-! #### A field read -/

/-- Bytes received by a refill leave a Normal accumulator Normal (R28 b, e). -/
theorem Acc.normal_insertBytes {a : Acc} (hn : a.Normal) (bs : List Byte) : (a.insertBytes bs).Normal := by
  rcases hn with rfl | ⟨h7, hlt⟩
  · cases bs with
    | nil => exact .inl rfl
    | cons b bs => exact .inr (by simp)
  · exact .inr (by simp only [Acc.insertBytes_start, Acc.insertBytes_stop]; omega)

theorem Acc.avail_insertBytes {a : Acc} (ho : a.Ordered) (bs : List Byte) : (a.insertBytes bs).avail = a.avail + 8 * bs.length := by
  have := ho.1
  simp only [Acc.avail, Acc.insertBytes_start, Acc.insertBytes_stop]
  omega

/-- A field read leaves the reader's invariant, and at most seven bits if it pulled a byte (R28 c). -/
theorem Acc.consumed_inv {a : Acc} {bs : List Byte} {n : Nat} (h : ReaderInv a) (hl : bs.length = refillBytes a n)
    (hroom : a.stop + 8 * refillBytes a n ≤ 64) : ReaderInv (a.consumed bs n) ∧ (bs = [] ∨ (a.consumed bs n).avail ≤ 7) := by
  obtain ⟨ho, hc, hn, h62⟩ := h
  rw [← hl] at hroom
  rw [refillBytes_eq ho.1] at hl
  obtain ⟨ho', hc', hn', hbits, -⟩ := Acc.consumed_spec ho hc hroom (le_avail_add_of_length hl)
  have hlen := congrArg List.length hbits
  rw [Acc.length_bits, List.length_drop, List.length_append, Acc.length_bits, length_bytesBits] at hlen
  have hshort : bs = [] ∨ (a.consumed bs n).avail ≤ 7 := by
    rw [← List.length_eq_zero_iff]
    simp only [ceilDiv8] at hl
    omega
  refine ⟨⟨ho', hc', hn', ?_⟩, hshort⟩
  rcases hshort with rfl | h7
  · rw [List.length_nil] at hlen
    omega
  · omega

/-- The bytes pulled by calls of which the last one ended the refill. -/
theorem pulled_received_stop {x : SrcAnswer} {e : Raise} (hx : x.raises = some e) (bs : List Byte) :
    ((bs.map fun b => Access.srcRead (.byte b)) ++ [Access.srcRead x]).filterMap Access.pulled = bs := by
  rw [List.filterMap_append, pulled_received, List.filterMap_cons_none (pulled_stop hx), List.filterMap_nil, List.append_nil]

theorem SrcAnswer.status_of_raises {x : SrcAnswer} {e : Raise} (hx : x.raises = some e) :
    e.status = .endOfStream ∨ e.status = .transportFailure := by
  cases x <;> cases hx
  · exact .inl rfl
  · exact .inr rfl

/-- The source that has answered a refill answers for ever exactly if it did before. -/
theorem Source.rest_of_stop {q q1 q' : Source} {bs : List Byte} {x : SrcAnswer} (hd : q.Delivers bs q1)
    (hn : q1.next = some (x, q')) : q'.rest = q.rest :=
  (Source.next_rest hn).trans (Source.delivers_rest hd)

section
variable {n : Nat} {s : State} {bs : List Byte} {q : Source}

theorem FieldRead.of_rejected (hinv : ReaderInv s.rd) (hlegal : ¬ (0 < n ∧ n < 64 ∧ s.rd.stop + 8 * refillBytes s.rd n ≤ 64)) :
    FieldRead n s s.rejected [] (.error .invalidArgument 0#64 []) [] where
  calls := (List.append_nil _).symm
  responses := rfl
  stream := List.append_nil _
  inv := hinv
  source := rfl
  dest := id
  short := nofun
  rejected _ := rfl
  bytes := rfl
  ok := nofun
  notOk _ := rfl
  stopped := by rintro (h | h) <;> cases h
  cause _ := hlegal
  transports := Nat.zero_le _

theorem FieldRead.of_complete (hinv : ReaderInv s.rd) (hroom : s.rd.stop + 8 * refillBytes s.rd n ≤ 64)
    (hd : s.source.Delivers bs q) (hl : bs.length = refillBytes s.rd n) :
    FieldRead n s
      (((s.pulled bs q).setRd (s.rd.consumed bs n)).respond
        (.okay (BitVec.ofNat 64 (bitsValue ((s.rd.bits ++ bytesBits bs).take n))) []))
      (bs.map fun b => .srcRead (.byte b)) (.okay (BitVec.ofNat 64 (bitsValue ((s.rd.bits ++ bytesBits bs).take n))) [])
      ((s.rd.bits ++ bytesBits bs).take n) := by
  obtain ⟨hinv', hshort⟩ := Acc.consumed_inv hinv hl hroom
  have hneed : n ≤ s.rd.avail + 8 * bs.length := le_avail_add_of_length (refillBytes_eq hinv.1.1 n ▸ hl)
  rw [← hl] at hroom
  obtain ⟨-, -, -, hbits, -⟩ := Acc.consumed_spec hinv.1 hinv.2.1 hroom hneed
  exact {
    calls := rfl
    responses := rfl
    stream := by
      rw [pulled_received]
      exact ((List.take_append_drop n _).symm.trans (congrArg _ hbits.symm))
    inv := hinv'
    source := Source.delivers_rest hd
    dest := id
    short := fun _ => by rwa [pulled_received]
    rejected := nofun
    bytes := rfl
    ok := fun _ => ⟨List.length_take_of_le (by rwa [List.length_append, Acc.length_bits, length_bytesBits]), rfl⟩
    notOk := fun h => absurd rfl h
    stopped := by rintro (h | h) <;> cases h
    cause := nofun
    transports := (List.length_filter_le _ _).trans (by rw [List.length_map]; omega) }

theorem FieldRead.of_stopped {x : SrcAnswer} {e : Raise} {q' : Source} (hinv : ReaderInv s.rd) (h1 : n < 64)
    (hroom : s.rd.stop + 8 * refillBytes s.rd n ≤ 64) (hd : s.source.Delivers bs q) (hl : bs.length < refillBytes s.rd n)
    (hnext : q.next = some (x, q')) (hx : x.raises = some e) :
    FieldRead n s (((s.pulled bs q).stopped x q').respond (.error e 0#64 []))
      ((bs.map fun b => .srcRead (.byte b)) ++ [.srcRead x]) (.error e 0#64 []) [] := by
  obtain ⟨ho, hc, hn, -⟩ := hinv
  obtain ⟨ho', hc', hbits⟩ := Acc.insertBytes_spec (bs := bs) ho hc (by omega)
  have havail := Acc.avail_insertBytes ho bs
  have hlt : s.rd.avail + 8 * bs.length < n := by
    rw [refillBytes_eq ho.1] at hl
    simp only [ceilDiv8] at hl
    omega
  have hstatus : e.status ≠ .ok ∧ e.status ≠ .invalidArgument := by
    rcases SrcAnswer.status_of_raises hx with h | h <;> rw [h] <;> decide
  exact {
    calls := List.append_assoc _ _ _
    responses := rfl
    stream := by
      rw [pulled_received_stop hx]
      exact hbits.symm
    inv := ⟨ho', hc', Acc.normal_insertBytes hn bs, by show (s.rd.insertBytes bs).avail ≤ 62; omega⟩
    source := Source.rest_of_stop hd hnext
    dest := id
    short := fun h => absurd h hstatus.1
    rejected := fun h => absurd h hstatus.2
    bytes := rfl
    ok := fun h => absurd h hstatus.1
    notOk := fun _ => rfl
    stopped := fun _ => by
      rw [pulled_received_stop hx]
      exact ⟨by show (s.rd.insertBytes bs).avail < n; omega, Acc.insertBytes_start _ _, Acc.insertBytes_stop _ _⟩
    cause := fun h => absurd h hstatus.2
    transports := (List.length_filter_le _ _).trans (by
      rw [List.length_append, List.length_map, List.length_singleton]
      omega) }

/-- A single-field read that is answered is rejected, complete, or stopped by the source. -/
theorem fieldRead_step {i : Instr} {t : State} (hi : fieldReadWidth i = some n) (hinv : ReaderInv s.rd) (h : exec i s = .next t) :
    ∃ new r taken, FieldRead n s t new r taken := by
  rw [exec_fieldRead hi s hinv.1 hinv.2.1] at h
  rcases readField_cases n s hinv.1 hinv.2.1 with
      ⟨hlegal, hrun⟩ | ⟨⟨-, h1, hroom⟩, bs, q, hd, ⟨hl, hrun⟩ | ⟨hl, ⟨x, e, q', hnext, hx, hrun⟩ | ⟨-, hrun⟩⟩⟩ <;>
    rw [hrun] at h <;> cases h
  · exact ⟨_, _, _, .of_rejected hinv hlegal⟩
  · exact ⟨_, _, _, .of_complete hinv hroom hd hl⟩
  · exact ⟨_, _, _, .of_stopped hinv h1 hroom hd hl hnext hx⟩

end

/-! #### A byte read -/

/-- Without sink calls the transport calls are the source calls. -/
theorem length_filter_isTransport {new : List Access} (h : ∀ c ∈ new, ∀ b a, c ≠ .snkWrite b a) :
    (new.filter Access.isTransport).length = (new.filterMap Access.srcAnswer).length := by
  induction new with
  | nil => rfl
  | cons c new ih =>
    have hrest := ih fun c' hc' => h c' (List.mem_cons_of_mem c hc')
    cases c with
    | srcRead a => exact congrArg Nat.succ hrest
    | snkWrite b a => exact absurd rfl (h _ List.mem_cons_self b a)
    | destStore i b => exact hrest
    | srcLoad i b => exact hrest

theorem ReadTrace.transports {new : List Access} {bs xs : List Byte} {i : Nat} (h : ReadTrace new bs i xs) :
    (new.filter Access.isTransport).length = bs.length := by
  rw [length_filter_isTransport fun c hc => (h.only c hc).2.2, h.answers, List.length_map]

theorem Response.data_ofProgress (p : Progress) (bytes : List Byte) :
    (Response.ofProgress p bytes).data = BitVec.ofNat 64 p.1 := by
  obtain ⟨done, _ | e⟩ := p <;> rfl

/-- What the response to a stopped byte read can say: no rejection, and from the adapter no `EndOfStream` (R131, R164). -/
theorem status_of_stopped_byteRead {i : Instr} {count : Nat} (hi : byteReadCount i = some count) {x : SrcAnswer} {e : Raise}
    (hx : x.raises = some e) (done : Nat) (bytes : List Byte) :
    (Response.ofProgress (reportedProgress i (done, some e)) bytes).status ≠ .invalidArgument ∧
      (i = .srcRead count → (Response.ofProgress (reportedProgress i (done, some e)) bytes).status ≠ .endOfStream) := by
  rcases byteReadCount_eq_some_iff.1 hi with rfl | rfl
  · refine ⟨fun h => ?_, nofun⟩
    change e.status = _ at h
    rcases SrcAnswer.status_of_raises hx with h' | h' <;> rw [h'] at h <;> cases h
  · rw [reportedProgress, ofProgress_adapterStatus hx]
    cases x <;> cases hx
    · exact ⟨nofun, fun _ => nofun⟩
    · exact ⟨nofun, fun _ => nofun⟩

/-- The end of a byte loop that has stored `xs`, reported as `p`. -/
theorem ByteRead.of_loop {i : Instr} {count : Nat} {s : State} {bs xs : List Byte} {a : Acc} {q : Source} {new : List Access}
    {p : Progress} (hp : p.1 = xs.length) (hinv : ReaderInv a) (hstream : s.rd.bits ++ bytesBits bs = bytesBits xs ++ a.bits)
    (hshort : bs = [] ∨ a.avail ≤ 7) (hpulled : new.filterMap Access.pulled = bs) (hrest : q.rest = s.source.rest)
    (hlegal : (Response.ofProgress p ((s.dest.storeAll 0 xs).prefixBytes xs.length)).status ≠ .invalidArgument)
    (hadapter : i = .srcRead count →
      (Response.ofProgress p ((s.dest.storeAll 0 xs).prefixBytes xs.length)).status ≠ .endOfStream)
    (htransports : (new.filter Access.isTransport).length ≤ count) :
    ByteRead i count s
      (State.respond { s with rd := a, source := q, dest := s.dest.storeAll 0 xs, calls := s.calls ++ new }
        (.ofProgress p ((s.dest.storeAll 0 xs).prefixBytes xs.length)))
      new (.ofProgress p ((s.dest.storeAll 0 xs).prefixBytes xs.length)) (bytesBits xs) where
  calls := rfl
  responses := rfl
  stream := hpulled ▸ hstream
  inv := hinv
  source := hrest
  dest h := Memory.wf_storeAll h 0 xs
  short _ := hpulled ▸ hshort
  rejected h := absurd h hlegal
  length := by rw [Response.bytes_ofProgress, Memory.length_prefixBytes, length_bytesBits]
  taken h := by rw [Response.bytes_ofProgress, Memory.prefixBytes_storeAll h]
  data := by rw [Response.data_ofProgress, Response.bytes_ofProgress, Memory.length_prefixBytes, hp]
  legal := hlegal
  adapter := hadapter
  transports := htransports

/-- A byte read that is answered is complete, or stopped by the source. -/
theorem byteRead_step {i : Instr} {count : Nat} {s t : State} (hi : byteReadCount i = some count) (hinv : ReaderInv s.rd)
    (h : exec i s = .next t) : ∃ new r taken, ByteRead i count s t new r taken := by
  obtain ⟨bs, q, xs, a, new, hd, ho, hc, hn, -, -, hstream, hshort, htrace, hend⟩ :=
    readBytesLoop_cases count 0 s hinv.1 hinv.2.1 hinv.2.2.1
  have hinv' := readerInv_after_loop hinv ho hc hn hstream hshort
  have hpulled := pulled_of_answers htrace.answers
  have hbs : bs.length ≤ xs.length := by
    have hlen := congrArg List.length hstream
    simp only [List.length_append, Acc.length_bits, length_bytesBits] at hlen
    rcases hshort with rfl | h7
    · exact Nat.zero_le _
    · omega
  simp only [Nat.zero_add] at hend
  rcases hend with ⟨rfl, hrun⟩ | ⟨hlt, h7, ⟨x, e, q', hnext, hx, hrun⟩ | ⟨-, hrun⟩⟩
  · rw [exec_byteRead_of_done hi hrun, reportedProgress_none hi] at h
    cases h
    exact ⟨_, _, _, .of_loop rfl hinv' hstream hshort hpulled (Source.delivers_rest hd) nofun (fun _ => nofun)
      (htrace.transports.trans_le hbs)⟩
  · rw [exec_byteRead_of_done hi hrun, List.append_assoc] at h
    cases h
    obtain ⟨hlegal, hadapter⟩ := status_of_stopped_byteRead hi hx xs.length ((s.dest.storeAll 0 xs).prefixBytes xs.length)
    refine ⟨_, _, _, .of_loop (reportedProgress_fst hi _) hinv' hstream hshort ?_ (Source.rest_of_stop hd hnext) hlegal hadapter ?_⟩
    · rw [List.filterMap_append, hpulled, List.filterMap_cons_none (pulled_stop hx), List.filterMap_nil, List.append_nil]
    · rw [List.filter_append, List.length_append, htrace.transports]
      exact (Nat.add_le_add hbs (List.length_filter_le _ _)).trans hlt
  · rw [exec_byteRead_of_hung hi hrun] at h
    cases h

/-! #### Every reader command -/

theorem byteReadCount_of_cases {i : Instr} {count : Nat} (hi : i = .readBytes count ∨ i = .srcRead count) :
    byteReadCount i = some count ∧ fieldReadWidth i = none := by
  rcases hi with rfl | rfl <;> exact ⟨rfl, rfl⟩

/-- A reader command that is answered is a field read or a byte read that is answered. -/
theorem reader_step {i : Instr} {s t : State} (hi : readerCommand i = true) (hinv : ReaderInv s.rd) (h : exec i s = .next t) :
    (∃ n, fieldReadWidth i = some n ∧ byteReadCount i = none ∧ ∃ new r taken, FieldRead n s t new r taken) ∨
      ∃ count, fieldReadWidth i = none ∧ byteReadCount i = some count ∧ ∃ new r taken, ByteRead i count s t new r taken := by
  rcases readerCommand_cases hi with ⟨n, hn, hnone⟩ | ⟨count, hcount⟩
  · exact .inl ⟨n, hn, hnone, fieldRead_step hn hinv h⟩
  · obtain ⟨hcount, hnone⟩ := byteReadCount_of_cases hcount
    exact .inr ⟨count, hnone, hcount, byteRead_step hcount hinv h⟩

/-- Settles O26: a field read took its field if it was answered `OK`, a byte read took what it stored. -/
theorem readerStreamLaw : Obligations.ReaderStreamLaw := by
  unfold Obligations.ReaderStreamLaw
  intro i s t hi hinv hwf h
  rcases reader_step hi hinv h with ⟨n, hn, hnone, new, r, taken, hr⟩ | ⟨count, hnone, hcount, new, r, taken, hr⟩
  · refine ⟨new, r, taken, hr.calls, hr.responses, hr.stream, fun m hm => ?_, fun c hc => ?_⟩
    · cases hn.symm.trans hm
      exact ⟨hr.ok, hr.notOk⟩
    · cases hnone.symm.trans hc
  · refine ⟨new, r, taken, hr.calls, hr.responses, hr.stream, fun m hm => ?_, fun c _ => ⟨hr.taken hwf, hr.data⟩⟩
    cases hnone.symm.trans hm

/-! ### The reader between commands (R28) -/

section
variable {a : Acc}

theorem ReaderInv.start_le (h : ReaderInv a) : a.start ≤ 7 := by
  obtain ⟨-, -, rfl | hn, -⟩ := h
  · decide
  · exact hn.1

theorem ReaderInv.stop_le (h : ReaderInv a) (h7 : a.avail ≤ 7) : a.stop ≤ 14 := by
  have hstart := h.start_le
  rw [Acc.avail] at h7
  omega

/-- A reader with nothing pending is Empty with a zero register (R28 b). -/
theorem ReaderInv.eq_empty (h : ReaderInv a) (heq : a.start = a.stop) : a = Acc.empty :=
  Acc.eq_empty_of_avail h.2.2.1 (by rw [Acc.avail]; omega)

end

/-- Pulling nothing leaves no more pending than before. -/
theorem ReaderStep.avail_le {s t : State} {new : List Access} {r : Response} {taken : List Bool} (h : ReaderStep s t new r taken)
    (hnone : new.filterMap Access.pulled = []) : t.rd.avail ≤ s.rd.avail := by
  have hlen := congrArg List.length h.stream
  simp only [hnone, bytesBits_nil, List.append_nil, List.length_append, Acc.length_bits] at hlen
  omega

/-- R28 c: an `OK` leaves at most seven bits, or has pulled nothing and left no more than before. -/
theorem ReaderStep.short_or_less {s t : State} {new : List Access} {r : Response} {taken : List Bool}
    (h : ReaderStep s t new r taken) (hok : r.status = .ok) :
    t.rd.avail ≤ 7 ∨ (new.filterMap Access.pulled = [] ∧ t.rd.avail ≤ s.rd.avail) :=
  (h.short hok).symm.imp_right fun hnone => ⟨hnone, h.avail_le hnone⟩

/-- Settles O28: the invariant says where the pending bits stand, and the stream law how many there are. -/
theorem readerBetweenCommands : Obligations.ReaderBetweenCommands := by
  unfold Obligations.ReaderBetweenCommands
  intro i s t hi hinv h
  obtain ⟨new, r, taken, hstep, hstopped⟩ : ∃ new r taken, ReaderStep s t new r taken ∧
      ∀ n, fieldReadWidth i = some n → (r.status = .endOfStream ∨ r.status = .transportFailure) →
        t.rd.avail < n ∧ t.rd.start = s.rd.start ∧ t.rd.stop = s.rd.stop + 8 * (new.filterMap Access.pulled).length := by
    rcases reader_step hi hinv h with ⟨n, hn, -, new, r, taken, hr⟩ | ⟨count, hnone, -, new, r, taken, hr⟩
    · refine ⟨new, r, taken, hr.toReaderStep, fun m hm => ?_⟩
      cases hn.symm.trans hm
      exact hr.stopped
    · exact ⟨new, r, taken, hr.toReaderStep, fun m hm => nomatch hnone.symm.trans hm⟩
  refine ⟨new, r, hstep.calls, hstep.responses, hstep.inv.start_le, fun heq => ?empty, fun hok h7 => ?seven, hstep.short_or_less,
    hstep.rejected, hstopped, hstep.inv.2.2.2⟩
  case empty =>
    rw [hstep.inv.eq_empty heq]
    exact ⟨rfl, rfl, rfl⟩
  case seven =>
    have h7' : t.rd.avail ≤ 7 := (hstep.short_or_less hok).elim id fun hless => hless.2.trans h7
    exact ⟨h7', hstep.inv.stop_le h7'⟩

/-- A reader command has no step only because the source has fallen silent (R59). -/
theorem reader_fault {i : Instr} {s : State} {f : Fault} (hi : readerCommand i = true) (hinv : ReaderInv s.rd)
    (h : exec i s = .fault f) : f = .sourceSilent ∧ s.source.rest = none := by
  have hsilent : ∀ {bs q}, s.source.Delivers bs q → q.next = none → s.source.rest = none := fun hd hnone =>
    Source.delivers_rest hd ▸ not_not.1 fun hrest => Source.next_isSome hrest hnone
  rcases readerCommand_cases hi with ⟨n, hn, -⟩ | ⟨count, hcount⟩
  · rw [exec_fieldRead hn s hinv.1 hinv.2.1] at h
    rcases readField_cases n s hinv.1 hinv.2.1 with
        ⟨-, hrun⟩ | ⟨-, bs, q, hd, ⟨-, hrun⟩ | ⟨-, ⟨x, e, q', -, -, hrun⟩ | ⟨hnone, hrun⟩⟩⟩ <;>
      rw [hrun] at h <;> cases h
    exact ⟨rfl, hsilent hd hnone⟩
  · obtain ⟨hcount, -⟩ := byteReadCount_of_cases hcount
    obtain ⟨bs, q, xs, a, new, hd, -, -, -, -, -, -, -, -, ⟨-, hrun⟩ | ⟨-, -, ⟨x, e, q', -, -, hrun⟩ | ⟨hnone, hrun⟩⟩⟩ :=
      readBytesLoop_cases count 0 s hinv.1 hinv.2.1 hinv.2.2.1
    · rw [exec_byteRead_of_done hcount hrun] at h
      cases h
    · rw [exec_byteRead_of_done hcount hrun] at h
      cases h
    · rw [exec_byteRead_of_hung hcount hrun] at h
      cases h
      exact ⟨rfl, hsilent hd hnone⟩

end Sys2Proof.Machine

/-! ### What a writer command that is answered has done (R29, R48, R164, R207) -/

namespace Sys2Proof.Machine

/-- What every writer command that is answered has done, from `s` to `t`: its accesses `new`, its response `r`, and the bits it put
into the stream. -/
structure WriterStep (s t : State) (new : List Access) (r : Response) (put : List Bool) : Prop where
  calls     : t.calls = s.calls ++ new
  responses : t.responses = s.responses ++ [r]
  stream    : s.wr.bits ++ put = bytesBits (new.filterMap Access.emitted) ++ t.wr.bits
  out       : t.sink.out = s.sink.out ++ new.filterMap Access.emitted
  inv       : WriterInv t.wr
  sink      : t.sink.rest = s.sink.rest
  bytes     : r.bytes = []
  notEnded  : r.status ≠ .endOfStream
  rejected  : r.status = .invalidArgument → t.wr = s.wr
  failed    : r.status = .transportFailure → 8 ≤ t.wr.avail

/-- What a write of a field of `n` bits with value `v` has done besides. -/
structure FieldWrite (v n : Nat) (s t : State) (new : List Access) (r : Response) (put : List Bool) : Prop
    extends WriterStep s t new r put where
  put        : put = if r.status = .invalidArgument then [] else fieldBits v n
  short      : r.status = .ok → t.wr.avail < 8
  cause      : r.status = .invalidArgument → ¬ (0 < n ∧ n < 64 ∧ v < 2 ^ n ∧ s.wr.stop + n ≤ 64)
  transports : (new.filter Access.isTransport).length ≤ 8

/-- What a byte write of `count` elements has done besides. -/
structure ByteWrite (count : Nat) (s t : State) (new : List Access) (r : Response) (put : List Bool) : Prop
    extends WriterStep s t new r put where
  put        : count < 2 ^ 64 →
    put = bytesBits (s.src.prefixBytes (if r.status = .transportFailure then r.data.toNat + 1 else r.data.toNat))
  short      : r.status = .ok → count = 0 ∨ t.wr.avail < 8
  cause      : r.status = .invalidArgument → 0 < count ∧ 56 < s.wr.stop ∧ r.data = 0#64
  transports : (new.filter Access.isTransport).length ≤ count + 8

/-- What a flush has done besides. -/
structure Flushed (s t : State) (new : List Access) (r : Response) (put : List Bool) : Prop extends WriterStep s t new r put where
  put        : put = List.replicate (8 * ceilDiv8 s.wr.avail - s.wr.avail) false
  empty      : r.status = .ok → t.wr = Acc.empty
  legal      : r.status ≠ .invalidArgument
  transports : (new.filter Access.isTransport).length ≤ 8

theorem WriterStep.of_rejected {s : State} (hw : WriterInv s.wr) :
    WriterStep s s.rejected [] (.error .invalidArgument 0#64 []) [] where
  calls := (List.append_nil _).symm
  responses := rfl
  stream := List.append_nil _
  out := (List.append_nil _).symm
  inv := hw
  sink := rfl
  bytes := rfl
  notEnded := nofun
  rejected _ := rfl
  failed := nofun

section
variable {s : State} {w : Acc} {es : List Byte} {k k' : Sink} {new : List Access} {put : List Bool}

/-- The end of a writer command that has had the bytes `es` accepted. -/
theorem WriterStep.of_accepted {r : Response} (hacc : s.sink.Accepts es k) (hk : k'.out = k.out ∧ k'.rest = k.rest)
    (hemitted : new.filterMap Access.emitted = es) (hinv : WriterInv w) (hstream : s.wr.bits ++ put = bytesBits es ++ w.bits)
    (hr : r.bytes = [] ∧ (r.status = .ok ∨ r.status = .transportFailure ∧ 8 ≤ w.avail)) :
    WriterStep s (State.respond { s with wr := w, sink := k', calls := s.calls ++ new } r) new r put := by
  obtain ⟨hbytes, hstatus⟩ := hr
  exact {
    calls := rfl
    responses := rfl
    stream := hemitted ▸ hstream
    out := by rw [hemitted]; exact hk.1.trans (Sink.accepts_out hacc)
    inv := hinv
    sink := hk.2.trans (Sink.accepts_rest hacc)
    bytes := hbytes
    notEnded := fun h => by rcases hstatus with h' | ⟨h', -⟩ <;> rw [h] at h' <;> cases h'
    rejected := fun h => by rcases hstatus with h' | ⟨h', -⟩ <;> rw [h] at h' <;> cases h'
    failed := fun h => by
      rcases hstatus with h' | ⟨-, h8⟩
      · rw [h] at h'
        cases h'
      · exact h8 }

/-- The bytes emitted by calls of which the last one failed. -/
theorem emitted_refused (es : List Byte) (b : Byte) (e : TErr) :
    ((es.map fun b => Access.snkWrite b .ok) ++ [Access.snkWrite b (.fail e)]).filterMap Access.emitted = es := by
  rw [List.filterMap_append, emitted_accepted]
  exact List.append_nil es

theorem WriterStep.of_drained {d : Word} (hacc : s.sink.Accepts es k) (hinv : WriterInv w)
    (hstream : s.wr.bits ++ put = bytesBits es ++ w.bits) :
    WriterStep s ((s.drained w es k).respond (.okay d [])) (es.map fun b => .snkWrite b .ok) (.okay d []) put :=
  .of_accepted hacc ⟨rfl, rfl⟩ (emitted_accepted es) hinv hstream ⟨rfl, .inl rfl⟩

theorem WriterStep.of_refused {b : Byte} {e : TErr} (hacc : s.sink.Accepts es k) (hfail : k.next = some (.fail e, k'))
    (h8 : 8 ≤ w.avail) (hinv : WriterInv w) (hstream : s.wr.bits ++ put = bytesBits es ++ w.bits) :
    WriterStep s (((s.drained w es k).refusedByte b e k').respond (.error (.transportFailure e) 0#64 []))
      ((es.map fun b => .snkWrite b .ok) ++ [.snkWrite b (.fail e)]) (.error (.transportFailure e) 0#64 []) put := by
  have hstate : (s.drained w es k).refusedByte b e k' =
      { s with wr := w, sink := k', calls := s.calls ++ ((es.map fun b => .snkWrite b .ok) ++ [.snkWrite b (.fail e)]) } := by
    rw [← List.append_assoc]
    rfl
  rw [hstate]
  exact .of_accepted hacc ⟨Sink.next_out hfail, Sink.next_rest hfail⟩ (emitted_refused es b e) hinv hstream
    ⟨rfl, .inr ⟨rfl, h8⟩⟩

/-- The transport calls of accepted bytes, the last call perhaps refused. -/
theorem length_filter_accepted {m : Nat} (h : es.length ≤ m) :
    ((es.map fun b => Access.snkWrite b .ok).filter Access.isTransport).length ≤ m :=
  (List.length_filter_le _ _).trans (by rwa [List.length_map])

theorem length_filter_refused {m : Nat} (h : es.length < m) (b : Byte) (e : TErr) :
    (((es.map fun b => Access.snkWrite b .ok) ++ [Access.snkWrite b (.fail e)]).filter Access.isTransport).length ≤ m :=
  (List.length_filter_le _ _).trans (by rwa [List.length_append, List.length_map])

end

section
variable {i : Instr} {s t : State}

/-- A single-field write that is answered is rejected, complete, or stopped by the sink. -/
theorem fieldWrite_step {v n : Nat} (hi : fieldWriteOperands i = some (v, n)) (hw : WriterInv s.wr) (h : exec i s = .next t) :
    ∃ new r put, FieldWrite v n s t new r put := by
  rw [exec_fieldWrite hi] at h
  rcases writeField_cases v n s hw with ⟨hlegal, hrun⟩ | ⟨⟨-, -, -, hroom⟩, es, k, w, hacc, hinv, hstream, hend⟩
  · rw [hrun] at h
    cases h
    exact ⟨_, _, _, { WriterStep.of_rejected hw with
      put := rfl, short := nofun, cause := fun _ => hlegal, transports := Nat.zero_le _ }⟩
  have hlen := congrArg List.length hstream
  simp only [List.length_append, Acc.length_bits, length_bytesBits, length_fieldBits, hw.avail_eq] at hlen
  rcases hend with ⟨hshort, hrun⟩ | ⟨h8, ⟨b, e, k', -, hfail, hrun⟩ | ⟨-, hrun⟩⟩ <;> rw [hrun] at h <;> cases h
  · exact ⟨_, _, _, { WriterStep.of_drained hacc hinv hstream with
      put := rfl, short := fun _ => hshort, cause := nofun, transports := length_filter_accepted (by omega) }⟩
  · exact ⟨_, _, _, { WriterStep.of_refused hacc hfail h8 hinv hstream with
      put := rfl, short := nofun, cause := nofun, transports := length_filter_refused (by omega) b e }⟩

/-- A flush that is answered is complete, or stopped by the sink. -/
theorem flush_step (hw : WriterInv s.wr) (h : exec .flush s = .next t) : ∃ new r put, Flushed s t new r put := by
  change complete ((drain (s.setWr s.wr.pad)).bind fun _ t => .done 0#64 t) = _ at h
  obtain ⟨es, k, w, hacc, hinv, hstream, hend⟩ := flush_cases s hw
  have hle : 8 * ceilDiv8 s.wr.avail ≤ 64 := by
    have := Acc.avail_le hw.1
    simp only [ceilDiv8]
    omega
  have hlen := congrArg List.length hstream
  simp only [List.length_append, Acc.length_bits, length_bytesBits, List.length_replicate] at hlen
  have havail : s.wr.avail ≤ 8 * ceilDiv8 s.wr.avail := by simp only [ceilDiv8]; omega
  rcases hend with ⟨hempty, hrun⟩ | ⟨h8, ⟨b, e, k', -, hfail, hrun⟩ | ⟨-, hrun⟩⟩ <;> rw [hrun] at h <;> cases h
  · exact ⟨_, _, _, { WriterStep.of_drained hacc hinv hstream with
      put := rfl, empty := fun _ => hempty, legal := nofun, transports := length_filter_accepted (by omega) }⟩
  · exact ⟨_, _, _, { WriterStep.of_refused hacc hfail h8 hinv hstream with
      put := rfl, empty := nofun, legal := nofun, transports := length_filter_refused (by omega) b e }⟩

/-- A byte write that is answered is rejected, complete, or stopped by the sink. -/
theorem byteWrite_step {count : Nat} (hw : WriterInv s.wr) (h : exec (.writeBytes count) s = .next t) :
    ∃ new r put, ByteWrite count s t new r put := by
  change completeWrite (writeBytesLoop count 0 s) = _ at h
  rcases writeBytesLoop_cases count 0 s hw with ⟨hpos, hfull, hrun⟩ | ⟨-, es, k, w, m, new, hacc, hinv, hstream, hend⟩
  · rw [hrun] at h
    cases h
    exact ⟨_, _, _, { WriterStep.of_rejected hw with
      put := fun _ => rfl, short := nofun, cause := fun _ => ⟨hpos, hfull, rfl⟩, transports := Nat.zero_le _ }⟩
  have hes : 8 * es.length + w.avail ≤ 64 + 8 * m := by
    have hlen := congrArg List.length hstream
    simp only [List.length_append, Acc.length_bits, length_bytesBits, Memory.length_slice] at hlen
    have h64 := Acc.avail_le hw.1
    omega
  rw [Memory.slice_zero_eq] at hstream
  simp only [Nat.zero_add] at hend
  rcases hend with ⟨⟨rfl, hshort⟩, htrace, hrun⟩ | ⟨hpos, hm, h8, -, ⟨b, e, k', -, hfail, htrace, hrun⟩ | ⟨-, hrun⟩⟩
  · rw [hrun] at h
    cases h
    have hcalls := congrArg List.length htrace.calls
    rw [List.length_map] at hcalls
    refine ⟨new, _, _, { WriterStep.of_accepted hacc ⟨rfl, rfl⟩ htrace.emitted hinv hstream ⟨rfl, .inl rfl⟩ with
      put := fun hlt => ?_, short := fun _ => hshort, cause := nofun, transports := by omega }⟩
    show _ = bytesBits (s.src.prefixBytes (BitVec.ofNat 64 m).toNat)
    rw [BitVec.toNat_ofNat, Nat.mod_eq_of_lt hlt]
  · rw [hrun, List.append_assoc] at h
    cases h
    have hemitted : (new ++ [Access.snkWrite b (.fail e)]).filterMap Access.emitted = es := by
      rw [List.filterMap_append, htrace.emitted]
      exact List.append_nil es
    have hcalls : ((new ++ [Access.snkWrite b (.fail e)]).filter Access.isTransport).length = es.length + 1 := by
      rw [List.filter_append, htrace.calls, List.length_append, List.length_map]
      rfl
    refine ⟨_, _, _, { WriterStep.of_accepted (r := .error (.transportFailure e) (BitVec.ofNat 64 (m - 1)) []) hacc
        ⟨Sink.next_out hfail, Sink.next_rest hfail⟩ hemitted hinv hstream ⟨rfl, .inr ⟨rfl, h8⟩⟩ with
      put := fun hlt => ?_, short := nofun, cause := nofun, transports := by omega }⟩
    show _ = bytesBits (s.src.prefixBytes ((BitVec.ofNat 64 (m - 1)).toNat + 1))
    rw [BitVec.toNat_ofNat, Nat.mod_eq_of_lt (by omega), Nat.sub_add_cancel hpos]
  · rw [hrun] at h
    cases h

/-- A writer command that is answered is a field write, a byte write or a flush that is answered. -/
theorem writer_step (hi : writerCommand i = true) (hw : WriterInv s.wr) (h : exec i s = .next t) :
    (∃ v n, fieldWriteOperands i = some (v, n) ∧ ∃ new r put, FieldWrite v n s t new r put) ∨
      (∃ count, i = .writeBytes count ∧ ∃ new r put, ByteWrite count s t new r put) ∨
      (i = .flush ∧ ∃ new r put, Flushed s t new r put) := by
  rcases writerCommand_cases hi with ⟨v, n, hf⟩ | ⟨count, rfl⟩ | rfl
  · exact .inl ⟨v, n, hf, fieldWrite_step hf hw h⟩
  · exact .inr (.inl ⟨count, rfl, byteWrite_step hw h⟩)
  · exact .inr (.inr ⟨rfl, flush_step hw h⟩)

/-- A writer command has no step only because the sink has fallen silent (R59). -/
theorem writer_fault {f : Fault} (hi : writerCommand i = true) (hw : WriterInv s.wr) (h : exec i s = .fault f) :
    f = .sinkSilent ∧ s.sink.rest = none := by
  have hsilent : ∀ {es k}, s.sink.Accepts es k → k.next = none → s.sink.rest = none := fun hacc hnone =>
    Sink.accepts_rest hacc ▸ not_not.1 fun hrest => Sink.next_isSome hrest hnone
  rcases writerCommand_cases hi with ⟨v, n, hf⟩ | ⟨count, rfl⟩ | rfl
  · rw [exec_fieldWrite hf] at h
    rcases writeField_cases v n s hw with ⟨-, hrun⟩ | ⟨-, es, k, w, hacc, -, -, ⟨-, hrun⟩ | ⟨-, ⟨b, e, k', -, -, hrun⟩ | ⟨hnone, hrun⟩⟩⟩ <;>
      rw [hrun] at h <;> cases h
    exact ⟨rfl, hsilent hacc hnone⟩
  · change completeWrite (writeBytesLoop count 0 s) = _ at h
    rcases writeBytesLoop_cases count 0 s hw with
        ⟨-, -, hrun⟩ | ⟨-, es, k, w, m, new, hacc, -, -, ⟨-, -, hrun⟩ | ⟨-, -, -, -, ⟨b, e, k', -, -, -, hrun⟩ | ⟨hnone, hrun⟩⟩⟩ <;>
      rw [hrun] at h <;> cases h
    exact ⟨rfl, hsilent hacc hnone⟩
  · change complete ((drain (s.setWr s.wr.pad)).bind fun _ t => .done 0#64 t) = _ at h
    obtain ⟨es, k, w, hacc, -, -, ⟨-, hrun⟩ | ⟨-, ⟨b, e, k', -, -, hrun⟩ | ⟨hnone, hrun⟩⟩⟩ := flush_cases s hw <;>
      rw [hrun] at h <;> cases h
    exact ⟨rfl, hsilent hacc hnone⟩

end

/-- Settles O38: each kind of writer command says what it has put into the stream. -/
theorem writerStreamLaw : Obligations.WriterStreamLaw := by
  unfold Obligations.WriterStreamLaw
  intro i s t hi hwf hw h
  rcases writer_step hi hw h with
    ⟨v, n, hf, new, r, put, hr⟩ | ⟨count, rfl, new, r, put, hr⟩ | ⟨rfl, new, r, put, hr⟩ <;>
    refine ⟨new, r, put, hr.calls, hr.responses, hr.stream, hr.out, ?_, ?_, ?_⟩
  · intro v' n' hf'
    cases hf.symm.trans hf'
    exact hr.put
  · rintro c rfl
    cases hf
  · rintro rfl
    cases hf
  · nofun
  · rintro c hc
    cases hc
    exact hr.put (of_decide_eq_true hwf)
  · nofun
  · nofun
  · nofun
  · exact fun _ => hr.put

/-- Settles O40: each kind of writer command says what it leaves staged. -/
theorem writerBetweenCommands : Obligations.WriterBetweenCommands := by
  unfold Obligations.WriterBetweenCommands
  intro i s t hi hw h
  obtain ⟨new, r, put, hstep, hshort, hempty⟩ : ∃ new r put, WriterStep s t new r put ∧
      (r.status = .ok → i ≠ .writeBytes 0 → t.wr.avail < 8) ∧ (r.status = .ok → i = .flush → t.wr = Acc.empty) := by
    rcases writer_step hi hw h with
      ⟨v, n, hf, new, r, put, hr⟩ | ⟨count, rfl, new, r, put, hr⟩ | ⟨rfl, new, r, put, hr⟩
    · refine ⟨new, r, put, hr.toWriterStep, fun hok _ => hr.short hok, fun _ => ?_⟩
      rintro rfl
      cases hf
    · refine ⟨new, r, put, hr.toWriterStep, fun hok hne => (hr.short hok).resolve_left ?_, fun _ => nofun⟩
      rintro rfl
      exact hne rfl
    · refine ⟨new, r, put, hr.toWriterStep, fun hok _ => ?_, fun hok _ => hr.empty hok⟩
      rw [hr.empty hok]
      decide
  have havail := hstep.inv.avail_eq
  refine ⟨r, hstep.responses, hstep.inv.2.2, fun hok hne => ?_, fun hok hflush => ?_, hstep.rejected, fun hfail => ?_,
    hstep.inv.2.1.toNat_lt hstep.inv.1.2⟩
  · exact Nat.lt_succ_iff.1 (havail ▸ hshort hok hne)
  · rw [hempty hok hflush]
    exact ⟨rfl, rfl⟩
  · exact ⟨havail ▸ hstep.failed hfail, hstep.inv.1.2⟩

end Sys2Proof.Machine

/-! ### Every step keeps the invariant, and none stops without cause (R26 to R29, R59, R169, R207) -/

namespace Sys2Proof.Machine

theorem reader_or_writer (i : Instr) : readerCommand i = true ∨ writerCommand i = true := by
  cases i <;> simp [readerCommand, writerCommand]

section
variable {i : Instr} {s t : State}

/-- What a command that is answered keeps: the invariant, how its transports end, the port and the source buffer. -/
structure Keeps (s t : State) : Prop where
  inv    : Inv t
  source : t.source.rest = s.source.rest
  sink   : t.sink.rest = s.sink.rest
  port   : t.port = s.port
  src    : t.src = s.src

theorem ReaderStep.keeps {new : List Access} {r : Response} {taken : List Bool} (hi : readerCommand i = true) (hinv : Inv s)
    (h : exec i s = .next t) (hr : ReaderStep s t new r taken) : Keeps s t := by
  obtain ⟨-, hw, hdest, hsrc, hport⟩ := hinv
  obtain ⟨hwr, hsink, hsrc', hport', -⟩ := readerFrame.2 i s t hi hdest h
  exact ⟨⟨hr.inv, hwr ▸ hw, hr.dest hdest, hsrc' ▸ hsrc, hport' ▸ hport⟩, hr.source, by rw [hsink], hport', hsrc'⟩

theorem WriterStep.keeps {new : List Access} {r : Response} {put : List Bool} (hi : writerCommand i = true) (hinv : Inv s)
    (h : exec i s = .next t) (hr : WriterStep s t new r put) : Keeps s t := by
  obtain ⟨hrd, -, hdest, hsrc, hport⟩ := hinv
  obtain ⟨hrd', hsource, hdest', hsrc', hport', -⟩ := writerFrame.2 i s t hi h
  exact ⟨⟨hrd' ▸ hrd, hr.inv, hdest' ▸ hdest, hsrc' ▸ hsrc, hport' ▸ hport⟩, by rw [hsource], hr.sink, hport', hsrc'⟩

/-- Every command that is answered keeps the invariant (R26 to R29). -/
theorem exec_keeps (hinv : Inv s) (h : exec i s = .next t) : Keeps s t := by
  rcases reader_or_writer i with hi | hi
  · rcases reader_step hi hinv.1 h with ⟨n, -, -, new, r, taken, hr⟩ | ⟨count, -, -, new, r, taken, hr⟩
    · exact hr.toReaderStep.keeps hi hinv h
    · exact hr.toReaderStep.keeps hi hinv h
  · rcases writer_step hi hinv.2.1 h with
      ⟨v, n, -, new, r, put, hr⟩ | ⟨count, -, new, r, put, hr⟩ | ⟨-, new, r, put, hr⟩
    · exact hr.toWriterStep.keeps hi hinv h
    · exact hr.toWriterStep.keeps hi hinv h
    · exact hr.toWriterStep.keeps hi hinv h

theorem complete_ne_refused (x : Run Word) (r : Refusal) : complete x ≠ .refused r := by
  cases x <;> nofun

theorem completeRead_ne_refused (x : Run Progress) (r : Refusal) : completeRead x ≠ .refused r := by
  cases x <;> nofun

theorem completeWrite_ne_refused (x : Run Progress) (r : Refusal) : completeWrite x ≠ .refused r := by
  cases x <;> nofun

/-- No command is refused: every arm ends in a response or a hang. -/
theorem exec_ne_refused (i : Instr) (s : State) (r : Refusal) : exec i s ≠ .refused r := by
  cases i with
  | readBit | readBits | readByte => exact complete_ne_refused _ r
  | readBytes | srcRead => exact completeRead_ne_refused _ r
  | writeBit | writeBits | writeByte | flush => exact complete_ne_refused _ r
  | writeBytes => exact completeWrite_ne_refused _ r

/-- A command has no step only because a transport of its unit has fallen silent (R59, R179). -/
theorem exec_fault {f : Fault} (hinv : Inv s) (h : exec i s = .fault f) :
    (readerCommand i = true ∧ f = .sourceSilent ∧ s.source.rest = none) ∨
      (writerCommand i = true ∧ f = .sinkSilent ∧ s.sink.rest = none) := by
  rcases reader_or_writer i with hi | hi
  · exact .inl ⟨hi, reader_fault hi hinv.1 h⟩
  · exact .inr ⟨hi, writer_fault hi hinv.2.1 h⟩

/-- Over transports that answer, a command is answered. -/
theorem exec_answered (i : Instr) (hinv : Inv s) (hans : Answering s) : ∃ t, exec i s = .next t := by
  cases h : exec i s with
  | next t => exact ⟨t, rfl⟩
  | fault f =>
    rcases exec_fault hinv h with ⟨-, -, hnone⟩ | ⟨-, -, hnone⟩
    · exact absurd hnone hans.1
    · exact absurd hnone hans.2
  | refused r => exact absurd h (exec_ne_refused i s r)

end

/-! #### The step -/

section
variable {s t : State}

/-- What a step from a port whose first input is a command or a reset begins with: the invariant of the accepted machine. -/
theorem Inv.accept {c : Command} {later : List HostInput} (h : Inv s) (hp : s.port = .command c :: later) : Inv (s.accept c later) := by
  obtain ⟨hrd, hwr, -, -, hport⟩ := h
  rw [hp] at hport
  obtain ⟨hc, hlater⟩ := List.forall_mem_cons.1 hport
  obtain ⟨hdest, hsrc⟩ := Bool.and_eq_true_iff.1 hc
  exact ⟨hrd, hwr, hdest, hsrc, hlater⟩

theorem Inv.resetBlock {x : HostInput} {later : List HostInput} (h : Inv s) (hp : s.port = x :: later) : Inv (s.resetBlock later) := by
  obtain ⟨-, -, hdest, hsrc, hport⟩ := h
  rw [hp] at hport
  exact ⟨by rw [State.resetBlock_rd]; decide, by rw [State.resetBlock_wr]; decide, hdest, hsrc, (List.forall_mem_cons.1 hport).2⟩

/-- Settles O14: a step is idle, a reset, a word answered as invalid, or a command on the machine that has accepted it. -/
theorem everyStepKeepsTheInvariant : Obligations.EveryStepKeepsTheInvariant := by
  unfold Obligations.EveryStepKeepsTheInvariant
  intro s t hinv h
  cases hp : s.port with
  | nil =>
    rw [step_of_idle hp] at h
    cases h
    exact hinv
  | cons x later =>
    cases x with
    | command c =>
      cases hd : decode c.word with
      | ok i =>
        rw [step_of_decode_ok hp hd] at h
        exact (exec_keeps (hinv.accept hp) h).inv
      | error e =>
        rw [step_of_decode_error hp hd] at h
        cases h
        exact hinv.accept hp
    | reset =>
      rw [step_of_reset hp] at h
      cases h
      exact hinv.resetBlock hp
    | commandWhileBusy c =>
      rw [step_of_commandWhileBusy hp] at h
      cases h
    | resetWhileBusy =>
      rw [step_of_resetWhileBusy hp] at h
      cases h

/-- From a safe start a step is answered, and what it leaves is a safe start (R169). -/
theorem step_safe (h : SafeStart s) : ∃ t, step s = .next t ∧ SafeStart t := by
  obtain ⟨hinv, hans, hproper⟩ := h
  cases hp : s.port with
  | nil => exact ⟨s, step_of_idle hp, hinv, hans, hproper⟩
  | cons x later =>
    rw [hp] at hproper
    obtain ⟨hx, hlater⟩ := List.forall_mem_cons.1 hproper
    cases x with
    | command c =>
      cases hd : decode c.word with
      | ok i =>
        obtain ⟨t, ht⟩ := exec_answered i (hinv.accept hp) (show Answering (s.accept c later) from hans)
        have hkeeps := exec_keeps (hinv.accept hp) ht
        refine ⟨t, (step_of_decode_ok hp hd).trans ht, hkeeps.inv, ⟨?_, ?_⟩, ?_⟩
        · rw [hkeeps.source]
          exact hans.1
        · rw [hkeeps.sink]
          exact hans.2
        · rw [hkeeps.port]
          exact hlater
      | error e => exact ⟨_, step_of_decode_error hp hd, hinv.accept hp, hans, hlater⟩
    | reset => exact ⟨_, step_of_reset hp, hinv.resetBlock hp, hans, hlater⟩
    | commandWhileBusy c => cases hx
    | resetWhileBusy => cases hx

end

/-- Settles O19, by induction on the number of steps. -/
theorem safeRunsNeverStop : Obligations.SafeRunsNeverStop := by
  unfold Obligations.SafeRunsNeverStop
  intro k
  induction k with
  | zero => exact fun s h => ⟨s, rfl, h⟩
  | succ k ih =>
    intro s h
    obtain ⟨t, ht, hsafe⟩ := step_safe h
    obtain ⟨u, hu, hsafe'⟩ := ih t hsafe
    refine ⟨u, ?_, hsafe'⟩
    have hcore : Sys2Proof.core.step s = .next t := ht
    simp only [Host.Core.run, hcore]
    exact hu

/-- Settles O20: the inversion of each unit gives the only causes, and each loop hangs at a silent call. -/
theorem onlySilentTransportsHang : Obligations.OnlySilentTransportsHang := by
  unfold Obligations.OnlySilentTransportsHang
  refine ⟨fun i s hinv => ⟨fun f => exec_fault hinv, exec_ne_refused i s⟩, ?fieldRead, ?fieldWrite, ?byteRead, ?byteWrite, ?flush⟩
  case fieldRead =>
    intro i n s bs q hi h0 h1 ho hc hroom hl hd hnone
    rw [exec_fieldRead hi s ho hc, readField_hang h0 h1 ho hc hroom hl hd hnone]
    rfl
  case fieldWrite =>
    intro i v n s es k hi h0 h1 hv hw hroom hl hb ha hnone
    rw [exec_fieldWrite hi, writeField_hang h0 h1 hv hw hroom hl hb ha hnone]
    rfl
  case byteRead =>
    intro i count s bs q hi hinv hlt hd hnone
    obtain ⟨xs, a, new, -, -, -, -, -, -, -, -, -, -, ⟨x, e, q', hnext, -⟩ | ⟨-, hrun⟩⟩ :=
      readBytesLoop_stop hinv hlt hd (by simp [hnone])
    · rw [hnone] at hnext
      cases hnext
    · exact exec_byteRead_of_hung hi hrun
  case byteWrite =>
    intro count s es k hw hroom hpos hl hb ha hnone
    rw [← Memory.slice_zero_eq] at hb
    show completeWrite (writeBytesLoop count 0 s) = _
    rw [writeBytesLoop_hang hw hroom (by omega) hpos hb ha hnone]
    rfl
  case flush =>
    intro s es k hw hl hb ha hnone
    show complete ((drain (s.setWr s.wr.pad)).bind fun _ t => .done 0#64 t) = _
    rw [flush_hang hw hl hb ha hnone]
    rfl

/-! ### The bound on transport calls, and the statuses (R164, R207) -/

theorem byteReadCount_of_writer {i : Instr} (hi : writerCommand i = true) : byteReadCount i = none := by
  cases i with
  | readBytes | srcRead => cases hi
  | readBit | readBits | readByte | writeBit | writeBits | writeByte | writeBytes | flush => rfl

theorem not_writer_of_reader {i : Instr} (hi : readerCommand i = true) : writerCommand i ≠ true := by
  cases i with
  | readBit | readBits | readByte | readBytes | srcRead => nofun
  | writeBit | writeBits | writeByte | writeBytes | flush => cases hi

theorem ne_writeBytes_of_reader {i : Instr} (hi : readerCommand i = true) (count : Nat) : i ≠ .writeBytes count := by
  rintro rfl
  cases hi

/-- Settles O45: each kind of command says how many calls it has made. -/
theorem transportCallsAreBounded : Obligations.TransportCallsAreBounded := by
  unfold Obligations.TransportCallsAreBounded
  intro i s t hinv h
  rcases reader_or_writer i with hi | hi
  · have hne := ne_writeBytes_of_reader hi
    rcases reader_step hi hinv.1 h with ⟨n, -, hnone, new, r, taken, hr⟩ | ⟨count, -, hcount, new, r, taken, hr⟩
    · exact ⟨new, hr.calls, fun _ _ => hr.transports, fun c hc => (nomatch hnone.symm.trans hc), fun c hc => absurd hc (hne c)⟩
    · refine ⟨new, hr.calls, fun hnone => (nomatch hcount.symm.trans hnone), fun c hc => ?_, fun c hc => absurd hc (hne c)⟩
      cases hcount.symm.trans hc
      exact hr.transports
  · have hnone := byteReadCount_of_writer hi
    rcases writer_step hi hinv.2.1 h with
      ⟨v, n, hf, new, r, put, hr⟩ | ⟨count, rfl, new, r, put, hr⟩ | ⟨rfl, new, r, put, hr⟩
    · refine ⟨new, hr.calls, fun _ _ => hr.transports, fun c hc => (nomatch hnone.symm.trans hc), ?_⟩
      rintro c rfl
      cases hf
    · refine ⟨new, hr.calls, fun _ hne => absurd rfl (hne count), nofun, fun c hc => ?_⟩
      cases hc
      exact hr.transports
    · exact ⟨new, hr.calls, fun _ _ => hr.transports, nofun, nofun⟩

/-! #### Which status has which cause (R163, R164) -/

section
variable {i : Instr} {s t : State} {new : List Access} {r : Response}

/-- Only `read_bits` can be rejected by the reader: one bit and one byte always fit (R13, R163). -/
theorem FieldRead.cause_of_invalid {n : Nat} {taken : List Bool} (hi : fieldReadWidth i = some n) (hinv : ReaderInv s.rd)
    (hr : FieldRead n s t new r taken) (hst : r.status = .invalidArgument) :
    i = .readBits n ∧ (n = 0 ∨ 64 ≤ n ∨ 64 < s.rd.stop + 8 * ceilDiv8 (n - s.rd.avail)) := by
  have hcause := hr.cause hst
  have hbits : n ≤ 50 → n = 0 := by
    intro h50
    have hroom := readCapacity_narrow hinv.1 hinv.2.2.1 h50
    omega
  rw [refillBytes_eq hinv.1.1] at hcause
  cases i <;> cases hi
  · exact absurd (hbits (by decide)) (by decide)
  · exact ⟨rfl, by omega⟩
  · exact absurd (hbits (by decide)) (by decide)

/-- A field write is rejected for its width, its value, or want of room (R142, R143, R163). -/
theorem fieldWrite_cause {v n : Nat} (hi : fieldWriteOperands i = some (v, n)) (h64 : s.wr.stop ≤ 64)
    (hcause : ¬ (0 < n ∧ n < 64 ∧ v < 2 ^ n ∧ s.wr.stop + n ≤ 64)) :
    (∃ v, i = .writeBit v ∧ (2 ≤ v ∨ s.wr.stop = 64)) ∨
      (∃ v n, i = .writeBits v n ∧ (n = 0 ∨ 64 ≤ n ∨ 2 ^ n ≤ v ∨ 64 < s.wr.stop + n)) ∨
      (∃ v, i = .writeByte v ∧ (256 ≤ v ∨ 56 < s.wr.stop)) := by
  cases i <;> cases hi
  · exact .inl ⟨v, rfl, by omega⟩
  · exact .inr (.inl ⟨v, n, rfl, by omega⟩)
  · exact .inr (.inr ⟨v, rfl, by omega⟩)

/-- R164, per command: one response, and the causes of `InvalidArgument` (R163). -/
theorem exec_status (hinv : Inv s) (h : exec i s = .next t) :
    ∃ r : Response, t.responses = s.responses ++ [r] ∧
      (writerCommand i = true → r.status ≠ .endOfStream) ∧
      (∀ c, i = .srcRead c → r.status ≠ .endOfStream) ∧
      (r.status = .invalidArgument →
        (∃ n, i = .readBits n ∧ (n = 0 ∨ 64 ≤ n ∨ 64 < s.rd.stop + 8 * ceilDiv8 (n - s.rd.avail))) ∨
        (∃ v, i = .writeBit v ∧ (2 ≤ v ∨ s.wr.stop = 64)) ∨
        (∃ v n, i = .writeBits v n ∧ (n = 0 ∨ 64 ≤ n ∨ 2 ^ n ≤ v ∨ 64 < s.wr.stop + n)) ∨
        (∃ v, i = .writeByte v ∧ (256 ≤ v ∨ 56 < s.wr.stop)) ∨
        (∃ c, i = .writeBytes c ∧ 0 < c ∧ 56 < s.wr.stop ∧ r.data = 0#64)) := by
  rcases reader_or_writer i with hi | hi
  · have hno := not_writer_of_reader hi
    rcases reader_step hi hinv.1 h with ⟨n, hn, hnone, new, r, taken, hr⟩ | ⟨count, -, hcount, new, r, taken, hr⟩
    · refine ⟨r, hr.responses, fun hw => absurd hw hno, ?_, fun hst => .inl ⟨n, hr.cause_of_invalid hn hinv.1 hst⟩⟩
      rintro c rfl
      cases hnone
    · refine ⟨r, hr.responses, fun hw => absurd hw hno, ?_, fun hst => absurd hst hr.legal⟩
      rintro c rfl
      cases hcount
      exact hr.adapter rfl
  · have hne : ∀ c, i ≠ .srcRead c := by rintro c rfl; cases hi
    rcases writer_step hi hinv.2.1 h with
      ⟨v, n, hf, new, r, put, hr⟩ | ⟨count, rfl, new, r, put, hr⟩ | ⟨rfl, new, r, put, hr⟩ <;>
      refine ⟨r, hr.responses, fun _ => hr.notEnded, fun c hc => absurd hc (hne c), fun hst => ?_⟩
    · obtain h | h | h := fieldWrite_cause hf hinv.2.1.1.2 (hr.cause hst)
      · exact .inr (.inl h)
      · exact .inr (.inr (.inl h))
      · exact .inr (.inr (.inr (.inl h)))
    · exact .inr (.inr (.inr (.inr ⟨count, rfl, hr.cause hst⟩)))
    · exact absurd hst hr.legal

end

/-! #### An input for each status (R164) -/

/-- A state in which every command that can be answered with the status is answered with it, given a width of `statusWidth` and an
argument of 1: transports that deliver and accept for `OK`, transports that stop for the two errors they raise, and no room for
`InvalidArgument`. -/
def statusState : Status → State
  | .ok => { State.reset with source := ⟨[], some (.byte 0#8)⟩ }
  | .endOfStream => State.reset
  | .transportFailure =>
    { State.reset with wr := ⟨0#64, 0, 7⟩, source := ⟨[], some (.fail 1#32)⟩, sink := ⟨[], some (.fail 1#32), []⟩ }
  | .invalidArgument => { State.reset with wr := ⟨0#64, 0, 64⟩ }

/-- The width that goes with `statusState`: none is legal for `InvalidArgument`. -/
def statusWidth : Status → Nat
  | .invalidArgument => 0
  | .ok | .endOfStream | .transportFailure => 1

/-- The status of the answer to an operation from the state and width of a status. -/
def statusAnswer (o : Op) (st : Status) : Option Status :=
  match exec (o.assemble (statusWidth st) 1) (statusState st) with
  | .next t => t.responses.getLast?.map (·.status)
  | .fault _ => none
  | .refused _ => none

theorem statusAnswer_eq (o : Op) : ∀ st ∈ commandStatuses o, statusAnswer o st = some st := by
  cases o <;> decide

theorem inv_statusState (st : Status) : Inv (statusState st) := by
  cases st <;> decide

/-- Every status in a command's row of the table is given to it by some state (R164). -/
theorem exists_of_mem_commandStatuses {o : Op} {st : Status} (h : st ∈ commandStatuses o) :
    ∃ (n arg : Nat) (s t : State) (r : Response), (o.assemble n arg).wf = true ∧ Inv s ∧
      exec (o.assemble n arg) s = .next t ∧ t.responses = s.responses ++ [r] ∧ r.status = st := by
  have hanswer := statusAnswer_eq o st h
  have hwf : (o.assemble (statusWidth st) 1).wf = true := by cases o <;> cases st <;> rfl
  unfold statusAnswer at hanswer
  cases hexec : exec (o.assemble (statusWidth st) 1) (statusState st) with
  | next t =>
    obtain ⟨r, hr, -⟩ := exec_status (inv_statusState st) hexec
    rw [hexec] at hanswer
    simp only [hr, List.getLast?_concat, Option.map_some, Option.some.injEq] at hanswer
    exact ⟨_, _, _, t, r, hwf, inv_statusState st, hexec, hr, hanswer⟩
  | fault f => rw [hexec] at hanswer; cases hanswer
  | refused f => rw [hexec] at hanswer; cases hanswer

/-- A status that is not in a command's row is never given to it (R164). -/
theorem mem_commandStatuses {o : Op} {n arg : Nat} {s t : State} {r : Response} (hinv : Inv s)
    (h : exec (o.assemble n arg) s = .next t) (hr : t.responses = s.responses ++ [r]) : r.status ∈ commandStatuses o := by
  obtain ⟨r', hr', hwriter, hadapter, hcause⟩ := exec_status hinv h
  rw [hr] at hr'
  cases List.append_cancel_left hr'
  cases hst : r.status with
  | ok => cases o <;> decide
  | endOfStream =>
    rw [hst] at hwriter hadapter
    cases o <;> simp [commandStatuses, Op.assemble, writerCommand] at *
  | transportFailure => cases o <;> decide
  | invalidArgument =>
    have hcause := hcause hst
    cases o <;> simp [commandStatuses, Op.assemble] at *

/-- Settles O42: the table both ways, and the causes per command. -/
theorem statusesOfEachCommand : Obligations.StatusesOfEachCommand := by
  unfold Obligations.StatusesOfEachCommand
  refine ⟨fun o st => ⟨exists_of_mem_commandStatuses, ?_⟩, fun i s t => exec_status⟩
  rintro ⟨n, arg, s, t, r, -, hinv, h, hr, rfl⟩
  exact mem_commandStatuses hinv h hr

end Sys2Proof.Machine

/-! ### One response of the right shape (R71, R82, R84) -/

namespace Sys2Proof.Machine

/-- The transport's error value that an error carries (R162). -/
def Raise.failure : Raise → Option TErr
  | .transportFailure e => some e
  | .endOfStream => none
  | .invalidArgument => none

/-- From `s` to `t` no response has been given, and the last access made, if there is one, failed as `x` says. -/
def LastFailed (x : Option TErr) (s t : State) : Prop :=
  t.responses = s.responses ∧ ∃ new, t.calls = s.calls ++ new ∧ new.getLast?.bind Access.failure = x

section
variable {x : Option TErr} {s t u : State}

theorem LastFailed.refl : LastFailed none s s := ⟨rfl, [], (List.append_nil _).symm, rfl⟩

theorem LastFailed.trans (h : LastFailed none s t) (h' : LastFailed x t u) : LastFailed x s u := by
  obtain ⟨hresp, new, hcalls, hlast⟩ := h
  obtain ⟨hresp', new', hcalls', hlast'⟩ := h'
  refine ⟨hresp'.trans hresp, new ++ new', by rw [hcalls', hcalls, List.append_assoc], ?_⟩
  rw [List.getLast?_append]
  cases hnew : new'.getLast? with
  | none =>
    rw [hnew] at hlast'
    rw [Option.none_or, hlast, ← hlast']
    rfl
  | some c =>
    rw [hnew] at hlast'
    exact hlast'

/-- One access, after which the state may differ otherwise too. -/
theorem LastFailed.access {c : Access} (hresp : t.responses = s.responses) (hcalls : t.calls = s.calls ++ [c]) :
    LastFailed c.failure s t :=
  ⟨hresp, [c], hcalls, rfl⟩

end

/-- An operation begun in `s` gives no response, and its last access failed exactly if it ends in that failure (R84); its value
satisfies `P`. -/
def Run.Shaped (s : State) (P : α → Prop) : Run α → Prop
  | .done a t => P a ∧ LastFailed none s t
  | .raised e t => LastFailed e.failure s t
  | .hung _ => True

section
variable {s t : State} {P : α → Prop} {Q : β → Prop}

theorem Run.Shaped.after {r : Run α} (h : LastFailed none s t) (hr : r.Shaped t P) : r.Shaped s P := by
  cases r with
  | done a u => exact ⟨hr.1, h.trans hr.2⟩
  | raised e u => exact h.trans hr
  | hung f => exact hr

theorem Run.Shaped.imp {P' : α → Prop} {r : Run α} (hP : ∀ a, P a → P' a) (hr : r.Shaped s P) : r.Shaped s P' := by
  cases r with
  | done a u => exact ⟨hP a hr.1, hr.2⟩
  | raised e u => exact hr
  | hung f => exact hr

theorem Run.Shaped.bind {r : Run α} {f : α → State → Run β} (hr : r.Shaped s P) (hf : ∀ a t, P a → (f a t).Shaped t Q) :
    (r.bind f).Shaped s Q := by
  cases r with
  | done a t => exact (hf a t hr.1).after hr.2
  | raised e t => exact hr
  | hung h => exact hr

end

/-! #### The reader's operations -/

/-- Calls of which none failed. -/
theorem LastFailed.of_forall {s t : State} {new : List Access} (hresp : t.responses = s.responses) (hcalls : t.calls = s.calls ++ new)
    (hnone : ∀ c ∈ new, c.failure = none) : LastFailed none s t :=
  ⟨hresp, new, hcalls, Option.bind_eq_none_iff.2 fun c hc => hnone c (List.mem_of_getLast? hc)⟩

theorem LastFailed.pulled (s : State) (bs : List Byte) (q : Source) : LastFailed none s (s.pulled bs q) :=
  .of_forall rfl rfl (by simp [Access.failure])

theorem SrcAnswer.failure_of_raises {x : SrcAnswer} {e : Raise} (hx : x.raises = some e) :
    (Access.srcRead x).failure = e.failure := by
  cases x <;> cases hx <;> rfl

theorem refill_shaped (n : Nat) (s : State) : (refill n s).Shaped s fun _ => True := by
  obtain ⟨bs, q, -, ⟨-, h⟩ | ⟨-, ⟨x, e, q', -, hx, h⟩ | ⟨-, h⟩⟩⟩ := refill_cases n s
  · rw [h]
    exact ⟨trivial, .pulled s bs q⟩
  · rw [h]
    have hlast : LastFailed (Access.srcRead x).failure (s.pulled bs q) ((s.pulled bs q).stopped x q') := .access rfl rfl
    exact (LastFailed.pulled s bs q).trans (SrcAnswer.failure_of_raises hx ▸ hlast)
  · rw [h]
    trivial

/-- The mask alone keeps a field below `2^n` (R101, R102). -/
theorem Acc.toNat_extract_lt_two_pow (a : Acc) (n : Nat) : (a.extract n).toNat < 2 ^ n := by
  have hmask : (mask n).toNat ≤ 2 ^ n - 1 := by
    rw [mask, BitVec.toNat_ofNat]
    exact Nat.mod_le _ _
  have hand : (a.extract n).toNat ≤ (mask n).toNat := by
    rw [Acc.extract, BitVec.toNat_and]
    exact Nat.and_le_right
  have hpos : 0 < 2 ^ n := Nat.two_pow_pos n
  omega

theorem readField_shaped (n : Nat) (s : State) : (readField n s).Shaped s fun x => x.toNat < 2 ^ n := by
  have hrejected : (Run.raised .invalidArgument s : Run Word).Shaped s fun x => x.toNat < 2 ^ n := LastFailed.refl
  unfold readField
  split
  · exact hrejected
  · split
    · exact hrejected
    · exact (refill_shaped n s).bind fun _ t _ => ⟨t.rd.toNat_extract_lt_two_pow n, rfl, [], (List.append_nil _).symm, rfl⟩

/-- A loop over elements, begun in `s`, that counts up to `total`: what it reports is the total, or less and the error that stopped
it, which is the failure of its last access if it is one (R82, R84, R166). -/
def Run.Counted (s : State) (total : Nat) : Run Progress → Prop
  | .done p t => LastFailed (p.2.bind Raise.failure) s t ∧ (p.2 = none → p.1 = total) ∧ (p.2 ≠ none → p.1 < total)
  | .raised _ _ => False
  | .hung _ => True

theorem Run.Counted.after {s t : State} {total : Nat} {r : Run Progress} (h : LastFailed none s t) (hr : r.Counted t total) :
    r.Counted s total := by
  cases r with
  | done p u => exact ⟨h.trans hr.1, hr.2⟩
  | raised e u => exact hr
  | hung f => exact hr

theorem readBytesLoop_counted (todo done : Nat) (s : State) : (readBytesLoop todo done s).Counted s (done + todo) := by
  induction todo generalizing done s with
  | zero => exact ⟨.refl, fun _ => rfl, fun h => absurd rfl h⟩
  | succ todo ih =>
    have hfield := readField_shaped 8 s
    unfold readBytesLoop
    cases hr : readField 8 s with
    | done x t =>
      rw [hr] at hfield
      have hstore : LastFailed none t (storeDest done (lowByte x) t) := .access (c := .destStore done (lowByte x)) rfl rfl
      have hrest := ih (done + 1) (storeDest done (lowByte x) t)
      rw [Nat.add_right_comm, Nat.add_assoc] at hrest
      exact hrest.after (hfield.2.trans hstore)
    | raised e t =>
      rw [hr] at hfield
      exact ⟨hfield, nofun, fun _ => Nat.lt_add_of_pos_right (Nat.succ_pos todo)⟩
    | hung f => trivial

/-! #### The writer's operations -/

theorem drainLoop_shaped (rounds : Nat) (s : State) : (drainLoop rounds s).Shaped s fun _ => True := by
  induction rounds generalizing s with
  | zero => exact ⟨trivial, .refl⟩
  | succ rounds ih =>
    unfold drainLoop
    split
    · rw [snkWrite_eq]
      rcases s.sink.next with _ | ⟨x, k⟩
      · trivial
      · cases x with
        | ok =>
          refine (ih _).after ?_
          exact .access (c := .snkWrite (lowByte (s.wr.extract 8)) .ok) rfl rfl
        | fail e => exact .access (c := .snkWrite (lowByte (s.wr.extract 8)) (.fail e)) rfl rfl
    · exact ⟨trivial, .refl⟩

theorem drainFrom_shaped (w : Acc) (s : State) :
    ((drain (s.setWr w)).bind fun _ t => .done 0#64 t).Shaped s (· = 0#64) := by
  have hset : LastFailed none s (s.setWr w) := ⟨rfl, [], (List.append_nil _).symm, rfl⟩
  exact ((drainLoop_shaped _ _).after hset).bind fun _ t _ => ⟨rfl, .refl⟩

theorem writeField_shaped (v n : Nat) (s : State) : (writeField v n s).Shaped s (· = 0#64) := by
  have hrejected : (Run.raised .invalidArgument s : Run Word).Shaped s (· = 0#64) := LastFailed.refl
  unfold writeField
  split
  · exact hrejected
  · split
    · exact hrejected
    · split
      · exact hrejected
      · exact drainFrom_shaped _ s

theorem writeBytesLoop_counted (todo done : Nat) (s : State) : (writeBytesLoop todo done s).Counted s (done + todo) := by
  induction todo generalizing done s with
  | zero => exact ⟨.refl, fun _ => rfl, fun h => absurd rfl h⟩
  | succ todo ih =>
    have hlt : done < done + (todo + 1) := Nat.lt_add_of_pos_right (Nat.succ_pos todo)
    unfold writeBytesLoop
    split
    · exact ⟨.refl, nofun, fun _ => hlt⟩
    · have hload : LastFailed none s (loadSrc done s).2 := .access (c := .srcLoad done (s.src.read done)) rfl rfl
      have hfield := (writeField_shaped (loadSrc done s).1.toNat 8 (loadSrc done s).2).after hload
      cases hr : writeField (loadSrc done s).1.toNat 8 (loadSrc done s).2 with
      | done x t =>
        rw [hr] at hfield
        have hrest := ih (done + 1) t
        rw [Nat.add_right_comm, Nat.add_assoc] at hrest
        exact hrest.after hfield.2
      | raised e t =>
        rw [hr] at hfield
        exact ⟨hfield, nofun, fun _ => hlt⟩
      | hung f => trivial

/-! #### The response -/

/-- The command begun in `s` has been answered by `r` in `t`, with the error value of the failure that ended it (R71, R84). -/
structure Answered (s t : State) (r : Response) : Prop where
  responses : t.responses = s.responses ++ [r]
  terr      : r.status ≠ .transportFailure → r.terr = 0#32
  calls     : ∃ new, t.calls = s.calls ++ new ∧
    new.getLast?.bind Access.failure = if r.status = .transportFailure then some r.terr else none

section
variable {s u : State}

theorem Answered.okay (h : LastFailed none s u) (d : Word) (bytes : List Byte) :
    Answered s (u.respond (.okay d bytes)) (.okay d bytes) :=
  ⟨congrArg (· ++ [Response.okay d bytes]) h.1, fun _ => rfl, h.2⟩

theorem Answered.error {e : Raise} (h : LastFailed e.failure s u) (d : Word) (bytes : List Byte) :
    Answered s (u.respond (.error e d bytes)) (.error e d bytes) := by
  refine ⟨congrArg (· ++ [Response.error e d bytes]) h.1, fun hne => ?_, ?_⟩ <;> cases e
  · rfl
  · exact absurd rfl hne
  · rfl
  · exact h.2
  · exact h.2
  · exact h.2

theorem Answered.ofProgress {p : Progress} (h : LastFailed (p.2.bind Raise.failure) s u) (bytes : List Byte) :
    Answered s (u.respond (.ofProgress p bytes)) (.ofProgress p bytes) := by
  obtain ⟨done, _ | e⟩ := p
  · exact .okay h _ _
  · exact .error h _ _

end

/-- What `DATA` may be after an `OK` of a command that takes or gives one field, or flushes (R82). -/
structure WordRange (i : Instr) (d : Word) : Prop where
  readBits : ∀ n, i = .readBits n → d.toNat < 2 ^ n
  readBit  : i = .readBit → d = 0#64 ∨ d = 1#64
  readByte : i = .readByte → d.toNat < 256
  write    : i = .flush ∨ fieldWriteOperands i ≠ none → d = 0#64

theorem wordRange_of_read {i : Instr} {n : Nat} (hi : fieldReadWidth i = some n) {d : Word} (hd : d.toNat < 2 ^ n) :
    WordRange i d := by
  have hnone : fieldWriteOperands i = none := by cases i <;> cases hi <;> rfl
  have hwrite : ¬ (i = .flush ∨ fieldWriteOperands i ≠ none) := by
    rintro (rfl | h)
    · cases hi
    · exact h hnone
  refine ⟨?_, ?_, ?_, fun h => absurd h hwrite⟩
  · rintro m rfl
    cases hi
    exact hd
  · rintro rfl
    cases hi
    rcases Nat.le_one_iff_eq_zero_or_eq_one.1 (Nat.lt_succ_iff.1 hd) with h | h
    · exact .inl (BitVec.eq_of_toNat_eq h)
    · exact .inr (BitVec.eq_of_toNat_eq h)
  · rintro rfl
    cases hi
    exact hd

theorem wordRange_of_write {i : Instr} (hi : writerCommand i = true) {d : Word} (hd : d = 0#64) : WordRange i d := by
  refine ⟨?_, ?_, ?_, fun _ => hd⟩
  · rintro n rfl
    cases hi
  · rintro rfl
    cases hi
  · rintro rfl
    cases hi

/-- The commands that move elements do not answer with a word. -/
theorem wordRange_of_elements {i : Instr} (hr : fieldReadWidth i = none) (hw : fieldWriteOperands i = none) (hf : i ≠ .flush)
    (d : Word) : WordRange i d := by
  refine ⟨?_, ?_, ?_, fun h => (h.elim hf fun hne => hne hw).elim⟩
  · rintro n rfl
    cases hr
  · rintro rfl
    cases hr
  · rintro rfl
    cases hr

/-- A command is one of a word, which moves no host buffer, or a byte read, or the byte write. -/
theorem exec_run_cases (i : Instr) :
    (byteReadCount i = none ∧ (∀ c, i ≠ .writeBytes c) ∧
      ∀ s, ∃ run, exec i s = complete run ∧ run.Shaped s (WordRange i)) ∨
    (∃ count, byteReadCount i = some count) ∨ ∃ count, i = .writeBytes count := by
  rcases reader_or_writer i with hi | hi
  · rcases readerCommand_cases hi with ⟨n, hn, hnone⟩ | ⟨count, hcount⟩
    · refine .inl ⟨hnone, ne_writeBytes_of_reader hi, fun s => ⟨readField n s, exec_eq_complete_readField hn s, ?_⟩⟩
      exact (readField_shaped n s).imp fun x => wordRange_of_read hn
    · exact .inr (.inl ⟨count, (byteReadCount_of_cases hcount).1⟩)
  · have hnone := byteReadCount_of_writer hi
    rcases writerCommand_cases hi with ⟨v, n, hf⟩ | ⟨count, rfl⟩ | rfl
    · refine .inl ⟨hnone, ?_, fun s => ⟨writeField v n s, exec_fieldWrite hf s, ?_⟩⟩
      · rintro c rfl
        cases hf
      · exact (writeField_shaped v n s).imp fun x => wordRange_of_write hi
    · exact .inr (.inr ⟨count, rfl⟩)
    · exact .inl ⟨hnone, nofun, fun s => ⟨_, rfl, (drainFrom_shaped s.wr.pad s).imp fun x => wordRange_of_write hi⟩⟩

theorem Response.status_ofProgress_ok_iff (p : Progress) (bytes : List Byte) :
    (Response.ofProgress p bytes).status = .ok ↔ p.2 = none := by
  obtain ⟨done, _ | (_ | e | _)⟩ := p <;> simp [Response.ofProgress, Response.okay, Response.error, Raise.status]

/-- The adapter hides no failure of a transport (R131). -/
theorem reportedProgress_failure {i : Instr} {count : Nat} (hi : byteReadCount i = some count) (p : Progress) :
    (reportedProgress i p).2.bind Raise.failure = p.2.bind Raise.failure := by
  rcases byteReadCount_eq_some_iff.1 hi with rfl | rfl
  · rfl
  · obtain ⟨done, _ | (_ | e | _)⟩ := p <;> rfl

/-- What the adapter reports as an error was one (R131). -/
theorem ne_none_of_reportedProgress {i : Instr} {count : Nat} (hi : byteReadCount i = some count) {p : Progress}
    (h : (reportedProgress i p).2 ≠ none) : p.2 ≠ none := by
  obtain ⟨done, e⟩ := p
  rintro rfl
  rw [reportedProgress_none hi] at h
  exact h rfl

/-- A count that a word carries is reported as it is (R88). -/
theorem lt_of_wf_byteRead {i : Instr} {count : Nat} (hi : byteReadCount i = some count) (hwf : i.wf = true) : count < 2 ^ 64 := by
  rcases byteReadCount_eq_some_iff.1 hi with rfl | rfl <;> exact of_decide_eq_true hwf

/-- The progress of a loop is at most its total. -/
theorem Run.Counted.le {s u : State} {total : Nat} {p : Progress} (h : (Run.done p u).Counted s total) : p.1 ≤ total := by
  obtain ⟨-, hall, hless⟩ := h
  by_cases hnone : p.2 = none
  · exact (hall hnone).le
  · exact (hless hnone).le

theorem toNat_ofNat_of_le {m n : Nat} (hle : m ≤ n) (hlt : n < 2 ^ 64) : (BitVec.ofNat 64 m).toNat = m := by
  rw [BitVec.toNat_ofNat, Nat.mod_eq_of_lt (hle.trans_lt hlt)]

/-- The parts of a command's response (R71, R82, R84). -/
structure ResponseShape (i : Instr) (s t : State) (r : Response) : Prop extends Answered s t r where
  noBytes : byteReadCount i = none → r.bytes = []
  noData  : r.status ≠ .ok → byteReadCount i = none → (∀ c, i ≠ .writeBytes c) → r.data = 0#64
  word    : r.status = .ok → WordRange i r.data
  read    : r.status = .ok → ∀ c, i = .readBytes c → r.data.toNat = c
  adapted : ∀ c, i = .srcRead c → r.data.toNat ≤ c
  written : r.status = .ok → ∀ c, i = .writeBytes c → r.data.toNat = c
  short   : r.status ≠ .ok → (∀ c, byteReadCount i = some c → r.data.toNat < c) ∧ ∀ c, i = .writeBytes c → r.data.toNat < c
  stored  : byteReadCount i ≠ none → r.data.toNat = r.bytes.length ∧ r.bytes = t.dest.prefixBytes r.data.toNat

section
variable {i : Instr} {count : Nat} {s t : State}

/-- A command of one word answers with its operation's value, or with 0 after an error. -/
theorem word_shape (hnone : byteReadCount i = none) (hne : ∀ c, i ≠ .writeBytes c) {run : Run Word}
    (hrun : run.Shaped s (WordRange i)) (h : complete run = .next t) : ∃ r, ResponseShape i s t r := by
  have hno : ∀ {c}, byteReadCount i ≠ some c := by rw [hnone]; nofun
  have hread : ∀ c, i ≠ .readBytes c := by rintro c rfl; exact hno rfl
  have hadapter : ∀ c, i ≠ .srcRead c := by rintro c rfl; exact hno rfl
  cases run with
  | done d u =>
    cases h
    exact ⟨_, { Answered.okay hrun.2 d [] with
      noBytes := fun _ => rfl
      noData := fun hok => absurd rfl hok
      word := fun _ => hrun.1
      read := fun _ c hc => absurd hc (hread c)
      adapted := fun c hc => absurd hc (hadapter c)
      written := fun _ c hc => absurd hc (hne c)
      short := fun hok => absurd rfl hok
      stored := fun hsome => absurd hnone hsome }⟩
  | raised e u =>
    cases h
    have hstatus : e.status ≠ .ok := by cases e <;> nofun
    exact ⟨_, { Answered.error hrun 0#64 [] with
      noBytes := fun _ => rfl
      noData := fun _ _ _ => rfl
      word := fun hok => absurd hok hstatus
      read := fun hok => absurd hok hstatus
      adapted := fun c hc => absurd hc (hadapter c)
      written := fun hok => absurd hok hstatus
      short := fun _ => ⟨fun c hc => absurd hc hno, fun c hc => absurd hc (hne c)⟩
      stored := fun hsome => absurd hnone hsome }⟩
  | hung f => cases h

/-- A byte read answers with the number of elements it has stored, and with those elements. -/
theorem byteRead_shape (hi : byteReadCount i = some count) (hwf : i.wf = true) (h : exec i s = .next t) :
    ∃ r, ResponseShape i s t r := by
  have hcounted := readBytesLoop_counted count 0 s
  rw [Nat.zero_add] at hcounted
  have hsome : byteReadCount i ≠ none := by rw [hi]; nofun
  have hne : ∀ c, i ≠ .writeBytes c := by rintro c rfl; cases hi
  cases hrun : readBytesLoop count 0 s with
  | done p u =>
    rw [hrun] at hcounted
    rw [exec_byteRead_of_done hi hrun] at h
    cases h
    have hle := hcounted.le
    obtain ⟨hlast, hall, hless⟩ := hcounted
    obtain ⟨r, hr⟩ : ∃ r, r = Response.ofProgress (reportedProgress i p) (u.dest.prefixBytes p.1) := ⟨_, rfl⟩
    have hok : r.status = .ok ↔ (reportedProgress i p).2 = none := by rw [hr, Response.status_ofProgress_ok_iff]
    have hbytes : r.bytes = u.dest.prefixBytes p.1 := by rw [hr, Response.bytes_ofProgress]
    have hdata : r.data.toNat = p.1 := by
      rw [hr, Response.data_ofProgress, reportedProgress_fst hi, toNat_ofNat_of_le hle (lt_of_wf_byteRead hi hwf)]
    rw [← hr]
    exact ⟨r, { hr ▸ Answered.ofProgress (reportedProgress_failure hi p ▸ hlast) (u.dest.prefixBytes p.1) with
      noBytes := fun hnone => absurd hnone hsome
      noData := fun _ hnone => absurd hnone hsome
      word := fun _ => by
        rcases byteReadCount_eq_some_iff.1 hi with rfl | rfl <;> exact wordRange_of_elements rfl rfl (by nofun) _
      read := fun hst c hc => by
        subst hc
        cases hi
        rw [hdata, hall (hok.1 hst)]
      adapted := fun c hc => by
        subst hc
        cases hi
        rwa [hdata]
      written := fun _ c hc => absurd hc (hne c)
      short := fun hst => ⟨fun c hc => by
        cases hi.symm.trans hc
        rw [hdata]
        exact hless (ne_none_of_reportedProgress hi fun hnone => hst (hok.2 hnone)), fun c hc => absurd hc (hne c)⟩
      stored := fun _ => by
        rw [hdata, hbytes, Memory.length_prefixBytes]
        exact ⟨rfl, rfl⟩ }⟩
  | raised e u => rw [hrun] at hcounted; exact hcounted.elim
  | hung f => rw [exec_byteRead_of_hung hi hrun] at h; cases h

/-- The byte write answers with the number of elements it has written. -/
theorem byteWrite_shape (hwf : (Instr.writeBytes count).wf = true) (h : exec (.writeBytes count) s = .next t) :
    ∃ r, ResponseShape (.writeBytes count) s t r := by
  have hcounted := writeBytesLoop_counted count 0 s
  rw [Nat.zero_add] at hcounted
  change completeWrite (writeBytesLoop count 0 s) = _ at h
  cases hrun : writeBytesLoop count 0 s with
  | done p u =>
    rw [hrun] at hcounted h
    cases h
    have hdata : (Response.ofProgress p []).data.toNat = p.1 := by
      rw [Response.data_ofProgress, toNat_ofNat_of_le hcounted.le (of_decide_eq_true hwf)]
    have hok := Response.status_ofProgress_ok_iff p []
    obtain ⟨hlast, hall, hless⟩ := hcounted
    exact ⟨_, { Answered.ofProgress hlast [] with
      noBytes := fun _ => Response.bytes_ofProgress p []
      noData := fun _ _ hne => absurd rfl (hne count)
      word := fun _ => wordRange_of_elements rfl rfl (by nofun) _
      read := fun _ => nofun
      adapted := nofun
      written := fun hst c hc => by
        cases hc
        rw [hdata, hall (hok.1 hst)]
      short := fun hst => ⟨nofun, fun c hc => by
        cases hc
        rw [hdata]
        exact hless fun hnone => hst (hok.2 hnone)⟩
      stored := fun hsome => absurd rfl hsome }⟩
  | raised e u => rw [hrun] at hcounted; exact hcounted.elim
  | hung f => rw [hrun] at h; cases h

end

/-- Settles O43: each kind of command ends in one response, whose parts its operation gives. -/
theorem oneResponseOfTheRightShape : Obligations.OneResponseOfTheRightShape := by
  unfold Obligations.OneResponseOfTheRightShape
  intro i s t hwf _ h
  obtain ⟨r, hr⟩ : ∃ r, ResponseShape i s t r := by
    rcases exec_run_cases i with ⟨hnone, hne, hrun⟩ | ⟨count, hi⟩ | ⟨count, rfl⟩
    · obtain ⟨run, hexec, hshape⟩ := hrun s
      exact word_shape hnone hne hshape (hexec ▸ h)
    · exact byteRead_shape hi hwf h
    · exact byteWrite_shape hwf h
  exact ⟨r, hr.responses, hr.terr, hr.calls, hr.noBytes, hr.noData, fun hok => ⟨(hr.word hok).readBits, (hr.word hok).readBit,
    (hr.word hok).readByte, hr.read hok, hr.adapted, hr.written hok, (hr.word hok).write⟩, hr.short, hr.stored⟩

end Sys2Proof.Machine

/-! ### Commands one after another (R28 c, R50, R52) -/

namespace Sys2Proof.Machine

section
variable {i : Instr} {is js : List Instr} {s t : State}

theorem execAll_cons_eq_next : execAll (i :: is) s = .next t ↔ ∃ u, exec i s = .next u ∧ execAll is u = .next t := by
  rw [execAll]
  cases exec i s with
  | next u => exact ⟨fun h => ⟨u, rfl, h⟩, fun ⟨v, hv, h⟩ => by cases hv; exact h⟩
  | fault f => exact ⟨nofun, fun ⟨v, hv, _⟩ => nomatch hv⟩
  | refused r => exact ⟨nofun, fun ⟨v, hv, _⟩ => nomatch hv⟩

theorem execAll_append_eq_next : execAll (is ++ js) s = .next t ↔ ∃ u, execAll is s = .next u ∧ execAll js u = .next t := by
  induction is generalizing s with
  | nil => exact ⟨fun h => ⟨s, rfl, h⟩, fun ⟨u, hu, h⟩ => by cases hu; exact h⟩
  | cons i is ih =>
    simp only [List.cons_append, execAll_cons_eq_next, ih]
    constructor
    · rintro ⟨u, hu, v, hv, h⟩
      exact ⟨v, ⟨u, hu, hv⟩, h⟩
    · rintro ⟨v, ⟨u, hu, hv⟩, h⟩
      exact ⟨u, hu, v, hv, h⟩

theorem execAll_singleton (i : Instr) (s : State) : execAll [i] s = exec i s := by
  rw [execAll]
  cases exec i s <;> rfl

/-- Each command of a run is answered by one response (R71). -/
theorem execAll_responses (hinv : Inv s) (h : execAll is s = .next t) :
    ∃ rs, rs.length = is.length ∧ t.responses = s.responses ++ rs := by
  induction is generalizing s with
  | nil => cases h; exact ⟨[], rfl, (List.append_nil _).symm⟩
  | cons i is ih =>
    obtain ⟨u, hu, h⟩ := execAll_cons_eq_next.1 h
    obtain ⟨r, hr, -⟩ := exec_status hinv hu
    obtain ⟨rs, hlen, hrs⟩ := ih (exec_keeps hinv hu).inv h
    exact ⟨r :: rs, congrArg Nat.succ hlen, by rw [hrs, hr, List.append_assoc]; rfl⟩

/-- A writer command leaves the reader alone and pulls nothing (R140). -/
theorem writer_pulls_nothing (hi : writerCommand i = true) (h : exec i s = .next t) :
    t.rd = s.rd ∧ ∃ new, t.calls = s.calls ++ new ∧ new.filterMap Access.pulled = [] := by
  obtain ⟨hrd, -, -, -, -, new, r, hcalls, -, -, hnone, -⟩ := writerFrame.2 i s t hi h
  refine ⟨hrd, new, hcalls, List.filterMap_eq_nil_iff.2 fun c hc => ?_⟩
  obtain ⟨hanswer, -⟩ := hnone c hc
  cases c with
  | srcRead a => cases hanswer
  | snkWrite | destStore | srcLoad => rfl

/-- A writer command takes no bit out of the reader's stream. -/
theorem takenBits_writer (hi : writerCommand i = true) {r : Response} (hr : r.bytes = []) : takenBits i r = 0 := by
  have hnone : fieldReadWidth i = none := by
    cases i with
    | readBit | readBits | readByte => cases hi
    | readBytes | srcRead | writeBit | writeBits | writeByte | writeBytes | flush => rfl
  simp [takenBits, hnone, hr]

/-- The stream law of one command in numbers, whatever the command, if the source does not stop it (R47). -/
theorem exec_taken {r : Response} (hinv : Inv s) (h7 : s.rd.avail ≤ 7) (h : exec i s = .next t) (hr : t.responses = s.responses ++ [r])
    (hst : readerCommand i = true → r.status = .ok ∨ r.status = .invalidArgument) :
    t.rd.avail ≤ 7 ∧ ∃ new, t.calls = s.calls ++ new ∧
      s.rd.avail + 8 * (new.filterMap Access.pulled).length = takenBits i r + t.rd.avail := by
  rcases reader_or_writer i with hi | hi
  · have hst := hst hi
    obtain ⟨new, taken, hstep, htaken⟩ : ∃ new taken, ReaderStep s t new r taken ∧ takenBits i r = taken.length := by
      rcases reader_step hi hinv.1 h with ⟨n, hn, -, new, r', taken, hstep⟩ | ⟨count, hnone, -, new, r', taken, hstep⟩ <;>
        cases List.append_cancel_left (hr.symm.trans hstep.responses)
      · refine ⟨new, taken, hstep.toReaderStep, ?_⟩
        rcases hst with hok | hbad
        · simp [takenBits, hn, hok, (hstep.ok hok).1]
        · simp [takenBits, hn, hbad, hstep.notOk (by rw [hbad]; nofun)]
      · exact ⟨new, taken, hstep.toReaderStep, by simp [takenBits, hnone, hstep.length]⟩
    have hlen := congrArg List.length hstep.stream
    simp only [List.length_append, Acc.length_bits, length_bytesBits] at hlen
    refine ⟨?_, new, hstep.calls, htaken ▸ hlen⟩
    rcases hst with hok | hbad
    · exact (hstep.short_or_less hok).elim id fun hless => hless.2.trans h7
    · rwa [hstep.rejected hbad]
  · obtain ⟨hrd, new, hcalls, hpulled⟩ := writer_pulls_nothing hi h
    have hbytes : r.bytes = [] := by
      rcases writer_step hi hinv.2.1 h with
        ⟨v, n, -, new, r', put, hstep⟩ | ⟨count, -, new, r', put, hstep⟩ | ⟨-, new, r', put, hstep⟩ <;>
        cases List.append_cancel_left (hr.symm.trans hstep.responses) <;> exact hstep.bytes
    refine ⟨hrd ▸ h7, new, hcalls, ?_⟩
    rw [takenBits_writer hi hbytes, hpulled, hrd]
    exact (Nat.zero_add _).symm

end

/-- Settles O48, by induction on the commands. -/
theorem successfulReadsHoldBackUnderAByte : Obligations.SuccessfulReadsHoldBackUnderAByte := by
  unfold Obligations.SuccessfulReadsHoldBackUnderAByte
  intro prog s t rs hinv h7 hrun hrs hst
  have htotal : ∃ new, t.calls = s.calls ++ new ∧ Inv t ∧ t.rd.avail ≤ 7 ∧
      s.rd.avail + 8 * (new.filterMap Access.pulled).length = ((prog.zip rs).map fun p => takenBits p.1 p.2).sum + t.rd.avail := by
    induction prog generalizing s rs with
    | nil =>
      cases hrun
      exact ⟨[], (List.append_nil _).symm, hinv, h7, (Nat.zero_add _).symm⟩
    | cons i prog ih =>
      obtain ⟨u, hu, hrun⟩ := execAll_cons_eq_next.1 hrun
      have hinv' := (exec_keeps hinv hu).inv
      obtain ⟨r, hr, -⟩ := exec_status hinv hu
      obtain ⟨rs', -, hrs'⟩ := execAll_responses hinv' hrun
      obtain rfl : rs = r :: rs' := List.append_cancel_left (hrs.symm.trans (by rw [hrs', hr, List.append_assoc]; rfl))
      obtain ⟨hhead, htail⟩ := List.forall_mem_cons.1 hst
      obtain ⟨h7', new, hcalls, hcount⟩ := exec_taken hinv h7 hu hr hhead
      obtain ⟨new', hcalls', hinvt, h7t, hcount'⟩ := ih u rs' hinv' h7' hrun hrs' htail
      refine ⟨new ++ new', by rw [hcalls', hcalls, List.append_assoc], hinvt, h7t, ?_⟩
      rw [List.filterMap_append, List.length_append, List.zip_cons_cons, List.map_cons, List.sum_cons]
      dsimp only
      omega
  obtain ⟨new, hcalls, hinvt, h7t, hcount⟩ := htotal
  refine ⟨h7t, hinvt.1.stop_le h7t, new, _, hcalls, rfl, hcount, fun hempty => ?_⟩
  have h0 : s.rd.avail = 0 := by rw [hempty]; rfl
  simp only [ceilDiv8]
  omega

end Sys2Proof.Machine

/-! ### A write session (R201) -/

namespace Sys2Proof.Machine

/-- The last writer command of a run, with its response. -/
def lastWrite (ran : List (Instr × Response)) : Option (Instr × Response) := (ran.filter fun p => writerCommand p.1).getLast?

theorem sessionComplete_iff {ran : List (Instr × Response)} :
    SessionComplete ran ↔ ∃ p, lastWrite ran = some p ∧ p.1 = .flush ∧ p.2.status = .ok := by
  show (lastWrite ran).map _ = _ ↔ _
  simp

theorem lastWrite_append_reader {ran : List (Instr × Response)} {p : Instr × Response} (h : writerCommand p.1 = false) :
    lastWrite (ran ++ [p]) = lastWrite ran := by
  simp [lastWrite, List.filter_append, h]

theorem lastWrite_append_writer {ran : List (Instr × Response)} {p : Instr × Response} (h : writerCommand p.1 = true) :
    lastWrite (ran ++ [p]) = some p := by
  simp [lastWrite, List.filter_append, h]

/-- The last writer command issued is the last of the run. -/
theorem getLast?_filter_writer {prog : List Instr} {rs : List Response} (h : rs.length = prog.length) :
    (prog.filter writerCommand).getLast? = (lastWrite (prog.zip rs)).map (·.1) := by
  have hfst : prog = (prog.zip rs).map Prod.fst := (List.map_fst_zip h.ge).symm
  conv => lhs; rw [hfst]
  rw [List.filter_map, List.getLast?_map]
  rfl

theorem writtenStream_append (src : Memory) (before : List Bool) (ran : List (Instr × Response)) (p : Instr × Response) :
    writtenStream src before (ran ++ [p]) =
      writtenStream src before ran ++ addedBits src (writtenStream src before ran) p.1 p.2 := by
  induction ran generalizing before with
  | nil => rfl
  | cons q ran ih => exact ih _

/-- A field write that has been answered has added what it put into the stream. -/
theorem addedBits_fieldWrite {i : Instr} {v n : Nat} (hi : fieldWriteOperands i = some (v, n)) (src : Memory) (before : List Bool)
    (r : Response) : addedBits src before i r = if r.status = .invalidArgument then [] else fieldBits v n := by
  cases i <;> cases hi <;> rfl

/-- The padding of a flush depends on what is staged alone: what the sink has been given is whole bytes. -/
theorem padding_eq {before : List Bool} {out : List Byte} {a : Acc} (h : before = bytesBits out ++ a.bits) :
    8 * ceilDiv8 before.length - before.length = 8 * ceilDiv8 a.avail - a.avail := by
  rw [h, List.length_append, length_bytesBits, Acc.length_bits]
  simp only [ceilDiv8]
  omega

section
variable {i : Instr} {s t : State} {before : List Bool} {out : List Byte}

/-- The writer's stream after one command of a session: what the sink has been given since, and what is staged (R48). -/
theorem exec_added (hwf : i.wf = true) (hinv : Inv s) (h : exec i s = .next t) (hbefore : before = bytesBits out ++ s.wr.bits) :
    ∃ r es, t.responses = s.responses ++ [r] ∧ t.sink.out = s.sink.out ++ es ∧
      before ++ addedBits s.src before i r = bytesBits (out ++ es) ++ t.wr.bits ∧
      (writerCommand i = false → t.wr = s.wr) ∧
      (i = .flush → (r.status = .ok → t.wr = Acc.empty) ∧ (r.status ≠ .ok → 8 ≤ t.wr.avail)) := by
  have hadd : ∀ {new r put}, WriterStep s t new r put → addedBits s.src before i r = put →
      before ++ addedBits s.src before i r = bytesBits (out ++ new.filterMap Access.emitted) ++ t.wr.bits := by
    intro new r put hstep hput
    rw [hput, hbefore, List.append_assoc, hstep.stream, bytesBits_append, List.append_assoc]
  rcases reader_or_writer i with hi | hi
  · obtain ⟨hwr, hsink, -, -, -, r, -, hresp, -⟩ := readerFrame.2 i s t hi hinv.2.2.1 h
    refine ⟨r, [], hresp, by rw [hsink, List.append_nil], ?_, fun _ => hwr, ?_⟩
    · have hnone : addedBits s.src before i r = [] := by
        cases i with
        | readBit | readBits | readByte | readBytes | srcRead => rfl
        | writeBit | writeBits | writeByte | writeBytes | flush => cases hi
      rw [hnone, hwr, List.append_nil, List.append_nil, hbefore]
    · rintro rfl
      cases hi
  · have hno : ¬ writerCommand i = false := by rw [hi]; nofun
    rcases writer_step hi hinv.2.1 h with
      ⟨v, n, hf, new, r, put, hstep⟩ | ⟨count, rfl, new, r, put, hstep⟩ | ⟨rfl, new, r, put, hstep⟩ <;>
      refine ⟨r, _, hstep.responses, hstep.out, hadd hstep.toWriterStep ?_, fun hr => absurd hr hno, fun hflush => ?_⟩
    · rw [addedBits_fieldWrite hf, hstep.put]
    · rw [hflush] at hf
      cases hf
    · exact (hstep.put (of_decide_eq_true hwf)).symm
    · cases hflush
    · rw [hstep.put, ← padding_eq hbefore]
      rfl
    · refine ⟨hstep.empty, fun hne => hstep.failed ?_⟩
      have hlegal := hstep.legal
      have hended := hstep.notEnded
      cases hst : r.status with
      | ok => exact absurd hst hne
      | endOfStream => exact absurd hst hended
      | transportFailure => rfl
      | invalidArgument => exact absurd hst hlegal

end

/-- What a run of commands from an Empty writer has done: each command is answered, the writer's stream is what the sink has been
given and what is staged, and a last `flush` has left nothing staged, or at least a byte. -/
structure WriteSession (prog : List Instr) (s t : State) (rs : List Response) (out : List Byte) : Prop where
  length    : rs.length = prog.length
  responses : t.responses = s.responses ++ rs
  sink      : t.sink.out = s.sink.out ++ out
  stream    : writtenStream s.src [] (prog.zip rs) = bytesBits out ++ t.wr.bits
  inv       : Inv t
  src       : t.src = s.src
  flushed   : ∀ p, lastWrite (prog.zip rs) = some p → p.1 = .flush →
    (p.2.status = .ok → t.wr = Acc.empty) ∧ (p.2.status ≠ .ok → 8 ≤ t.wr.avail)

theorem writeSession {prog : List Instr} {s t : State} (hwf : ∀ i ∈ prog, i.wf = true) (hinv : Inv s) (hempty : s.wr = Acc.empty)
    (h : execAll prog s = .next t) : ∃ rs out, WriteSession prog s t rs out := by
  induction prog using List.reverseRecOn generalizing t with
  | nil =>
    cases h
    exact ⟨[], [], rfl, (List.append_nil _).symm, (List.append_nil _).symm, by rw [hempty]; rfl, hinv, rfl, nofun⟩
  | append_singleton prog i ih =>
    obtain ⟨u, hu, h⟩ := execAll_append_eq_next.1 h
    rw [execAll_singleton] at h
    obtain ⟨hwfp, hwfi⟩ := List.forall_mem_append.1 hwf
    obtain ⟨rs, out, hsession⟩ := ih hwfp hu
    obtain ⟨r, es, hresp, hout, hstream, hreader, hflush⟩ := exec_added (hwfi i List.mem_cons_self) hsession.inv h hsession.stream
    have hkeeps := exec_keeps hsession.inv h
    have hzip : (prog ++ [i]).zip (rs ++ [r]) = prog.zip rs ++ [(i, r)] := List.zip_append hsession.length.symm
    refine ⟨rs ++ [r], out ++ es, by simp [hsession.length], by rw [hresp, hsession.responses, List.append_assoc],
      by rw [hout, hsession.sink, List.append_assoc], ?_, hkeeps.inv, hkeeps.src.trans hsession.src, fun p hp hpf => ?_⟩
    · rw [hsession.src] at hstream
      rw [hzip, writtenStream_append]
      exact hstream
    · rw [hzip] at hp
      cases hi : writerCommand i with
      | false =>
        rw [lastWrite_append_reader (p := (i, r)) hi] at hp
        rw [hreader hi]
        exact hsession.flushed p hp hpf
      | true =>
        rw [lastWrite_append_writer (p := (i, r)) hi] at hp
        cases hp
        exact hflush hpf

section
variable {prog : List Instr} {s t : State} {rs : List Response} {out : List Byte}

theorem WriteSession.empty_of_complete (h : WriteSession prog s t rs out) (hc : SessionComplete (prog.zip rs)) :
    t.wr = Acc.empty := by
  obtain ⟨p, hp, hflush, hok⟩ := sessionComplete_iff.1 hc
  exact (h.flushed p hp hflush).1 hok

/-- A last `flush` that was not answered `OK` has left a byte or more. -/
theorem WriteSession.backlog_of_incomplete (h : WriteSession prog s t rs out)
    (hlast : (prog.filter writerCommand).getLast? = some .flush) (hc : ¬ SessionComplete (prog.zip rs)) : 8 ≤ t.wr.avail := by
  rw [getLast?_filter_writer h.length] at hlast
  obtain ⟨p, hp, hflush⟩ := Option.map_eq_some_iff.1 hlast
  exact (h.flushed p hp hflush).2 fun hok => hc (sessionComplete_iff.2 ⟨p, hp, hflush, hok⟩)

/-- After a last `flush` the writer is Empty exactly if it was answered `OK`. -/
theorem WriteSession.sessionComplete_iff_empty (h : WriteSession prog s t rs out)
    (hlast : (prog.filter writerCommand).getLast? = some .flush) : SessionComplete (prog.zip rs) ↔ t.wr = Acc.empty := by
  refine ⟨h.empty_of_complete, fun hempty => not_not.1 fun hc => ?_⟩
  have h8 := h.backlog_of_incomplete hlast hc
  rw [hempty] at h8
  exact absurd h8 (by decide)

theorem WriteSession.getLast?_of_complete (h : WriteSession prog s t rs out) (hc : SessionComplete (prog.zip rs)) :
    (prog.filter writerCommand).getLast? = some .flush := by
  obtain ⟨p, hp, hflush, -⟩ := sessionComplete_iff.1 hc
  rw [getLast?_filter_writer h.length, hp, Option.map_some, hflush]

/-- R201: the end-of-run predicate says that the session is complete, and which statuses there were. -/
theorem WriteSession.endOfRun_iff (h : WriteSession prog s t rs out) (expected : List Status) :
    EndOfRun prog expected s t ↔ SessionComplete (prog.zip rs) ∧ expected = rs.map (·.status) := by
  have hstatuses : t.responses.map (·.status) = s.responses.map (·.status) ++ expected ↔ expected = rs.map (·.status) := by
    rw [h.responses, List.map_append, List.append_cancel_left_eq]
    exact eq_comm
  rw [EndOfRun, hstatuses]
  constructor
  · rintro ⟨hexpected, hlast, hempty⟩
    exact ⟨(h.sessionComplete_iff_empty hlast).2 hempty, hexpected⟩
  · rintro ⟨hc, hexpected⟩
    exact ⟨hexpected, h.getLast?_of_complete hc, h.empty_of_complete hc⟩

/-- A complete session has given the sink the whole stream. -/
theorem WriteSession.stream_of_complete (h : WriteSession prog s t rs out) (hc : SessionComplete (prog.zip rs)) :
    bytesBits out = writtenStream s.src [] (prog.zip rs) := by
  rw [h.stream, h.empty_of_complete hc, Acc.bits_empty, List.append_nil]

/-- A session whose last `flush` was not answered `OK` has not. -/
theorem WriteSession.stream_of_incomplete (h : WriteSession prog s t rs out)
    (hlast : (prog.filter writerCommand).getLast? = some .flush) (hc : ¬ SessionComplete (prog.zip rs)) :
    bytesBits out ≠ writtenStream s.src [] (prog.zip rs) := by
  intro heq
  rw [h.stream, List.self_eq_append_right] at heq
  have h8 := h.backlog_of_incomplete hlast hc
  rw [← Acc.length_bits, heq] at h8
  exact absurd h8 (by decide)

/-- The last `flush` of a complete session fills the last byte. -/
theorem WriteSession.length_out {ws : List Instr} (h : WriteSession (ws ++ [Instr.flush]) s t rs out)
    (hc : SessionComplete ((ws ++ [Instr.flush]).zip rs)) :
    out.length = ceilDiv8 (writtenStream s.src [] (ws.zip rs)).length := by
  have hlen := h.length
  rw [List.length_append, List.length_singleton] at hlen
  have hne : rs ≠ [] := List.ne_nil_of_length_eq_add_one hlen
  obtain ⟨rs, r, rfl⟩ : ∃ rs' r, rs = rs' ++ [r] := ⟨rs.dropLast, rs.getLast hne, (List.dropLast_append_getLast hne).symm⟩
  have hws : ws.length = rs.length := by simpa using hlen.symm
  have hzip : ws.zip (rs ++ [r]) = ws.zip rs := by simpa using List.zip_append (r₁ := []) (r₂ := [r]) hws
  have hstream := h.stream_of_complete hc
  rw [List.zip_append hws, List.zip_cons_cons, List.zip_nil_left, writtenStream_append] at hstream
  have hbits := congrArg List.length hstream
  simp only [length_bytesBits, List.length_append, addedBits, List.length_replicate] at hbits
  have hle : ∀ m, m ≤ 8 * ceilDiv8 m := fun m => by simp only [ceilDiv8]; omega
  have := hle (writtenStream s.src [] (ws.zip rs)).length
  rw [hzip]
  omega

end

/-- Settles O47: the run is a write session. -/
theorem writeSessionEndsWithAFlush : Obligations.WriteSessionEndsWithAFlush := by
  unfold Obligations.WriteSessionEndsWithAFlush
  intro prog s t hwf hinv hempty hrun
  obtain ⟨rs, out, h⟩ := writeSession hwf hinv hempty hrun
  refine ⟨rs, out, h.length, h.responses, h.sink, h.stream, h.endOfRun_iff, h.stream_of_complete, ?_, h.stream_of_incomplete⟩
  rintro ws rfl hc
  exact h.length_out hc

end Sys2Proof.Machine

/-! ### Reading back what was written (R156) -/

namespace Sys2Proof.Machine

/-- The stream of a list of fields, each a value and a width. -/
def fieldsBits (fs : List (Nat × Nat)) : List Bool := fs.flatMap fun f => fieldBits f.1 f.2

theorem fieldsBits_cons (f : Nat × Nat) (fs : List (Nat × Nat)) : fieldsBits (f :: fs) = fieldBits f.1 f.2 ++ fieldsBits fs := rfl

theorem length_fieldsBits (fs : List (Nat × Nat)) : (fieldsBits fs).length = (fs.map (·.2)).sum := by
  simp [fieldsBits, List.length_flatMap]

/-- The fields that the round trip is about: widths that always fit, values that fit their widths. -/
abbrev NarrowFields (fs : List (Nat × Nat)) : Prop := ∀ f ∈ fs, 1 ≤ f.2 ∧ f.2 ≤ 50 ∧ f.1 < 2 ^ f.2

/-! #### Writing over a willing sink -/

theorem Sink.Willing.next {k : Sink} (h : k.Willing) : k.next = some (.ok, k) := by
  rw [Sink.next, h.1, h.2]

/-- A willing sink stays willing. -/
theorem Sink.Willing.accepts {k k' : Sink} {es : List Byte} (h : k.Willing) (ha : k.Accepts es k') : k'.Willing := by
  induction es generalizing k with
  | nil => rwa [Sink.accepts_nil.1 ha]
  | cons b es ih =>
    obtain ⟨k1, hnext, ha⟩ := ha
    cases h.next.symm.trans hnext
    exact ih (k := k.took b .ok) h ha

section
variable {s : State}

/-- Over a willing sink a field write with room is complete (R144). -/
theorem writeField_willing {v n : Nat} (h0 : 0 < n) (h1 : n < 64) (hv : v < 2 ^ n) (hw : WriterInv s.wr) (hroom : s.wr.stop + n ≤ 64)
    (hsink : s.sink.Willing) :
    ∃ es k w, writeField v n s = .done 0#64 (s.drained w es k) ∧ s.sink.Accepts es k ∧ WriterInv w ∧ w.avail < 8 ∧
      s.wr.bits ++ fieldBits v n = bytesBits es ++ w.bits := by
  rcases writeField_cases v n s hw with ⟨hlegal, -⟩ | ⟨-, es, k, w, hacc, hinv, hstream, hend⟩
  · exact absurd ⟨h0, h1, hv, hroom⟩ hlegal
  · have hnext := (hsink.accepts hacc).next
    rcases hend with ⟨hshort, hrun⟩ | ⟨-, ⟨b, e, k', -, hfail, -⟩ | ⟨hsilent, -⟩⟩
    · exact ⟨es, k, w, hrun, hacc, hinv, hshort, hstream⟩
    · cases hnext.symm.trans hfail
    · cases hnext.symm.trans hsilent

/-- Over a willing sink a flush is complete (R150). -/
theorem flush_willing (hw : WriterInv s.wr) (hsink : s.sink.Willing) :
    ∃ es k, exec .flush s = .next ((s.drained Acc.empty es k).respond (.okay 0#64 [])) ∧ s.sink.Accepts es k ∧
      bytesBits es = s.wr.bits ++ List.replicate (8 * ceilDiv8 s.wr.avail - s.wr.avail) false := by
  show ∃ es k, complete ((drain (s.setWr s.wr.pad)).bind fun _ t => .done 0#64 t) = _ ∧ _
  obtain ⟨es, k, w, hacc, -, hstream, hend⟩ := flush_cases s hw
  have hnext := (hsink.accepts hacc).next
  rcases hend with ⟨rfl, hrun⟩ | ⟨-, ⟨b, e, k', -, hfail, -⟩ | ⟨hsilent, -⟩⟩
  · exact ⟨es, k, by rw [hrun]; rfl, hacc, by rw [hstream, Acc.bits_empty, List.append_nil]⟩
  · cases hnext.symm.trans hfail
  · cases hnext.symm.trans hsilent

/-- Fields written one after another over a willing sink: all are answered `OK`, and the bytes out and the bits left are the
stream. -/
theorem execAll_writeFields {fs : List (Nat × Nat)} (hfs : NarrowFields fs) (hw : WriterInv s.wr) (h7 : s.wr.avail < 8)
    (hsink : s.sink.Willing) :
    ∃ t out, execAll (fs.map fun f => .writeBits f.1 f.2) s = .next t ∧
      t.responses = s.responses ++ List.replicate fs.length ⟨.ok, 0#64, 0#32, []⟩ ∧ t.sink.out = s.sink.out ++ out ∧
      s.wr.bits ++ fieldsBits fs = bytesBits out ++ t.wr.bits ∧ WriterInv t.wr ∧ t.wr.avail < 8 ∧ t.sink.Willing := by
  induction fs generalizing s with
  | nil => exact ⟨s, [], rfl, (List.append_nil _).symm, (List.append_nil _).symm, List.append_nil _, hw, h7, hsink⟩
  | cons f fs ih =>
    obtain ⟨⟨h0, h50, hv⟩, hrest⟩ := List.forall_mem_cons.1 hfs
    have hroom : s.wr.stop + f.2 ≤ 64 := by rw [← hw.avail_eq]; omega
    obtain ⟨es, k, w, hrun, hacc, hinv, hw7, hstream⟩ := writeField_willing h0 (by omega) hv hw hroom hsink
    obtain ⟨t, out, ht, hresp, hout, hstream', hinv', h7', hsink'⟩ :=
      ih (s := (s.drained w es k).respond (.okay 0#64 [])) hrest hinv hw7 (hsink.accepts hacc)
    refine ⟨t, es ++ out, ?_, ?_, ?_, ?_, hinv', h7', hsink'⟩
    · rw [List.map_cons, execAll_cons_eq_next]
      refine ⟨_, ?_, ht⟩
      rw [exec_fieldWrite rfl, hrun]
      rfl
    · rw [hresp, List.length_cons, List.replicate_succ]
      exact List.append_assoc _ _ _
    · rw [hout, ← List.append_assoc]
      exact congrArg (· ++ out) (Sink.accepts_out hacc)
    · rw [fieldsBits_cons, ← List.append_assoc, hstream, List.append_assoc, bytesBits_append, List.append_assoc]
      exact congrArg (bytesBits es ++ ·) hstream'

/-- Fields written on an Empty writer over a willing sink and flushed: the bytes are the stream and less than a byte of zeros. -/
theorem execAll_writeFields_flush {fs : List (Nat × Nat)} (hfs : NarrowFields fs) (hempty : s.wr = Acc.empty) (hsink : s.sink.Willing) :
    ∃ t bytes pad, execAll (fs.map (fun f => .writeBits f.1 f.2) ++ [.flush]) s = .next t ∧
      t.responses = s.responses ++ List.replicate (fs.length + 1) ⟨.ok, 0#64, 0#32, []⟩ ∧
      t.sink.out = s.sink.out ++ bytes ∧ t.wr = Acc.empty ∧
      bytesBits bytes = fieldsBits fs ++ List.replicate pad false ∧ pad < 8 := by
  have hw : WriterInv s.wr := by rw [hempty]; decide
  obtain ⟨u, out, hu, hresp, hout, hstream, hinv, -, hsink'⟩ := execAll_writeFields hfs hw (by rw [hempty]; decide) hsink
  obtain ⟨es, k, hflush, hacc, hpad⟩ := flush_willing hinv hsink'
  rw [hempty, Acc.bits_empty, List.nil_append] at hstream
  refine ⟨_, out ++ es, _, execAll_append_eq_next.2 ⟨u, hu, (execAll_singleton _ _).trans hflush⟩, ?_, ?_, rfl,
    by rw [bytesBits_append, hpad, hstream, List.append_assoc], ?_⟩
  · rw [List.replicate_succ', ← List.append_assoc]
    exact congrArg (· ++ [_]) hresp
  · rw [← List.append_assoc, ← hout]
    exact Sink.accepts_out hacc
  · simp only [ceilDiv8]
    omega

end

/-! #### Reading from the bytes -/

/-- Fields read one after another from bytes that begin with them: all are answered `OK` with their values, and what follows them is
pending or still in the source. -/
theorem execAll_readFields {fs : List (Nat × Nat)} {u : State} {bs : List Byte} {rest : List Bool} (hfs : NarrowFields fs)
    (hinv : ReaderInv u.rd) (h7 : u.rd.avail ≤ 7) (hsource : u.source = Source.ofBytes bs)
    (hstream : u.rd.bits ++ bytesBits bs = fieldsBits fs ++ rest) :
    ∃ t cs, execAll (fs.map fun f => .readBits f.2) u = .next t ∧
      t.responses = u.responses ++ fs.map (fun f => ⟨.ok, BitVec.ofNat 64 f.1, 0#32, []⟩) ∧
      ReaderInv t.rd ∧ t.rd.avail ≤ 7 ∧ t.source = Source.ofBytes cs ∧ t.rd.bits ++ bytesBits cs = rest := by
  induction fs generalizing u bs with
  | nil => exact ⟨u, bs, rfl, (List.append_nil _).symm, hinv, h7, hsource, hstream⟩
  | cons f fs ih =>
    obtain ⟨⟨h0, h50, hv⟩, hrest⟩ := List.forall_mem_cons.1 hfs
    rw [fieldsBits_cons, List.append_assoc] at hstream
    have hlen := congrArg List.length hstream
    simp only [List.length_append, Acc.length_bits, length_bytesBits, length_fieldBits] at hlen
    -- the bytes that the first field needs
    have hcut : ceilDiv8 (f.2 - u.rd.avail) ≤ bs.length := by simp only [ceilDiv8]; omega
    obtain ⟨b1, b2, rfl, hl⟩ : ∃ b1 b2, bs = b1 ++ b2 ∧ b1.length = ceilDiv8 (f.2 - u.rd.avail) :=
      ⟨bs.take _, bs.drop _, (List.take_append_drop _ bs).symm, List.length_take_of_le hcut⟩
    have hd : u.source.Delivers b1 (Source.ofBytes b2) := hsource ▸ Source.delivers_ofBytes b1 b2
    obtain ⟨t, ht, hresp, ho, hc, hn, hbits, hsource'⟩ := exec_readBits_narrow h0 h50 hinv.1 hinv.2.1 hinv.2.2.1 hl hd
    have hb1 : f.2 ≤ (u.rd.bits ++ bytesBits b1).length := by
      rw [List.length_append, Acc.length_bits, length_bytesBits]
      exact le_avail_add_of_length hl
    -- the field is the front of the stream, and what it leaves is the rest
    rw [bytesBits_append, ← List.append_assoc] at hstream
    have hfield : (u.rd.bits ++ bytesBits b1).take f.2 = fieldBits f.1 f.2 := by
      rw [← List.take_append_of_le_length hb1, hstream, List.take_left' (length_fieldBits _ _)]
    have hafter : t.rd.bits ++ bytesBits b2 = fieldsBits fs ++ rest := by
      rw [hbits, ← List.drop_append_of_le_length hb1, hstream, List.drop_left' (length_fieldBits _ _)]
    have h7' : t.rd.avail ≤ 7 := by
      rw [← Acc.length_bits, hbits, List.length_drop, List.length_append, Acc.length_bits, length_bytesBits, hl]
      simp only [ceilDiv8]
      omega
    obtain ⟨t', cs, ht', hresp', hend⟩ := ih hrest ⟨ho, hc, hn, h7'.trans (by decide)⟩ h7' hsource' hafter
    refine ⟨t', cs, execAll_cons_eq_next.2 ⟨t, ht, ht'⟩, ?_, hend⟩
    rw [hresp', hresp, hfield, bitsValue_fieldBits hv, List.append_assoc]
    rfl

/-- A read of more than is pending, with no byte to come, is answered `EndOfStream` (R126). -/
theorem exec_readBits_ended {n : Nat} {u : State} (hinv : ReaderInv u.rd) (hsource : u.source = Source.ofBytes [])
    (hlt : u.rd.avail < n) (h50 : n ≤ 50) :
    ∃ z, exec (.readBits n) u = .next z ∧ z.responses = u.responses ++ [⟨.endOfStream, 0#64, 0#32, []⟩] := by
  have hex : u.source.Exhausted := by rw [hsource]; exact ⟨rfl, rfl⟩
  have hroom := readCapacity_narrow hinv.1 hinv.2.2.1 h50
  rw [refillBytes_eq hinv.1.1] at hroom
  refine ⟨(u.log (.srcRead .ended)).respond (.error .endOfStream 0#64 []), ?_, rfl⟩
  rw [exec_fieldRead rfl u hinv.1 hinv.2.1, readField_exhausted hinv hex (by omega) (by omega) hroom hlt]
  rfl

theorem readerInv_empty : ReaderInv Acc.empty := by decide

/-- Settles O46: the bytes spell the fields and less than a byte of zeros, and the reader takes the fields from their front. -/
theorem roundTrip : Obligations.RoundTrip := by
  unfold Obligations.RoundTrip
  refine ⟨fun fs s hfs hempty hsink => ?fields, fun b s hempty hsink => ?byte⟩
  case fields =>
    obtain ⟨t, bytes, pad, ht, hresp, hout, hwr, hbytes, hpad⟩ := execAll_writeFields_flush hfs hempty hsink
    have hlen := congrArg List.length hbytes
    rw [length_bytesBits, List.length_append, length_fieldsBits, List.length_replicate] at hlen
    refine ⟨t, bytes, ht, hresp, hout, by simp only [ceilDiv8]; omega, hwr, fun u (hrd : u.rd = Acc.empty) hsource => ?_⟩
    obtain ⟨u', cs, hu', hresp', hinv, h7, hsource', hrest⟩ := execAll_readFields hfs (hrd ▸ readerInv_empty) (by rw [hrd]; decide)
      hsource (by rw [hrd]; exact hbytes)
    -- the padding is less than a byte, so the source has no byte left
    have hcs := congrArg List.length hrest
    rw [List.length_append, length_bytesBits, List.length_replicate] at hcs
    obtain rfl : cs = [] := List.length_eq_zero_iff.1 (by omega)
    rw [bytesBits_nil, List.append_nil] at hrest
    exact ⟨u', hu', hresp', h7, fun x hx => List.eq_of_mem_replicate (hrest ▸ hx),
      fun n hlt h50 => exec_readBits_ended hinv hsource' hlt h50⟩
  case byte =>
    have hfs : NarrowFields [(b.toNat, 8)] := by simpa using b.isLt
    obtain ⟨t, bytes, pad, ht, -, hout, -, hbytes, hpad⟩ := execAll_writeFields_flush hfs hempty hsink
    -- one byte is the whole stream
    have hlen := congrArg List.length hbytes
    rw [length_bytesBits, List.length_append, length_fieldsBits, List.length_replicate] at hlen
    obtain rfl : pad = 0 := by simp at hlen; omega
    obtain rfl : bytes = [b] := by
      refine bytesBits_injective (hbytes.trans ?_)
      simp [fieldsBits, byteBits_eq_fieldBits]
    refine ⟨t, ht, hout, fun u (hrd : u.rd = Acc.empty) hsource => ?_⟩
    obtain ⟨u', cs, hu', hresp, -⟩ := execAll_readFields hfs (hrd ▸ readerInv_empty) (by rw [hrd]; decide) hsource
      (by rw [hrd]; exact hbytes)
    refine ⟨u', (execAll_singleton _ u).symm.trans hu', ?_⟩
    rw [hresp, List.map_singleton, BitVec.ofNat_toNat]

end Sys2Proof.Machine
